-- ==== Sys2Proof/Word.lean ====
section
/-!
DEFINITION. The two widths of the M68HC08: bytes (8 bits: A, H, X, every memory location) and words (16 bits:
H:X, SP, PC and every address), as spec/00_scope.md rule R5 fixes them.
-/

namespace Sys2Proof

/-- A byte: bits 7 (most significant) down to 0 (rules R5, R7). -/
abbrev Byte := BitVec 8

/-- A 16-bit word or a 16-bit bus address: bits 15 down to 0 (rules R5, R7). -/
abbrev Word := BitVec 16

end Sys2Proof
end

