-- ==== Sys2Proof/Machine/Bits.lean ====
section
/-!
DEFINITION. The bit-field, sign-extension and byte-order helpers of spec/00_scope.md rule R7 and
spec/20_memory.md rules R50, R51 (every 16-bit quantity is held high byte first).
-/

namespace Sys2Proof.Machine

/-- `v[15:8]`, the more significant byte of a word (rule R7). -/
def hiByte (v : Word) : Byte := v.extractLsb' 8 8

/-- `v[7:0]`, the less significant byte of a word (rule R7). -/
def loByte (v : Word) : Byte := v.extractLsb' 0 8

/-- `hi:lo`, the concatenation with `hi` the more significant byte (rule R7). -/
def joinBytes (hi lo : Byte) : Word := hi ++ lo

/-- `zext_16(b)`: the byte read as an unsigned number, as a word (rule R7). -/
def zext16 (b : Byte) : Word := b.setWidth 16

/-- `sext_16(b)`: the byte read as a two's-complement number, as a word (rule R7). -/
def sext16 (b : Byte) : Word := b.signExtend 16

end Sys2Proof.Machine
end

