-- ==== Sys2Proof/Syntax.lean ====
section
/-!
DEFINITION. The abstract syntax of the instruction set: one constructor of `Instr` per mnemonic of
spec/opcode_table.json (119, counted in spec/30_encoding.md rule R88), with the addressing forms of that mnemonic's
rows as operands. Every one of the table's 298 rows is one constructor at one operand form: the eight rows of
BRSET, BRCLR, BSET and BCLR are the eight values of the bit number `n`. The five mnemonics ASL, ASLA, ASLX, BHS and BLO
are second names of LSL, LSLA, LSLX, BCC and BCS (rule R96): they have constructors, and `Instr.canonical` gives the
first name, which is the one the decoder answers.
-/

namespace Sys2Proof

/-- The addressing modes that have an effective address, with their operand bytes (spec/30_encoding.md rules R82, R91;
spec/40_addressing_and_alu.md rules R112 to R118). Two-byte operands are held as the word they stand for. -/
inductive Ea where
  /-- DIR: the low byte `dd` of a direct-page address. -/
  | dir (dd : Byte)
  /-- EXT: the address `hh:ll`. -/
  | ext (hhll : Word)
  /-- IX2: the 16-bit offset `ee:ff` from H:X. -/
  | ix2 (eeff : Word)
  /-- IX1: the unsigned 8-bit offset `ff` from H:X. -/
  | ix1 (ff : Byte)
  /-- IX: no offset from H:X. -/
  | ix
  /-- SP2: the 16-bit offset `ee:ff` from SP. -/
  | sp2 (eeff : Word)
  /-- SP1: the unsigned 8-bit offset `ff` from SP. -/
  | sp1 (ff : Byte)
deriving DecidableEq, Repr

/-- The general operand forms (rule R129's `opnd8`): an immediate byte or a byte in memory. -/
inductive Opnd8 where
  /-- IMM: the byte `ii`. -/
  | imm (ii : Byte)
  /-- The byte at an effective address. -/
  | mem (e : Ea)
deriving DecidableEq, Repr

/-- The 16-bit operand forms of LDHX and CPHX (rule R129's `opnd16`). -/
inductive Opnd16 where
  /-- IMM: the word `jj:kk`. -/
  | imm (jjkk : Word)
  /-- DIR: the two bytes from `$00:dd` upward. -/
  | dir (dd : Byte)
deriving DecidableEq, Repr

/-- The four memory-to-memory modes of MOV (rule R128). -/
inductive MovOpnd where
  /-- DD: source address, then destination address, both in the direct page. -/
  | dd (src dst : Byte)
  /-- DIX+: direct-page source, destination at H:X, then H:X + 1. -/
  | dixPlus (src : Byte)
  /-- IMD: immediate data, direct-page destination. -/
  | imd (ii dst : Byte)
  /-- IX+D: source at H:X, direct-page destination, then H:X + 1. -/
  | ixPlusD (dst : Byte)
deriving DecidableEq, Repr

/-- The four memory forms of CBEQ (rule R283). -/
inductive CbeqOpnd where
  /-- DIR. -/
  | dir (dd : Byte)
  /-- IX1+: at H:X + `ff`, then H:X + 1. -/
  | ix1Plus (ff : Byte)
  /-- IX+: at H:X, then H:X + 1. -/
  | ixPlus
  /-- SP1: at SP + `ff`. -/
  | sp1 (ff : Byte)
deriving DecidableEq, Repr

/-- The instructions. A `rr` is the signed offset byte of a relative branch (rule R120), an `n` the bit number 0 to 7 of
a bit instruction (bits 3-1 of its opcode, rule R86). -/
inductive Instr where
  -- loads, stores, moves, clears (41_load_store_transfer.md)
  /-- LDA, rule R140. -/
  | lda (o : Opnd8)
  /-- LDX, rule R141. -/
  | ldx (o : Opnd8)
  /-- LDHX, rule R142. -/
  | ldhx (o : Opnd16)
  /-- STA, rule R143. -/
  | sta (e : Ea)
  /-- STX, rule R144. -/
  | stx (e : Ea)
  /-- STHX, rule R145 (direct form only). -/
  | sthx (dd : Byte)
  /-- MOV, rule R146. -/
  | mov (o : MovOpnd)
  /-- CLR of a memory byte, rule R147. -/
  | clr (e : Ea)
  /-- CLRA, rule R147. -/
  | clra
  /-- CLRX, rule R147. -/
  | clrx
  /-- CLRH, rule R147. -/
  | clrh
  -- register transfers and the stack
  /-- TAX, rule R148. -/
  | tax
  /-- TXA, rule R149. -/
  | txa
  /-- TAP, rule R150. -/
  | tap
  /-- TPA, rule R151. -/
  | tpa
  /-- TSX, rule R152. -/
  | tsx
  /-- TXS, rule R153. -/
  | txs
  /-- RSP, rule R154. -/
  | rsp
  /-- PSHA, rule R155. -/
  | psha
  /-- PSHH, rule R156. -/
  | pshh
  /-- PSHX, rule R157. -/
  | pshx
  /-- PULA, rule R158. -/
  | pula
  /-- PULH, rule R159. -/
  | pulh
  /-- PULX, rule R160. -/
  | pulx
  -- arithmetic (42_arithmetic.md)
  /-- ADC, rule R180. -/
  | adc (o : Opnd8)
  /-- ADD, rule R181. -/
  | add (o : Opnd8)
  /-- SUB, rule R182. -/
  | sub (o : Opnd8)
  /-- SBC, rule R183. -/
  | sbc (o : Opnd8)
  /-- CMP, rule R184. -/
  | cmp (o : Opnd8)
  /-- CPX, rule R185. -/
  | cpx (o : Opnd8)
  /-- CPHX, rule R186. -/
  | cphx (o : Opnd16)
  /-- AIS, rule R187. -/
  | ais (ii : Byte)
  /-- AIX, rule R188. -/
  | aix (ii : Byte)
  /-- INC of a memory byte, rule R189. -/
  | inc (e : Ea)
  /-- INCA, rule R189. -/
  | inca
  /-- INCX, rule R189. -/
  | incx
  /-- DEC of a memory byte, rule R190. -/
  | dec (e : Ea)
  /-- DECA, rule R190. -/
  | deca
  /-- DECX, rule R190. -/
  | decx
  /-- NEG of a memory byte, rule R191. -/
  | neg (e : Ea)
  /-- NEGA, rule R191. -/
  | nega
  /-- NEGX, rule R191. -/
  | negx
  /-- TST of a memory byte, rule R192. -/
  | tst (e : Ea)
  /-- TSTA, rule R192. -/
  | tsta
  /-- TSTX, rule R192. -/
  | tstx
  /-- MUL, rule R193. -/
  | mul
  /-- DIV, rule R194. -/
  | div
  /-- DAA, rule R195. -/
  | daa
  -- logic, shifts, bits (43_logic_shift_bit.md)
  /-- AND, rule R220. -/
  | and (o : Opnd8)
  /-- ORA, rule R221. -/
  | ora (o : Opnd8)
  /-- EOR, rule R222. -/
  | eor (o : Opnd8)
  /-- BIT, rule R223. -/
  | bit (o : Opnd8)
  /-- COM of a memory byte, rule R224. -/
  | com (e : Ea)
  /-- COMA, rule R224. -/
  | coma
  /-- COMX, rule R224. -/
  | comx
  /-- NSA, rule R225. -/
  | nsa
  /-- LSL of a memory byte, rule R226. -/
  | lsl (e : Ea)
  /-- LSLA, rule R226. -/
  | lsla
  /-- LSLX, rule R226. -/
  | lslx
  /-- ASL of a memory byte: second name of LSL, rules R226, R96. -/
  | asl (e : Ea)
  /-- ASLA: second name of LSLA, rules R226, R96. -/
  | asla
  /-- ASLX: second name of LSLX, rules R226, R96. -/
  | aslx
  /-- ASR of a memory byte, rule R227. -/
  | asr (e : Ea)
  /-- ASRA, rule R227. -/
  | asra
  /-- ASRX, rule R227. -/
  | asrx
  /-- LSR of a memory byte, rule R228. -/
  | lsr (e : Ea)
  /-- LSRA, rule R228. -/
  | lsra
  /-- LSRX, rule R228. -/
  | lsrx
  /-- ROL of a memory byte, rule R229. -/
  | rol (e : Ea)
  /-- ROLA, rule R229. -/
  | rola
  /-- ROLX, rule R229. -/
  | rolx
  /-- ROR of a memory byte, rule R230. -/
  | ror (e : Ea)
  /-- RORA, rule R230. -/
  | rora
  /-- RORX, rule R230. -/
  | rorx
  /-- BSET, rule R231. -/
  | bset (n : BitVec 3) (dd : Byte)
  /-- BCLR, rule R232. -/
  | bclr (n : BitVec 3) (dd : Byte)
  /-- CLC, rule R233. -/
  | clc
  /-- SEC, rule R234. -/
  | sec
  -- branches, jumps, subroutines (44_control_transfer.md)
  /-- BRA, rule R261. -/
  | bra (rr : Byte)
  /-- BRN, rule R262. -/
  | brn (rr : Byte)
  /-- BHI, rule R263. -/
  | bhi (rr : Byte)
  /-- BLS, rule R264. -/
  | bls (rr : Byte)
  /-- BCC, rule R265. -/
  | bcc (rr : Byte)
  /-- BHS: second name of BCC, rules R265, R96. -/
  | bhs (rr : Byte)
  /-- BCS, rule R266. -/
  | bcs (rr : Byte)
  /-- BLO: second name of BCS, rules R266, R96. -/
  | blo (rr : Byte)
  /-- BNE, rule R267. -/
  | bne (rr : Byte)
  /-- BEQ, rule R268. -/
  | beq (rr : Byte)
  /-- BHCC, rule R269. -/
  | bhcc (rr : Byte)
  /-- BHCS, rule R270. -/
  | bhcs (rr : Byte)
  /-- BPL, rule R271. -/
  | bpl (rr : Byte)
  /-- BMI, rule R272. -/
  | bmi (rr : Byte)
  /-- BMC, rule R273. -/
  | bmc (rr : Byte)
  /-- BMS, rule R274. -/
  | bms (rr : Byte)
  /-- BIL, rule R275. -/
  | bil (rr : Byte)
  /-- BIH, rule R276. -/
  | bih (rr : Byte)
  /-- BGE, rule R277. -/
  | bge (rr : Byte)
  /-- BLT, rule R278. -/
  | blt (rr : Byte)
  /-- BGT, rule R279. -/
  | bgt (rr : Byte)
  /-- BLE, rule R280. -/
  | ble (rr : Byte)
  /-- BRSET, rule R281. -/
  | brset (n : BitVec 3) (dd rr : Byte)
  /-- BRCLR, rule R282. -/
  | brclr (n : BitVec 3) (dd rr : Byte)
  /-- CBEQ (memory forms), rule R283. -/
  | cbeq (o : CbeqOpnd) (rr : Byte)
  /-- CBEQA, rule R283. -/
  | cbeqa (ii rr : Byte)
  /-- CBEQX, rule R283. -/
  | cbeqx (ii rr : Byte)
  /-- DBNZ (memory forms), rule R284. -/
  | dbnz (e : Ea) (rr : Byte)
  /-- DBNZA, rule R284. -/
  | dbnza (rr : Byte)
  /-- DBNZX, rule R284. -/
  | dbnzx (rr : Byte)
  /-- BSR, rule R285. -/
  | bsr (rr : Byte)
  /-- JMP, rule R286. -/
  | jmp (e : Ea)
  /-- JSR, rule R287. -/
  | jsr (e : Ea)
  /-- RTS, rule R288. -/
  | rts
  -- system (45_system.md)
  /-- NOP, rule R310. -/
  | nop
  /-- SEI, rule R311. -/
  | sei
  /-- CLI, rule R312. -/
  | cli
  /-- SWI, rule R313. -/
  | swi
  /-- RTI, rule R314. -/
  | rti
  /-- WAIT, rule R315. -/
  | wait
  /-- STOP, rule R316. -/
  | stop
deriving DecidableEq, Repr

/-- The first name of an instruction that has two (rule R96): ASL is LSL, BHS is BCC, BLO is BCS. Every other
instruction is its own first name. -/
def Instr.canonical : Instr → Instr
  | .asl e => .lsl e
  | .asla => .lsla
  | .aslx => .lslx
  | .bhs rr => .bcc rr
  | .blo rr => .bcs rr
  | i => i

end Sys2Proof
end

