-- ==== Sys2Proof/WellFormed.lean ====
section
/-!
DEFINITION. Which terms of `Instr` are instructions of the M68HC08: the addressing forms that spec/30_encoding.md rule R83
gives each mnemonic. The other operand types (`Opnd8`, `Opnd16`, `MovOpnd`, `CbeqOpnd`, the 3-bit bit number) hold exactly the
forms their mnemonics have, so nothing is left to check there. Then the memory operands of an instruction, and which
instructions have the EXT form (rule R97).
-/

namespace Sys2Proof

/-- The memory forms of the read-modify-write group, of TST, CLR and DBNZ: DIR, IX1, IX and SP1; there is no EXT form (rules
R83, R97). -/
def Ea.isRmwForm : Ea → Bool
  | .dir _ => true
  | .ix1 _ => true
  | .ix => true
  | .sp1 _ => true
  | .ext _ => false
  | .ix2 _ => false
  | .sp2 _ => false

/-- The forms of JMP and JSR: DIR, EXT, IX2, IX1 and IX; there is no stack-pointer form (rules R83, R286, R287). -/
def Ea.isJumpForm : Ea → Bool
  | .dir _ => true
  | .ext _ => true
  | .ix2 _ => true
  | .ix1 _ => true
  | .ix => true
  | .sp2 _ => false
  | .sp1 _ => false

/-- The instruction has an encoding (rule R83). -/
def Instr.wellFormed : Instr → Bool
  | .clr e | .inc e | .dec e | .neg e | .tst e | .com e | .lsl e | .asl e | .asr e | .lsr e | .rol e | .ror e => e.isRmwForm
  | .dbnz e _ => e.isRmwForm
  | .jmp e | .jsr e => e.isJumpForm
  | .lda _ | .ldx _ | .ldhx _ | .sta _ | .stx _ | .sthx _ | .mov _ | .clra | .clrx | .clrh | .tax | .txa | .tap
  | .tpa | .tsx | .txs | .rsp | .psha | .pshh | .pshx | .pula | .pulh | .pulx | .adc _ | .add _ | .sub _
  | .sbc _ | .cmp _ | .cpx _ | .cphx _ | .ais _ | .aix _ | .inca | .incx | .deca | .decx | .nega | .negx
  | .tsta | .tstx | .mul | .div | .daa | .and _ | .ora _ | .eor _ | .bit _ | .coma | .comx | .nsa | .lsla
  | .lslx | .asla | .aslx | .asra | .asrx | .lsra | .lsrx | .rola | .rolx | .rora | .rorx | .bset _ _
  | .bclr _ _ | .clc | .sec | .bra _ | .brn _ | .bhi _ | .bls _ | .bcc _ | .bhs _ | .bcs _ | .blo _ | .bne _
  | .beq _ | .bhcc _ | .bhcs _ | .bpl _ | .bmi _ | .bmc _ | .bms _ | .bil _ | .bih _ | .bge _ | .blt _ | .bgt _
  | .ble _ | .brset _ _ _ | .brclr _ _ _ | .cbeq _ _ | .cbeqa _ _ | .cbeqx _ _ | .dbnza _ | .dbnzx _ | .bsr _
  | .rts | .nop | .sei | .cli | .swi | .rti | .wait | .stop => true

/-- The address is taken from H:X or from SP: the indexed and the stack-pointer modes (rules R114 to R118). -/
def Ea.isPointerForm : Ea → Bool
  | .dir _ => false
  | .ext _ => false
  | .ix2 _ => true
  | .ix1 _ => true
  | .ix => true
  | .sp2 _ => true
  | .sp1 _ => true

/-- The mnemonic has an EXT form: the general group, STA, STX, JMP and JSR (rule R83). Of the others, the ones with a memory
operand are those that rule R97 lists: the read-modify-write group, TST, CLR, BSET, BCLR, BRSET, BRCLR, CBEQ, DBNZ, MOV, LDHX,
STHX and CPHX. -/
def Instr.hasExtendedForm : Instr → Bool
  | .lda _ | .ldx _ | .sta _ | .stx _ | .adc _ | .add _ | .sub _ | .sbc _ | .cmp _ | .cpx _ | .and _ | .ora _ | .eor _ | .bit _
  | .jmp _ | .jsr _ => true
  | .clr _ | .inc _ | .dec _ | .neg _ | .tst _ | .com _ | .lsl _ | .asl _ | .asr _ | .lsr _ | .rol _ | .ror _ | .bset _ _ | .bclr _ _
  | .brset _ _ _ | .brclr _ _ _ | .cbeq _ _ | .dbnz _ _ | .mov _ | .ldhx _ | .sthx _ | .cphx _ => false
  | .clra | .clrx | .clrh | .tax | .txa | .tap | .tpa | .tsx | .txs | .rsp | .psha | .pshh | .pshx | .pula | .pulh | .pulx
  | .ais _ | .aix _ | .inca | .incx | .deca | .decx | .nega | .negx | .tsta | .tstx | .mul | .div | .daa | .coma | .comx | .nsa
  | .lsla | .lslx | .asla | .aslx | .asra | .asrx | .lsra | .lsrx | .rola | .rolx | .rora | .rorx | .clc | .sec | .bra _ | .brn _
  | .bhi _ | .bls _ | .bcc _ | .bhs _ | .bcs _ | .blo _ | .bne _ | .beq _ | .bhcc _ | .bhcs _ | .bpl _ | .bmi _ | .bmc _ | .bms _
  | .bil _ | .bih _ | .bge _ | .blt _ | .bgt _ | .ble _ | .cbeqa _ _ | .cbeqx _ _ | .dbnza _ | .dbnzx _ | .bsr _ | .rts | .nop
  | .sei | .cli | .swi | .rti | .wait | .stop => false

/-- The memory operand of an `Opnd8`. -/
def Opnd8.memoryOperands : Opnd8 → List Ea
  | .imm _ => []
  | .mem e => [e]

/-- The memory operand of an `Opnd16`. -/
def Opnd16.memoryOperands : Opnd16 → List Ea
  | .imm _ => []
  | .dir dd => [.dir dd]

/-- The memory operands of MOV, the source first: DIR, or IX for the `X+` side (rule R128). -/
def MovOpnd.memoryOperands : MovOpnd → List Ea
  | .dd src dst => [.dir src, .dir dst]
  | .dixPlus src => [.dir src, .ix]
  | .imd _ dst => [.dir dst]
  | .ixPlusD dst => [.ix, .dir dst]

/-- CBEQ's memory operand; IX1+ and IX+ take the address of IX1 and IX (rules R117, R119). -/
def CbeqOpnd.memoryOperand : CbeqOpnd → Ea
  | .dir dd => .dir dd
  | .ix1Plus ff => .ix1 ff
  | .ixPlus => .ix
  | .sp1 ff => .sp1 ff

/-- The memory operands that an instruction's operand bytes name, JMP's and JSR's target among them; what goes through the
stack is not one. -/
def Instr.memoryOperands : Instr → List Ea
  | .lda o | .ldx o | .adc o | .add o | .sub o | .sbc o | .cmp o | .cpx o | .and o | .ora o | .eor o | .bit o => o.memoryOperands
  | .sta e | .stx e | .clr e | .inc e | .dec e | .neg e | .tst e | .com e | .lsl e | .asl e | .asr e | .lsr e | .rol e | .ror e
  | .jmp e | .jsr e => [e]
  | .dbnz e _ => [e]
  | .bset _ dd | .bclr _ dd | .brset _ dd _ | .brclr _ dd _ | .sthx dd => [.dir dd]
  | .cbeq o _ => [o.memoryOperand]
  | .mov o => o.memoryOperands
  | .ldhx o | .cphx o => o.memoryOperands
  | .clra | .clrx | .clrh | .tax | .txa | .tap | .tpa | .tsx | .txs | .rsp | .psha | .pshh | .pshx | .pula | .pulh | .pulx
  | .ais _ | .aix _ | .inca | .incx | .deca | .decx | .nega | .negx | .tsta | .tstx | .mul | .div | .daa | .coma | .comx | .nsa
  | .lsla | .lslx | .asla | .aslx | .asra | .asrx | .lsra | .lsrx | .rola | .rolx | .rora | .rorx | .clc | .sec | .bra _ | .brn _
  | .bhi _ | .bls _ | .bcc _ | .bhs _ | .bcs _ | .blo _ | .bne _ | .beq _ | .bhcc _ | .bhcs _ | .bpl _ | .bmi _ | .bmc _ | .bms _
  | .bil _ | .bih _ | .bge _ | .blt _ | .bgt _ | .ble _ | .cbeqa _ _ | .cbeqx _ _ | .dbnza _ | .dbnzx _ | .bsr _ | .rts | .nop
  | .sei | .cli | .swi | .rti | .wait | .stop => []

end Sys2Proof
end

