-- ==== Sys2Proof/Decode.lean ====
section
/-!
DEFINITION. The decoder, built on the two opcode maps of spec/30_encoding.md rule R85, and the encoder, written from the
Encoding line of each instruction's rule (files 41 to 45) and the formats of rule R83.
-/

namespace Sys2Proof

open Sys2Proof.Machine (hiByte loByte joinBytes)

/-- What the decoder answers: an instruction and its length in bytes, or an unassigned encoding by its opcode
(`IllegalOpcode`'s argument, rule R81: the one byte, or `$9E` and the byte after it). -/
inductive Decoded where
  | ok (i : Instr) (length : Nat)
  | unassigned (op : Word)
deriving DecidableEq, Repr

/-- A cell of the opcode map: the operand bytes an opcode takes (0, 1 or 2) and the instruction they give. -/
inductive OpCell where
  | op0 (i : Instr)
  | op1 (f : Byte → Instr)
  | op2 (f : Byte → Byte → Instr)

/-- How many operand bytes follow the opcode byte. -/
def OpCell.operands : OpCell → Nat
  | .op0 _ => 0
  | .op1 _ => 1
  | .op2 _ => 2

/-- The instruction a cell gives for the two bytes after the opcode (unused ones are ignored). -/
def OpCell.instr : OpCell → Byte → Byte → Instr
  | .op0 i, _, _ => i
  | .op1 f, p, _ => f p
  | .op2 f, p, q => f p q

/-- The cell of a form with one effective address: how each mode's operand bytes follow the opcode (rule R83). -/
def dirCell (k : Ea → Instr) : OpCell := .op1 fun dd => k (.dir dd)
/-- EXT: `hh ll` (rule R83). -/
def extCell (k : Ea → Instr) : OpCell := .op2 fun hh ll => k (.ext (joinBytes hh ll))
/-- IX2: `ee ff` (rule R83). -/
def ix2Cell (k : Ea → Instr) : OpCell := .op2 fun ee ff => k (.ix2 (joinBytes ee ff))
/-- IX1: `ff` (rule R83). -/
def ix1Cell (k : Ea → Instr) : OpCell := .op1 fun ff => k (.ix1 ff)
/-- IX: no operand byte (rule R83). -/
def ixCell (k : Ea → Instr) : OpCell := .op0 (k .ix)
/-- SP2: `ee ff` after the page-2 opcode (rule R83). -/
def sp2Cell (k : Ea → Instr) : OpCell := .op2 fun ee ff => k (.sp2 (joinBytes ee ff))
/-- SP1: `ff` after the page-2 opcode (rule R83). -/
def sp1Cell (k : Ea → Instr) : OpCell := .op1 fun ff => k (.sp1 ff)

/-- The eight bit numbers. -/
def bitNumbers : List (BitVec 3) := [0, 1, 2, 3, 4, 5, 6, 7]

/-- Column $0_: BRSET n at row 2n, BRCLR n at row 2n + 1 (rules R85, R86). -/
def column0 : List (Option OpCell) :=
  bitNumbers.flatMap fun n => [some (.op2 (.brset n)), some (.op2 (.brclr n))]

/-- Column $1_: BSET n at row 2n, BCLR n at row 2n + 1 (rules R85, R86). -/
def column1 : List (Option OpCell) :=
  bitNumbers.flatMap fun n => [some (.op1 (.bset n)), some (.op1 (.bclr n))]

/-- Column $2_: the relative branches (rule R85). -/
def column2 : List (Option OpCell) :=
  [ some (.op1 .bra), some (.op1 .brn), some (.op1 .bhi), some (.op1 .bls),
    some (.op1 .bcc), some (.op1 .bcs), some (.op1 .bne), some (.op1 .beq),
    some (.op1 .bhcc), some (.op1 .bhcs), some (.op1 .bpl), some (.op1 .bmi),
    some (.op1 .bmc), some (.op1 .bms), some (.op1 .bil), some (.op1 .bih) ]

/-- Column $3_: the read-modify-write group, direct (rule R85). -/
def column3 : List (Option OpCell) :=
  [ some (dirCell .neg), some (.op2 fun dd rr => .cbeq (.dir dd) rr), none, some (dirCell .com),
    some (dirCell .lsr), some (.op1 .sthx), some (dirCell .ror), some (dirCell .asr),
    some (dirCell .lsl), some (dirCell .rol), some (dirCell .dec), some (.op2 fun dd rr => .dbnz (.dir dd) rr),
    some (dirCell .inc), some (dirCell .tst), none, some (dirCell .clr) ]

/-- Column $4_: the read-modify-write group on A (rule R85). -/
def column4 : List (Option OpCell) :=
  [ some (.op0 .nega), some (.op2 .cbeqa), some (.op0 .mul), some (.op0 .coma),
    some (.op0 .lsra), some (.op2 fun jj kk => .ldhx (.imm (joinBytes jj kk))), some (.op0 .rora), some (.op0 .asra),
    some (.op0 .lsla), some (.op0 .rola), some (.op0 .deca), some (.op1 .dbnza),
    some (.op0 .inca), some (.op0 .tsta), some (.op2 fun src dst => .mov (.dd src dst)), some (.op0 .clra) ]

/-- Column $5_: the read-modify-write group on X (rule R85). -/
def column5 : List (Option OpCell) :=
  [ some (.op0 .negx), some (.op2 .cbeqx), some (.op0 .div), some (.op0 .comx),
    some (.op0 .lsrx), some (.op1 fun dd => .ldhx (.dir dd)), some (.op0 .rorx), some (.op0 .asrx),
    some (.op0 .lslx), some (.op0 .rolx), some (.op0 .decx), some (.op1 .dbnzx),
    some (.op0 .incx), some (.op0 .tstx), some (.op1 fun dd => .mov (.dixPlus dd)), some (.op0 .clrx) ]

/-- Column $6_: the read-modify-write group, indexed with an 8-bit offset (rule R85). -/
def column6 : List (Option OpCell) :=
  [ some (ix1Cell .neg), some (.op2 fun ff rr => .cbeq (.ix1Plus ff) rr), some (.op0 .nsa), some (ix1Cell .com),
    some (ix1Cell .lsr), some (.op2 fun jj kk => .cphx (.imm (joinBytes jj kk))), some (ix1Cell .ror), some (ix1Cell .asr),
    some (ix1Cell .lsl), some (ix1Cell .rol), some (ix1Cell .dec), some (.op2 fun ff rr => .dbnz (.ix1 ff) rr),
    some (ix1Cell .inc), some (ix1Cell .tst), some (.op2 fun ii dd => .mov (.imd ii dd)), some (ix1Cell .clr) ]

/-- Column $7_: the read-modify-write group, indexed without offset (rule R85). -/
def column7 : List (Option OpCell) :=
  [ some (ixCell .neg), some (.op1 fun rr => .cbeq .ixPlus rr), some (.op0 .daa), some (ixCell .com),
    some (ixCell .lsr), some (.op1 fun dd => .cphx (.dir dd)), some (ixCell .ror), some (ixCell .asr),
    some (ixCell .lsl), some (ixCell .rol), some (ixCell .dec), some (.op1 fun rr => .dbnz .ix rr),
    some (ixCell .inc), some (ixCell .tst), some (.op1 fun dd => .mov (.ixPlusD dd)), some (ixCell .clr) ]

/-- Column $8_ (rule R85). -/
def column8 : List (Option OpCell) :=
  [ some (.op0 .rti), some (.op0 .rts), none, some (.op0 .swi),
    some (.op0 .tap), some (.op0 .tpa), some (.op0 .pula), some (.op0 .psha),
    some (.op0 .pulx), some (.op0 .pshx), some (.op0 .pulh), some (.op0 .pshh),
    some (.op0 .clrh), none, some (.op0 .stop), some (.op0 .wait) ]

/-- Column $9_; row E is the pre-byte $9E, which is not an instruction (rules R84, R85). -/
def column9 : List (Option OpCell) :=
  [ some (.op1 .bge), some (.op1 .blt), some (.op1 .bgt), some (.op1 .ble),
    some (.op0 .txs), some (.op0 .tsx), none, some (.op0 .tax),
    some (.op0 .clc), some (.op0 .sec), some (.op0 .cli), some (.op0 .sei),
    some (.op0 .rsp), some (.op0 .nop), none, some (.op0 .txa) ]

/-- A cell whose operand byte is an immediate of the general group. -/
def immCell (k : Opnd8 → Instr) : OpCell := .op1 fun ii => k (.imm ii)

/-- Column $A_: the general group, immediate (rule R85). -/
def columnA : List (Option OpCell) :=
  [ some (immCell .sub), some (immCell .cmp), some (immCell .sbc), some (immCell .cpx),
    some (immCell .and), some (immCell .bit), some (immCell .lda), some (.op1 .ais),
    some (immCell .eor), some (immCell .adc), some (immCell .ora), some (immCell .add),
    none, some (.op1 .bsr), some (immCell .ldx), some (.op1 .aix) ]

/-- A column of the general group in one mode `g`: $B_ to $F_ on page 1, $D_ and $E_ on page 2 (rule R85). `j` is the
cell of rows C and D, which page 2 leaves unassigned. -/
def generalColumn (g : (Ea → Instr) → OpCell) (j : (Ea → Instr) → Option OpCell) : List (Option OpCell) :=
  [ some (g fun e => .sub (.mem e)), some (g fun e => .cmp (.mem e)), some (g fun e => .sbc (.mem e)), some (g fun e => .cpx (.mem e)),
    some (g fun e => .and (.mem e)), some (g fun e => .bit (.mem e)), some (g fun e => .lda (.mem e)), some (g .sta),
    some (g fun e => .eor (.mem e)), some (g fun e => .adc (.mem e)), some (g fun e => .ora (.mem e)), some (g fun e => .add (.mem e)),
    j .jmp, j .jsr, some (g fun e => .ldx (.mem e)), some (g .stx) ]

/-- The page-1 opcode map by columns (rule R85). -/
def page1Columns : List (List (Option OpCell)) :=
  [ column0, column1, column2, column3, column4, column5, column6, column7, column8, column9, columnA,
    generalColumn dirCell fun k => some (dirCell k), generalColumn extCell fun k => some (extCell k),
    generalColumn ix2Cell fun k => some (ix2Cell k), generalColumn ix1Cell fun k => some (ix1Cell k),
    generalColumn ixCell fun k => some (ixCell k) ]

/-- Column 9E 6_: the read-modify-write group, SP1 (rule R85). -/
def column9E6 : List (Option OpCell) :=
  [ some (sp1Cell .neg), some (.op2 fun ff rr => .cbeq (.sp1 ff) rr), none, some (sp1Cell .com),
    some (sp1Cell .lsr), none, some (sp1Cell .ror), some (sp1Cell .asr),
    some (sp1Cell .lsl), some (sp1Cell .rol), some (sp1Cell .dec), some (.op2 fun ff rr => .dbnz (.sp1 ff) rr),
    some (sp1Cell .inc), some (sp1Cell .tst), none, some (sp1Cell .clr) ]

/-- The page-2 opcode map by columns: only columns 6_, D_ and E_ hold instructions (rule R85). -/
def page2Columns : List (List (Option OpCell)) :=
  [ [], [], [], [], [], [], column9E6, [], [], [], [], [], [],
    generalColumn sp2Cell fun _ => none, generalColumn sp1Cell fun _ => none, [] ]

/-- The cell of an opcode byte: column = high nibble, row = low nibble (rule R85). -/
def lookupCell (columns : List (List (Option OpCell))) (op : Byte) : Option OpCell :=
  (columns.getD (op.toNat / 16) []).getD (op.toNat % 16) none

/-- Page 1 of the map. -/
def page1 (op : Byte) : Option OpCell := lookupCell page1Columns op

/-- Page 2 of the map, for the byte after $9E. -/
def page2 (op : Byte) : Option OpCell := lookupCell page2Columns op

/-- The pre-byte that selects page 2 (rule R84). -/
def preByte : Byte := 0x9E

/-- The decode procedure of rule R81 on the bytes at PC, PC + 1, PC + 2 and PC + 3. Bytes past the instruction's own
length are ignored. -/
def decode (b0 b1 b2 b3 : Byte) : Decoded :=
  if b0 = preByte then
    match page2 b1 with
    | some c => .ok (c.instr b2 b3) (2 + c.operands)
    | none => .unassigned (joinBytes preByte b1)
  else
    match page1 b0 with
    | some c => .ok (c.instr b1 b2) (1 + c.operands)
    | none => .unassigned (b0.setWidth 16)

/-- `decode` on a list of bytes, the first at the lowest address; a byte the list does not hold is 0. -/
def decodeBytes (bs : List Byte) : Decoded :=
  decode (bs.getD 0 0) (bs.getD 1 0) (bs.getD 2 0) (bs.getD 3 0)

/-! ### The encoder -/

/-- The memory forms of the general group at opcode row `low` (rules R140 to R144, R180 to R185, R220 to R223):
DIR `B`, EXT `C`, IX2 `D`, IX1 `E`, IX `F`, and on page 2 SP2 `9E D`, SP1 `9E E`. -/
def encodeEa (low : Byte) : Ea → List Byte
  | .dir dd => [0xB0 + low, dd]
  | .ext a => [0xC0 + low, hiByte a, loByte a]
  | .ix2 a => [0xD0 + low, hiByte a, loByte a]
  | .ix1 ff => [0xE0 + low, ff]
  | .ix => [0xF0 + low]
  | .sp2 a => [preByte, 0xD0 + low, hiByte a, loByte a]
  | .sp1 ff => [preByte, 0xE0 + low, ff]

/-- The general operand forms: immediate `A`, else as `encodeEa`. -/
def encodeOpnd8 (low : Byte) : Opnd8 → List Byte
  | .imm ii => [0xA0 + low, ii]
  | .mem e => encodeEa low e

/-- The memory forms of the read-modify-write group at opcode row `low` (rules R147, R189 to R192, R224, R226 to R230):
DIR `3`, IX1 `6`, IX `7`, SP1 `9E 6`. A form the group does not have has no encoding. -/
def encodeRmw (low : Byte) : Ea → List Byte
  | .dir dd => [0x30 + low, dd]
  | .ix1 ff => [0x60 + low, ff]
  | .ix => [0x70 + low]
  | .sp1 ff => [preByte, 0x60 + low, ff]
  | .ext _ | .ix2 _ | .sp2 _ => []

/-- DBNZ: as the read-modify-write group at row B, then `rr` (rule R284). -/
def encodeDbnz (rr : Byte) : Ea → List Byte
  | .dir dd => [0x3B, dd, rr]
  | .ix1 ff => [0x6B, ff, rr]
  | .ix => [0x7B, rr]
  | .sp1 ff => [preByte, 0x6B, ff, rr]
  | .ext _ | .ix2 _ | .sp2 _ => []

/-- The forms of JMP and JSR at opcode row `low` (rules R286, R287); there is no stack-pointer form. -/
def encodeJump (low : Byte) : Ea → List Byte
  | .dir dd => [0xB0 + low, dd]
  | .ext a => [0xC0 + low, hiByte a, loByte a]
  | .ix2 a => [0xD0 + low, hiByte a, loByte a]
  | .ix1 ff => [0xE0 + low, ff]
  | .ix => [0xF0 + low]
  | .sp2 _ | .sp1 _ => []

/-- MOV (rule R146). -/
def encodeMov : MovOpnd → List Byte
  | .dd src dst => [0x4E, src, dst]
  | .dixPlus src => [0x5E, src]
  | .imd ii dst => [0x6E, ii, dst]
  | .ixPlusD dst => [0x7E, dst]

/-- CBEQ, the memory forms (rule R283). -/
def encodeCbeq (rr : Byte) : CbeqOpnd → List Byte
  | .dir dd => [0x31, dd, rr]
  | .ix1Plus ff => [0x61, ff, rr]
  | .ixPlus => [0x71, rr]
  | .sp1 ff => [preByte, 0x61, ff, rr]

/-- The opcode of a bit instruction: its base opcode plus 2n (rule R86). -/
def bitOpcode (base : Byte) (n : BitVec 3) : Byte := base + (n.setWidth 8 <<< 1)

/-- The bytes of an instruction, the first at the lowest address; a term that is not well-formed has none. -/
def encode : Instr → List Byte
  | .lda o => encodeOpnd8 0x06 o
  | .ldx o => encodeOpnd8 0x0E o
  | .ldhx (.imm v) => [0x45, hiByte v, loByte v]
  | .ldhx (.dir dd) => [0x55, dd]
  | .sta e => encodeEa 0x07 e
  | .stx e => encodeEa 0x0F e
  | .sthx dd => [0x35, dd]
  | .mov o => encodeMov o
  | .clr e => encodeRmw 0x0F e
  | .clra => [0x4F]
  | .clrx => [0x5F]
  | .clrh => [0x8C]
  | .tax => [0x97]
  | .txa => [0x9F]
  | .tap => [0x84]
  | .tpa => [0x85]
  | .tsx => [0x95]
  | .txs => [0x94]
  | .rsp => [0x9C]
  | .psha => [0x87]
  | .pshh => [0x8B]
  | .pshx => [0x89]
  | .pula => [0x86]
  | .pulh => [0x8A]
  | .pulx => [0x88]
  | .adc o => encodeOpnd8 0x09 o
  | .add o => encodeOpnd8 0x0B o
  | .sub o => encodeOpnd8 0x00 o
  | .sbc o => encodeOpnd8 0x02 o
  | .cmp o => encodeOpnd8 0x01 o
  | .cpx o => encodeOpnd8 0x03 o
  | .cphx (.imm v) => [0x65, hiByte v, loByte v]
  | .cphx (.dir dd) => [0x75, dd]
  | .ais ii => [0xA7, ii]
  | .aix ii => [0xAF, ii]
  | .inc e => encodeRmw 0x0C e
  | .inca => [0x4C]
  | .incx => [0x5C]
  | .dec e => encodeRmw 0x0A e
  | .deca => [0x4A]
  | .decx => [0x5A]
  | .neg e => encodeRmw 0x00 e
  | .nega => [0x40]
  | .negx => [0x50]
  | .tst e => encodeRmw 0x0D e
  | .tsta => [0x4D]
  | .tstx => [0x5D]
  | .mul => [0x42]
  | .div => [0x52]
  | .daa => [0x72]
  | .and o => encodeOpnd8 0x04 o
  | .ora o => encodeOpnd8 0x0A o
  | .eor o => encodeOpnd8 0x08 o
  | .bit o => encodeOpnd8 0x05 o
  | .com e => encodeRmw 0x03 e
  | .coma => [0x43]
  | .comx => [0x53]
  | .nsa => [0x62]
  | .lsl e | .asl e => encodeRmw 0x08 e
  | .lsla | .asla => [0x48]
  | .lslx | .aslx => [0x58]
  | .asr e => encodeRmw 0x07 e
  | .asra => [0x47]
  | .asrx => [0x57]
  | .lsr e => encodeRmw 0x04 e
  | .lsra => [0x44]
  | .lsrx => [0x54]
  | .rol e => encodeRmw 0x09 e
  | .rola => [0x49]
  | .rolx => [0x59]
  | .ror e => encodeRmw 0x06 e
  | .rora => [0x46]
  | .rorx => [0x56]
  | .bset n dd => [bitOpcode 0x10 n, dd]
  | .bclr n dd => [bitOpcode 0x11 n, dd]
  | .clc => [0x98]
  | .sec => [0x99]
  | .bra rr => [0x20, rr]
  | .brn rr => [0x21, rr]
  | .bhi rr => [0x22, rr]
  | .bls rr => [0x23, rr]
  | .bcc rr | .bhs rr => [0x24, rr]
  | .bcs rr | .blo rr => [0x25, rr]
  | .bne rr => [0x26, rr]
  | .beq rr => [0x27, rr]
  | .bhcc rr => [0x28, rr]
  | .bhcs rr => [0x29, rr]
  | .bpl rr => [0x2A, rr]
  | .bmi rr => [0x2B, rr]
  | .bmc rr => [0x2C, rr]
  | .bms rr => [0x2D, rr]
  | .bil rr => [0x2E, rr]
  | .bih rr => [0x2F, rr]
  | .bge rr => [0x90, rr]
  | .blt rr => [0x91, rr]
  | .bgt rr => [0x92, rr]
  | .ble rr => [0x93, rr]
  | .brset n dd rr => [bitOpcode 0x00 n, dd, rr]
  | .brclr n dd rr => [bitOpcode 0x01 n, dd, rr]
  | .cbeq o rr => encodeCbeq rr o
  | .cbeqa ii rr => [0x41, ii, rr]
  | .cbeqx ii rr => [0x51, ii, rr]
  | .dbnz e rr => encodeDbnz rr e
  | .dbnza rr => [0x4B, rr]
  | .dbnzx rr => [0x5B, rr]
  | .bsr rr => [0xAD, rr]
  | .jmp e => encodeJump 0x0C e
  | .jsr e => encodeJump 0x0D e
  | .rts => [0x81]
  | .nop => [0x9D]
  | .sei => [0x9B]
  | .cli => [0x9A]
  | .swi => [0x83]
  | .rti => [0x80]
  | .wait => [0x8F]
  | .stop => [0x8E]

/-! ### The opcode table's words -/

/-- The bytes of an instruction given as a number of `nbits` bits of spec/opcode_table.json, the first byte at the lowest
address, and zeros above. Bits 7..0 are the first byte, bits 15..8 the second, and so on. The table's own 16-bit rows
(the page-2 opcodes, "match": "0x9E60" and so on) number the pre-byte as bits 15..8 although their "bytes" column and
rule R80 put it first: such a number is laid out pre-byte first (notes/assumptions/20.md). -/
def tableBytes (nbits w : Nat) : List Byte :=
  let v : BitVec 32 := BitVec.ofNat 32 (w % 2 ^ nbits)
  let b0 := v.extractLsb' 0 8
  let b1 := v.extractLsb' 8 8
  if nbits = 16 ∧ b1 = preByte ∧ b0 ≠ preByte then [b1, b0, 0, 0]
  else [b0, b1, v.extractLsb' 16 8, v.extractLsb' 24 8]

/-- The instruction the decoder reads from a word of spec/opcode_table.json, `none` where the encoding is unassigned. -/
def decodeTableWord (nbits w : Nat) : Option Instr :=
  match decodeBytes (tableBytes nbits w) with
  | .ok i _ => some i
  | .unassigned _ => none

end Sys2Proof
end

