-- ==== Sys2Proof/Machine/Cycles.lean ====
section
/-!
DEFINITION. The Cycles column (spec/70_reset_and_hazards.md rules R377, R378): bus cycles per encoding, constants that do
not depend on operand values or on whether a branch is taken. Timing only: nothing but the counter `State.cycles` uses
them. A form that has no encoding has no count; the numbers given for it here are never used.
-/

namespace Sys2Proof.Machine

/-- SUB, LDA and the others of the general group, STA and STX in memory (rule R377). -/
def generalCycles : Ea → Nat
  | .dir _ => 3
  | .ext _ => 4
  | .ix2 _ => 4
  | .ix1 _ => 3
  | .ix => 2
  | .sp2 _ => 5
  | .sp1 _ => 4

/-- The general group with its immediate form (rule R377). -/
def opnd8Cycles : Opnd8 → Nat
  | .imm _ => 2
  | .mem e => generalCycles e

/-- LDHX and CPHX (rule R377). -/
def opnd16Cycles : Opnd16 → Nat
  | .imm _ => 3
  | .dir _ => 4

/-- The read-modify-write group in memory (rule R377). -/
def rmwCycles : Ea → Nat
  | .ix => 3
  | .sp1 _ => 5
  | .dir _ | .ix1 _ | .ext _ | .ix2 _ | .sp2 _ => 4

/-- CLR and TST in memory: one less than the read-modify-write group (rule R377). -/
def clrTstCycles : Ea → Nat
  | .ix => 2
  | .sp1 _ => 4
  | .dir _ | .ix1 _ | .ext _ | .ix2 _ | .sp2 _ => 3

/-- DBNZ in memory (rule R377). -/
def dbnzCycles : Ea → Nat
  | .ix => 4
  | .sp1 _ => 6
  | .dir _ | .ix1 _ | .ext _ | .ix2 _ | .sp2 _ => 5

/-- JMP; `JMP ,X` is printed with 3 (rules R377, R378). -/
def jmpCycles : Ea → Nat
  | .dir _ => 2
  | .ix2 _ => 4
  | .ext _ | .ix1 _ | .ix | .sp2 _ | .sp1 _ => 3

/-- JSR (rule R377). -/
def jsrCycles : Ea → Nat
  | .dir _ => 4
  | .ix2 _ => 6
  | .ix => 4
  | .ext _ | .ix1 _ | .sp2 _ | .sp1 _ => 5

/-- MOV (rule R377). -/
def movCycles : MovOpnd → Nat
  | .dd _ _ => 5
  | .dixPlus _ => 4
  | .imd _ _ => 4
  | .ixPlusD _ => 4

/-- CBEQ in memory (rule R377). -/
def cbeqCycles : CbeqOpnd → Nat
  | .dir _ => 5
  | .ix1Plus _ => 5
  | .ixPlus => 4
  | .sp1 _ => 6

/-- The bus cycles of an instruction (rule R377). -/
def instrCycles : Instr → Nat
  | .adc o | .add o | .and o | .bit o | .cmp o | .cpx o | .eor o | .lda o | .ldx o | .ora o | .sbc o | .sub o => opnd8Cycles o
  | .sta e | .stx e => generalCycles e
  | .lsl e | .asl e | .asr e | .com e | .dec e | .inc e | .lsr e | .neg e | .rol e | .ror e => rmwCycles e
  | .clr e | .tst e => clrTstCycles e
  | .lsla | .lslx | .asla | .aslx | .asra | .asrx | .coma | .comx | .deca | .decx | .inca | .incx => 1
  | .lsra | .lsrx | .nega | .negx | .rola | .rolx | .rora | .rorx | .clra | .clrx | .tsta | .tstx | .clrh => 1
  | .ldhx o | .cphx o => opnd16Cycles o
  | .sthx _ => 4
  | .ais _ | .aix _ => 2
  | .mov o => movCycles o
  | .bset _ _ | .bclr _ _ => 4
  | .brset _ _ _ | .brclr _ _ _ => 5
  | .bra _ | .brn _ | .bhi _ | .bls _ | .bcc _ | .bhs _ | .bcs _ | .blo _ | .bne _ | .beq _ | .bhcc _ | .bhcs _ => 3
  | .bpl _ | .bmi _ | .bmc _ | .bms _ | .bil _ | .bih _ | .bge _ | .blt _ | .bgt _ | .ble _ => 3
  | .bsr _ => 4
  | .cbeq o _ => cbeqCycles o
  | .cbeqa _ _ | .cbeqx _ _ => 4
  | .dbnz e _ => dbnzCycles e
  | .dbnza _ | .dbnzx _ => 3
  | .jmp e => jmpCycles e
  | .jsr e => jsrCycles e
  | .rts => 4
  | .rti => 7
  | .swi => 9
  | .mul => 5
  | .div => 7
  | .nsa => 3
  | .daa | .tap | .psha | .pshh | .pshx | .pula | .pulh | .pulx | .tsx | .txs | .cli | .sei => 2
  | .clc | .sec | .nop | .rsp | .tax | .txa | .tpa | .stop | .wait => 1

end Sys2Proof.Machine
end

