-- ==== Sys2Proof/Config.lean ====
section
/-!
DEFINITION. What spec/00_scope.md rule R6 and spec/92_eei_decisions.md leave to the device or to the implementation
(`Config`, a record every state carries and no step changes), and the values the spec leaves free (`draw8`, `draw1`:
constants without a body, spec/00_scope.md rule R8's `draw(n)`). The parameters' default values are in
Sys2Proof/Machine/Defaults.lean.
-/

namespace Sys2Proof

/-- What an address is, to the CPU (parameter `memmap`, decision D10). -/
inductive MemKind where
  /-- Reads return the last value written. -/
  | ram
  /-- Reads return the image; writes have no effect (rule R60). -/
  | rom
  /-- A device register: its read and write functions are the platform's, `Config.deviceReads` and
  `Config.deviceWrites`. -/
  | device
  /-- No access has a result (decision D11). -/
  | unimplemented
deriving DecidableEq, Repr

/-- A range of addresses of one kind: `base`, `base + 1`, ..., `base + size - 1`. -/
structure Region where
  base : Nat
  size : Nat
  kind : MemKind
deriving DecidableEq, Repr

/-- Parameter `cli_delay` (rule R348, decision D15): whether the instruction after a CLI or TAP that clears I runs before
a pending request is taken. -/
inductive CliDelay where
  | none
  | one
deriving DecidableEq, Repr

/-- Parameter `illegal_opcode` (rule R349, decision D6): what executing an unassigned opcode does. -/
inductive IllegalOpcodeAction where
  | fault
  | reset
deriving DecidableEq, Repr

/-- An entry of the devices' read function (parameter `memmap`, decision D10): where the devices are in state `state`
(`none`: in any state), a read of the device register at `address` gives `value`. -/
structure DeviceRead where
  state : Option Nat
  address : Word
  value : Byte
deriving DecidableEq, Repr

/-- An entry of the devices' write function (parameter `memmap`, decision D10): where the devices are in state `state`
(`none`: in any state), a write of `value` (`none`: of any byte) to the device register at `address` leaves them in state
`next`. -/
structure DeviceWrite where
  state : Option Nat
  address : Word
  value : Option Byte
  next : Nat
deriving DecidableEq, Repr

/-- A row of the DAA adjustment function (parameter `daa_fn`, rule R195, decision D18): for the flags C and H equal to `c`
and `h`, a high nibble of A from `hiMin` to `hiMax` and a low nibble from `loMin` to `loMax`, `add` is added to A and C
becomes `newC`. -/
structure DaaRow where
  c : Bool
  hiMin : Nat
  hiMax : Nat
  h : Bool
  loMin : Nat
  loMax : Nat
  add : Byte
  newC : Bool
deriving DecidableEq, Repr

/-- The parameters of rule R6, as data. The functions among them are held as lists of entries, the first matching entry
counting; where no entry matches the result is a free value. The remaining parameters of the spec's table are elsewhere:
`irq_sources` and `irq_pin` are the input lines of the state, `div_overflow` and `reset_values` are free values, and
`bus_trace` is at its default, no extra access (decision D20, notes/assumptions/19.md). -/
structure Config where
  /-- `memmap`: the first region that holds an address gives its kind; an address in no region is unimplemented. -/
  memmap : List Region
  /-- `cli_delay`. -/
  cliDelay : CliDelay
  /-- `illegal_opcode`. -/
  illegalOpcode : IllegalOpcodeAction
  /-- `ccr65`: what bits 6 and 5 of the CCR read as (decisions D1, D9). -/
  ccr65 : BitVec 2
  /-- `stop_wake`, the one component of `stop_behaviour`: bit n says that IREQ[n] ends the stopped state (decision D14). -/
  stopWake : BitVec 126
  /-- The read function of `memmap`'s device registers. An entry stands for a value that no read changes; a register that
  a read changes, its own or another's, has none, so that every read of it is a free value: decision D20 lets no claim
  depend on how often it is read (notes/assumptions/7.md). -/
  deviceReads : List DeviceRead
  /-- The write function of `memmap`'s device registers. -/
  deviceWrites : List DeviceWrite
  /-- `daa_fn`. -/
  daaFn : List DaaRow
deriving DecidableEq, Repr

/-- `draw(8)`: the byte of the k-th draw. No body: nothing can be proved of its value (rule R8). -/
opaque Config.draw8 : Nat → Byte

/-- `draw(1)`: the bit of the k-th draw. No body: nothing can be proved of its value (rule R8). -/
opaque Config.draw1 : Nat → Bool

/-- What the device register at an address supplies in the step numbered `k`, where the read function has no entry. No body:
nothing can be proved of its value (rules R60, R64). -/
opaque Config.deviceByte : Nat → Word → Byte

/-- The state the devices are in after the step numbered `k` wrote to the device register at an address, where the write
function has no entry, and after a reset. No body: nothing can be proved of its value (rules R60, R344). -/
opaque Config.deviceState : Nat → Word → Nat

end Sys2Proof
end

