-- ==== Sys2Proof/Machine/Defaults.lean ====
section
/-!
DEFINITION. The default values of the parameters of spec/00_scope.md rule R6, as spec/92_eei_decisions.md section 2 lists them.
-/

namespace Sys2Proof

/-- The default of `daa_fn`: rule R195's table, row by row (general knowledge that the spec adopts, decision D18,
notes/assumptions/11.md). -/
def Config.daaTable : List DaaRow :=
  [ { c := false, hiMin := 0x0, hiMax := 0x9, h := false, loMin := 0x0, loMax := 0x9, add := 0x00, newC := false },
    { c := false, hiMin := 0x0, hiMax := 0x8, h := false, loMin := 0xA, loMax := 0xF, add := 0x06, newC := false },
    { c := false, hiMin := 0x0, hiMax := 0x9, h := true, loMin := 0x0, loMax := 0x3, add := 0x06, newC := false },
    { c := false, hiMin := 0xA, hiMax := 0xF, h := false, loMin := 0x0, loMax := 0x9, add := 0x60, newC := true },
    { c := false, hiMin := 0x9, hiMax := 0xF, h := false, loMin := 0xA, loMax := 0xF, add := 0x66, newC := true },
    { c := false, hiMin := 0xA, hiMax := 0xF, h := true, loMin := 0x0, loMax := 0x3, add := 0x66, newC := true },
    { c := true, hiMin := 0x0, hiMax := 0x2, h := false, loMin := 0x0, loMax := 0x9, add := 0x60, newC := true },
    { c := true, hiMin := 0x0, hiMax := 0x2, h := false, loMin := 0xA, loMax := 0xF, add := 0x66, newC := true },
    { c := true, hiMin := 0x0, hiMax := 0x3, h := true, loMin := 0x0, loMax := 0x3, add := 0x66, newC := true } ]

/-- The defaults of spec/92_eei_decisions.md section 2. `memmap` has no default there; this model takes RAM at all 65536
addresses and no device register (DESIGN CHOICE, unsafe, notes/assumptions/3.md). -/
def Config.default : Config where
  memmap := [⟨0, 65536, .ram⟩]
  cliDelay := .one
  illegalOpcode := .fault
  ccr65 := 0b11
  stopWake := 0
  deviceReads := []
  deviceWrites := []
  daaFn := Config.daaTable

end Sys2Proof
end

