-- ==== Sys2Proof/Machine/Memory.lean ====
section
/-!
DEFINITION. The 64-Kbyte memory (spec/10_state.md rule R35, spec/20_memory.md): a list of (address, byte) pairs in one
canonical form, its reads and writes, and the lookup of what an address is in a memory map.
-/

namespace Sys2Proof.Machine

/-- Memory: the bytes that differ from `unwrittenByte`, by strictly rising address. -/
abbrev Memory := List Host.Cell

/-- What an address that the memory does not list reads as. The spec leaves RAM at power-on unspecified
(decision D24): DESIGN CHOICE, unsafe, notes/assumptions/2.md. -/
def unwrittenByte : Byte := 0x00

/-- The byte at address `a`. -/
def Memory.read : Memory → Nat → Byte
  | [], _ => unwrittenByte
  | (k, v) :: m, a => if a = k then v else Memory.read m a

/-- The memory with byte `v` at address `a`, in canonical form again: a byte equal to `unwrittenByte` is not listed. -/
def Memory.write : Memory → Nat → Byte → Memory
  | [], a, v => if v = unwrittenByte then [] else [(a, v)]
  | (k, w) :: m, a, v =>
    if a < k then (if v = unwrittenByte then (k, w) :: m else (a, v) :: (k, w) :: m)
    else if a = k then (if v = unwrittenByte then m else (a, v) :: m)
    else (k, w) :: Memory.write m a v

/-- The canonical form from address `lo` upward: addresses strictly rising and below 65536, no listed byte equal to
`unwrittenByte`. -/
def Memory.wfFrom : Nat → Memory → Bool
  | _, [] => true
  | lo, (k, v) :: m => decide (lo ≤ k) && decide (k < 65536) && decide (v ≠ unwrittenByte) && Memory.wfFrom (k + 1) m

/-- The memory is in canonical form. -/
def Memory.wf (m : Memory) : Bool := Memory.wfFrom 0 m

/-- The 16-bit value at `a`: high byte at `a`, low byte at `(a + 1) mod 65536` (rule R50). -/
def Memory.readWord (m : Memory) (a : Word) : Word := joinBytes (m.read a.toNat) (m.read (a + 1).toNat)

/-- What address `a` is: the kind of the first region that holds it; no region means unimplemented. -/
def kindIn : List Region → Nat → MemKind
  | [], _ => .unimplemented
  | r :: rs, a => if r.base ≤ a ∧ a < r.base + r.size then r.kind else kindIn rs a

end Sys2Proof.Machine
end

