-- ==== Sys2Proof/Machine/State.lean ====
section
/-!
DEFINITION. The state of the machine as plain data (spec/10_state.md rules R20 to R39), the reasons a step can stop, and
the state after reset (spec/70_reset_and_hazards.md rule R371).
-/

namespace Sys2Proof.Machine

/-- Why the machine stops with a fault. -/
inductive Fault where
  /-- The `IllegalOpcode` event of rule R349 with `illegal_opcode = fault`, raised by `runInstruction` for an unassigned
  encoding (the opcode byte, or `$9E` and the byte after it). No register and no memory is changed and PC stays at the
  first byte. Safe: the spec gives no later state. -/
  | illegalOpcode (op : Word)
  /-- An access to an address that the memory map marks unimplemented, raised by `read8`, `write8` and `readCode` (decision
  D11: stuck). Safe: the spec gives no result. -/
  | unimplementedAddress (a : Word)
deriving DecidableEq, Repr

/-- Why the model refuses to go on. -/
inductive Refusal where
  /-- Raised by `exec` alone, for an instruction without a meaning. No arm of this model raises it. Safe. -/
  | notModelled (mnemonic : String)
  /-- A device register where an instruction's byte or a vector in use would lie, raised by `readCode`: decision D10 says
  that such addresses must be ROM or RAM. Safe. -/
  | codeInDevice (a : Word)
  /-- The instruction about to run has a byte that the instruction before it stored, raised by `runInstruction`: the spec
  leaves its effect unspecified and asks to refuse it (rules R63, R380, decision D19). Safe. -/
  | storeIntoNextInstruction (pc : Word)
deriving DecidableEq, Repr

/-- What an operation answers: a value, a fault or a refusal. -/
abbrev Res (α : Type) := Host.Outcome α Fault Refusal

/-- The six flags of the condition code register (rule R26). Bits 6 and 5 hold no state (rule R27). -/
structure Ccr where
  /-- Bit 7, two's complement overflow (rule R28). -/
  v : Bool
  /-- Bit 4, half carry (rule R29). -/
  h : Bool
  /-- Bit 3, interrupt mask (rule R30). -/
  i : Bool
  /-- Bit 2, negative (rule R31). -/
  n : Bool
  /-- Bit 1, zero (rule R32). -/
  z : Bool
  /-- Bit 0, carry/borrow (rule R32). -/
  c : Bool
deriving DecidableEq, Repr

/-- Whether the CPU runs, waits (after WAIT) or is stopped (after STOP) (rule R38). -/
inductive RunState where
  | running
  | waiting
  | stopped
deriving DecidableEq, Repr

/-- The levels of the lines from outside the CPU at one instruction boundary (rules R4, R36, R37, R333, R344). The CPU
never writes them. -/
structure Lines where
  /-- Reset is asserted. -/
  reset : Bool
  /-- Bit n is `pending[n]`: IREQ[n] is asserted, n = 0 to 125. -/
  pending : BitVec 126
  /-- The level of the IRQ pin, which BIH and BIL test. -/
  irqPin : Bool
deriving DecidableEq, Repr

/-- No event from outside: reset not asserted, no request, the IRQ pin high. -/
def Lines.quiet : Lines where
  reset := false
  pending := 0
  irqPin := true

/-- The state of the machine. -/
structure State where
  /-- The accumulator (rule R21). -/
  a : Byte
  /-- The index register's high byte (rule R22). -/
  h : Byte
  /-- The index register's low byte (rule R22). -/
  x : Byte
  /-- The stack pointer (rule R24). -/
  sp : Word
  /-- The program counter (rule R25): between steps the address of the next instruction's first byte; in a meaning
  called by `exec`, the address after the instruction's last byte (rule R81). -/
  pc : Word
  /-- The condition code register's flags (rule R26). -/
  ccr : Ccr
  /-- The 64-Kbyte memory (rule R35). -/
  mem : Memory
  /-- Running, waiting or stopped (rule R38). -/
  runState : RunState
  /-- `cli_shadow` (rule R348): the instruction before was a CLI or TAP that changed I from 1 to 0. -/
  cliShadow : Bool
  /-- The levels of the reset, request and IRQ lines at this boundary (rules R36, R37, R344). -/
  lines : Lines
  /-- The environment's levels at the coming boundaries, the next first; when it is empty the lines keep their levels.
  The model's own form of the parameters `irq_sources` and `irq_pin` (decisions D12, D21, D22). -/
  schedule : List Lines
  /-- The device's parameters (rule R6). -/
  cfg : Config
  /-- The model's own: the addresses that the instruction before stored in memory, latest first, for rules R63 and R380. -/
  stored : List Word
  /-- The model's own: the state the device registers are in, for the read and write functions of `cfg` (decision D10). -/
  device : Nat
  /-- The model's own: the counter that the free values are applied to (rule R8's `draw`); every step and every draw advances
  it. -/
  draws : Nat
  /-- The optional counter of rule R377: bus cycles of the instructions executed. No rule reads it. -/
  cycles : Nat
deriving DecidableEq, Repr

/-- The machine right after reset (rules R370, R371): SP = $00FF, H = $00, I = 1, PC the word at the reset vector $FFFE,
running, `cli_shadow` false. The spec leaves A, X, V, CCR.H, N, Z and C unspecified: they are zero here (DESIGN CHOICE,
unsafe, notes/assumptions/1.md), as is the model's choice of a memory with nothing listed (notes/assumptions/2.md), the
lines (notes/assumptions/4.md), the memory map (notes/assumptions/3.md), the devices' state (notes/assumptions/7.md) and the model's own counters. -/
def State.reset : State where
  a := 0x00
  h := 0x00
  x := 0x00
  sp := 0x00FF
  pc := Memory.readWord [] 0xFFFE
  ccr := { v := false, h := false, i := true, n := false, z := false, c := false }
  mem := []
  runState := .running
  cliShadow := false
  lines := Lines.quiet
  schedule := []
  cfg := Config.default
  stored := []
  device := 0
  draws := 0
  cycles := 0

end Sys2Proof.Machine
end

