-- ==== Sys2Proof/Machine/Flags.lean ====
section
/-!
DEFINITION. The flag computations of spec/40_addressing_and_alu.md rules R121 to R127, and the arithmetic whose flags they
are: each result is computed exactly on numbers and narrowed once.
-/

namespace Sys2Proof.Machine

/-- `setNZ8(r)` (rule R121). -/
def setNZ8 (f : Ccr) (r : Byte) : Ccr := { f with n := r.msb, z := decide (r = 0) }

/-- `setNZ16(r)` (rule R121). -/
def setNZ16 (f : Ccr) (r : Word) : Ccr := { f with n := r.msb, z := decide (r = 0) }

/-- V cleared, N and Z from the value: logical, load, store, move and test instructions (rule R127). -/
def logicFlags (f : Ccr) (r : Byte) : Ccr := setNZ8 { f with v := false } r

/-- As `logicFlags`, for LDHX and STHX (rules R121, R127). -/
def logicFlags16 (f : Ccr) (r : Word) : Ccr := setNZ16 { f with v := false } r

/-- V, N cleared and Z set: CLR (rule R127). -/
def clearFlags (f : Ccr) : Ccr := { f with v := false, n := false, z := true }

/-- The result of `add8` (rule R122). -/
structure Sum8 where
  r : Byte
  c : Bool
  h : Bool
  v : Bool
deriving DecidableEq, Repr

/-- `add8(a, m, c)` (rule R122). -/
def add8 (a m : Byte) (c : Bool) : Sum8 :=
  let s := a.toNat + m.toNat + c.toNat
  let r := BitVec.ofNat 8 s
  { r := r
    c := decide (s > 255)
    h := decide (a.toNat % 16 + m.toNat % 16 + c.toNat > 15)
    v := (a.msb == m.msb) && (r.msb != a.msb) }

/-- The result of `sub8` (rule R123). -/
structure Diff8 where
  r : Byte
  c : Bool
  v : Bool
deriving DecidableEq, Repr

/-- `sub8(a, m, c)` (rule R123). -/
def sub8 (a m : Byte) (c : Bool) : Diff8 :=
  let d : Int := (a.toNat : Int) - m.toNat - c.toNat
  let r := BitVec.ofInt 8 d
  { r := r
    c := decide (d < 0)
    v := (a.msb != m.msb) && (r.msb != a.msb) }

/-- The result of `sub16` (rule R124). -/
structure Diff16 where
  r : Word
  c : Bool
  v : Bool
deriving DecidableEq, Repr

/-- `sub16(a, m)` (rule R124). -/
def sub16 (a m : Word) : Diff16 :=
  let d : Int := (a.toNat : Int) - m.toNat
  let r := BitVec.ofInt 16 d
  { r := r
    c := decide (d < 0)
    v := (a.msb != m.msb) && (r.msb != a.msb) }

/-- The flags after an addition: V, H, C from the sum, N and Z from its result (rules R180, R181). -/
def sumFlags (f : Ccr) (q : Sum8) : Ccr := setNZ8 { f with v := q.v, h := q.h, c := q.c } q.r

/-- The flags after a subtraction or comparison: H is kept (rules R123, R182 to R185). -/
def diffFlags (f : Ccr) (q : Diff8) : Ccr := setNZ8 { f with v := q.v, c := q.c } q.r

/-- The flags after CPHX (rules R124, R186). -/
def diffFlags16 (f : Ccr) (q : Diff16) : Ccr := setNZ16 { f with v := q.v, c := q.c } q.r

/-- INC's operation and flags: V at $7F, C kept (rule R125). -/
def incOp (f : Ccr) (v : Byte) : Byte × Ccr := (v + 1, setNZ8 { f with v := decide (v = 0x7F) } (v + 1))

/-- DEC's operation and flags: V at $80, C kept (rule R125). -/
def decOp (f : Ccr) (v : Byte) : Byte × Ccr := (v - 1, setNZ8 { f with v := decide (v = 0x80) } (v - 1))

/-- NEG: $00 - v with the flags of a subtraction (rule R125). -/
def negOp (f : Ccr) (v : Byte) : Byte × Ccr := ((sub8 0 v false).r, diffFlags f (sub8 0 v false))

/-- COM: $FF - v, C forced to 1 (rules R127, R224). -/
def comOp (f : Ccr) (v : Byte) : Byte × Ccr := (~~~v, logicFlags { f with c := true } (~~~v))

/-- The flags of a shift or rotate with result `r` and bit `c` shifted out: C, N, Z and V = N xor C (rule R126). -/
def shiftFlags (f : Ccr) (r : Byte) (c : Bool) : Ccr := setNZ8 { f with v := r.msb ^^ c, c := c } r

/-- LSL/ASL: C <- b7, b0 <- 0 (rule R126). -/
def lslOp (f : Ccr) (v : Byte) : Byte × Ccr := (v <<< 1, shiftFlags f (v <<< 1) (v.getLsbD 7))

/-- ASR: b7 kept, b0 -> C (rule R126). -/
def asrOp (f : Ccr) (v : Byte) : Byte × Ccr := (v.sshiftRight 1, shiftFlags f (v.sshiftRight 1) (v.getLsbD 0))

/-- LSR: 0 -> b7, b0 -> C (rule R126). -/
def lsrOp (f : Ccr) (v : Byte) : Byte × Ccr := (v >>> 1, shiftFlags f (v >>> 1) (v.getLsbD 0))

/-- `v[6:0] : c` (rule R126). -/
def rotateLeft (v : Byte) (c : Bool) : Byte := v.extractLsb' 0 7 ++ BitVec.ofBool c

/-- `c : v[7:1]` (rule R126). -/
def rotateRight (v : Byte) (c : Bool) : Byte := BitVec.ofBool c ++ v.extractLsb' 1 7

/-- ROL: C <- b7, b0 <- old C (rule R126). -/
def rolOp (f : Ccr) (v : Byte) : Byte × Ccr := (rotateLeft v f.c, shiftFlags f (rotateLeft v f.c) (v.getLsbD 7))

/-- ROR: old C -> b7, b0 -> C (rule R126). -/
def rorOp (f : Ccr) (v : Byte) : Byte × Ccr := (rotateRight v f.c, shiftFlags f (rotateRight v f.c) (v.getLsbD 0))

/-- The byte with bit n set to `b`, the others kept (rules R231, R232). -/
def withBit (v : Byte) (n : BitVec 3) (b : Bool) : Byte :=
  if b then v ||| ((1 : Byte) <<< n.toNat) else v &&& ~~~((1 : Byte) <<< n.toNat)

/-- The row is for the flags C and H and the byte in A (rule R195). -/
def daaMatches (c h : Bool) (a : Byte) (row : DaaRow) : Bool :=
  (row.c == c) && (row.h == h) && decide (row.hiMin ≤ a.toNat / 16) && decide (a.toNat / 16 ≤ row.hiMax) &&
    decide (row.loMin ≤ a.toNat % 16) && decide (a.toNat % 16 ≤ row.loMax)

/-- `daa_fn(A, C, H)` (decision D18): DAA's row, the first that matches; `none` for the inputs that no row matches. -/
def daaAdjust (rows : List DaaRow) (c h : Bool) (a : Byte) : Option DaaRow := rows.find? (daaMatches c h a)

end Sys2Proof.Machine
end

