-- ==== Sys2Proof/Machine/Ops.lean ====
section
/-!
DEFINITION. The named operations over registers, memory, the stack and the free values (spec/00_scope.md rule R8), and the
events of spec/60_exceptions.md: taking an exception, returning from one, interrupt entry and reset.
-/

namespace Sys2Proof.Machine

/-- Go on with the value of `r`, or stop as `r` stops. -/
def Res.bind {α β : Type} (r : Res α) (k : α → Res β) : Res β :=
  match r with
  | .next v => k v
  | .fault f => .fault f
  | .refused f => .refused f

/-! ### Registers -/

/-- `HX`: the 16-bit index register H:X (rule R22). -/
def State.hx (s : State) : Word := joinBytes s.h s.x

/-- `HX <- v` (rule R8). -/
def State.setHx (s : State) (v : Word) : State := { s with h := hiByte v, x := loByte v }

/-- The CCR read as a byte: V, the two bits of `ccr65`, H, I, N, Z, C from bit 7 down (rules R26, R27). -/
def ccrByte (cfg : Config) (f : Ccr) : Byte :=
  BitVec.ofBool f.v ++ cfg.ccr65 ++ BitVec.ofBool f.h ++ BitVec.ofBool f.i ++ BitVec.ofBool f.n ++ BitVec.ofBool f.z ++
    BitVec.ofBool f.c

/-- The flags a byte written to the CCR gives; its bits 6 and 5 are ignored (rule R27). -/
def ccrOfByte (b : Byte) : Ccr where
  v := b.getLsbD 7
  h := b.getLsbD 4
  i := b.getLsbD 3
  n := b.getLsbD 2
  z := b.getLsbD 1
  c := b.getLsbD 0

/-- Write the CCR in an instruction after which `cli_shadow` applies, CLI or TAP: with `cli_delay = one` the shadow is set
exactly when I goes from 1 to 0 (rule R348). -/
def State.setCcrShadowing (s : State) (f : Ccr) : State :=
  { s with ccr := f, cliShadow := decide (s.cfg.cliDelay = .one) && s.ccr.i && !f.i }

/-- `branch(rr, cond)`: PC + sext_16(rr) modulo 65536 if the condition holds, else PC unchanged (rule R260). -/
def State.branchIf (s : State) (cond : Bool) (rr : Byte) : State :=
  { s with pc := if cond then s.pc + sext16 rr else s.pc }

/-- After `k` more free values have been drawn. -/
def State.drawn (s : State) (k : Nat) : State := { s with draws := s.draws + k }

/-! ### Memory -/

/-- What address `a` is in this device's memory map. -/
def State.kindAt (s : State) (a : Word) : MemKind := kindIn s.cfg.memmap a.toNat

/-- A data access to the address has a result: it is RAM, ROM or a device register. -/
def State.mapped (s : State) (a : Word) : Bool := decide (s.kindAt a ≠ .unimplemented)

/-- The address is RAM or ROM, where instructions and vectors in use must lie (decision D10). -/
def State.holdsCode (s : State) (a : Word) : Bool := decide (s.kindAt a = .ram) || decide (s.kindAt a = .rom)

/-- The byte of memory at `a`, whatever the map says the address is. -/
def State.peek (s : State) (a : Word) : Byte := s.mem.read a.toNat

/-- The devices' read function (parameter `memmap`, decision D10) in device state `q`: the first entry for the address; with
none, a free value, another one for each instruction (counter `k`). -/
def deviceRead (cfg : Config) (k q : Nat) (a : Word) : Byte :=
  match cfg.deviceReads.find? fun r => (r.address == a) && (r.state.all (· == q)) with
  | some r => r.value
  | none => Config.deviceByte k a

/-- The devices' write function (parameter `memmap`, decision D10) in device state `q`: the next device state by the first
entry for the address and the byte; with none, a free value. -/
def deviceWrite (cfg : Config) (k q : Nat) (a : Word) (v : Byte) : Nat :=
  match cfg.deviceWrites.find? fun r => (r.address == a) && (r.state.all (· == q)) && (r.value.all (· == v)) with
  | some r => r.next
  | none => Config.deviceState k a

/-- What a data read of address `a` gives: the latest byte in memory, or what the device supplies (rules R60, R64). -/
def State.data (s : State) (a : Word) : Byte :=
  if s.kindAt a = .device then deviceRead s.cfg s.draws s.device a else s.peek a

/-- The state after byte `v` was written to address `a`: RAM holds it, ROM keeps its image, a device register goes on by
the devices' write function (rule R60, decision D10). -/
def State.poke (s : State) (a : Word) (v : Byte) : State :=
  { s with
    mem := if s.kindAt a = .ram then s.mem.write a.toNat v else s.mem
    stored := if s.kindAt a = .ram then a :: s.stored else s.stored
    device := if s.kindAt a = .device then deviceWrite s.cfg s.draws s.device a v else s.device }

/-- `MemRead(a, 1)` of data. -/
def read8 (s : State) (a : Word) : Res Byte :=
  match s.kindAt a with
  | .ram | .rom | .device => .next (s.data a)
  | .unimplemented => .fault (.unimplementedAddress a)

/-- `MemRead(a, 1)` of an instruction's byte or a vector's (rules R51, R54): never a device register (decision D10). -/
def readCode (s : State) (a : Word) : Res Byte :=
  match s.kindAt a with
  | .ram | .rom => .next (s.peek a)
  | .device => .refused (.codeInDevice a)
  | .unimplemented => .fault (.unimplementedAddress a)

/-- `MemWrite(a, 1, v)`. -/
def write8 (s : State) (a : Word) (v : Byte) : Res State :=
  match s.kindAt a with
  | .ram | .rom | .device => .next (s.poke a v)
  | .unimplemented => .fault (.unimplementedAddress a)

/-- `MemRead(a, 2)`: high byte at `a`, low byte at `(a + 1) mod 65536`, in that order (rules R50, R58). -/
def read16 (s : State) (a : Word) : Res Word :=
  Res.bind (read8 s a) fun hi => Res.bind (read8 s (a + 1)) fun lo => .next (joinBytes hi lo)

/-- The vector at `a`: high byte at `a`, low byte at the next address (rule R54). -/
def readVector (s : State) (a : Word) : Res Word :=
  Res.bind (readCode s a) fun hi => Res.bind (readCode s (a + 1)) fun lo => .next (joinBytes hi lo)

/-- `MemWrite(a, 2, v)`: high byte to `a`, low byte to `(a + 1) mod 65536`, in that order (rules R50, R58). -/
def write16 (s : State) (a : Word) (v : Word) : Res State :=
  Res.bind (write8 s a (hiByte v)) fun t => write8 t (a + 1) (loByte v)

/-! ### The stack -/

/-- `push8(v)`: store at SP, then SP - 1 modulo 65536 (rules R8, R24). -/
def push8 (v : Byte) (s : State) : Res State :=
  Res.bind (write8 s s.sp v) fun t => .next { t with sp := t.sp - 1 }

/-- `pull8()`: SP + 1 modulo 65536, then the byte at SP (rules R8, R24). -/
def pull8 (s : State) : Res (Byte × State) :=
  Res.bind (read8 s (s.sp + 1)) fun v => .next (v, { s with sp := s.sp + 1 })

/-- `push8` of each byte, the first of the list first. -/
def pushBytes : List Byte → State → Res State
  | [], s => .next s
  | v :: vs, s => Res.bind (push8 v s) fun t => pushBytes vs t

/-- Push a return address: low byte first, so that it lies big-endian on the stack (rule R53). -/
def pushReturn (s : State) : Res State := pushBytes [loByte s.pc, hiByte s.pc] s

/-! ### Exceptions -/

/-- The vector of SWI (rule R331). -/
def swiVector : Word := 0xFFFC

/-- The vector of Reset (rule R331). -/
def resetVector : Word := 0xFFFE

/-- The vector of IREQ[n]: $FFFA - 2n (rule R331). -/
def requestVector (n : Nat) : Word := 0xFFFA - BitVec.ofNat 16 (2 * n)

/-- Taking an exception, the sequence that SWI and interrupt entry share (rules R313, R337): push PCL, PCH, X, A and the
CCR byte with its old I, set I, load PC from the vector. H is not pushed (rule R339). -/
def takeException (vector : Word) (s : State) : Res State :=
  Res.bind (pushBytes [loByte s.pc, hiByte s.pc, s.x, s.a, ccrByte s.cfg s.ccr] s) fun t =>
  Res.bind (readVector t vector) fun target =>
  .next { t with ccr := { t.ccr with i := true }, pc := target }

/-- The return from an exception (rules R314, R341): pull the CCR byte, A, X, PCH and PCL. H is not pulled. -/
def returnFromException (s : State) : Res State :=
  Res.bind (pull8 s) fun (f, s1) =>
  Res.bind (pull8 s1) fun (a, s2) =>
  Res.bind (pull8 s2) fun (x, s3) =>
  Res.bind (pull8 s3) fun (hi, s4) =>
  Res.bind (pull8 s4) fun (lo, s5) =>
  .next { s5 with ccr := ccrOfByte f, a := a, x := x, pc := joinBytes hi lo }

/-- Interrupt entry for IREQ[n] (rule R337). Its pushes are no store of an instruction (rule R63). -/
def interruptEntry (n : Nat) (s : State) : Res State :=
  Res.bind (takeException (requestVector n) { s with runState := .running }) fun t => .next { t with stored := s.stored }

/-- The lowest n whose request is asserted: the highest priority (rule R336). -/
def lowestRequest (pending : BitVec 126) : Option Nat := (List.range 126).find? fun n => pending.getLsbD n

/-- The registers at reset: SP = $00FF, H = $00, I = 1, running, no `cli_shadow`; A, X, the other five flags and the
state of the devices are free values (rules R370, R371). Memory is not written. -/
def State.resetRegisters (s : State) : State :=
  { s with
    runState := .running
    sp := 0x00FF
    h := 0x00
    a := Config.draw8 s.draws
    x := Config.draw8 (s.draws + 1)
    ccr :=
      { v := Config.draw1 (s.draws + 2), h := Config.draw1 (s.draws + 3), i := true, n := Config.draw1 (s.draws + 4)
        z := Config.draw1 (s.draws + 5), c := Config.draw1 (s.draws + 6) }
    cliShadow := false
    stored := []
    device := Config.deviceState s.draws resetVector
    draws := s.draws + 7 }

/-- The Reset event (rules R344, R370): nothing is stacked, PC comes from the reset vector. -/
def enterReset (s : State) : Res State :=
  Res.bind (readVector s.resetRegisters resetVector) fun target => .next { s.resetRegisters with pc := target }

/-! ### Between instructions -/

/-- The environment presents the lines of the next boundary; with none scheduled they keep their levels. The boundary has
free values of its own. -/
def State.sample (s : State) : State :=
  match s.schedule with
  | [] => { s with draws := s.draws + 1 }
  | l :: rest => { s with lines := l, schedule := rest, draws := s.draws + 1 }

/-- The state in which an instruction's meaning starts: PC past its `length` bytes (rule R81), no shadow of an earlier
instruction, nothing stored yet, its bus cycles counted (rule R377). -/
def State.begin (s : State) (length cycles : Nat) : State :=
  { s with
    pc := s.pc + BitVec.ofNat 16 length
    cliShadow := false
    stored := []
    cycles := s.cycles + cycles }

end Sys2Proof.Machine
end

