-- ==== Sys2Proof/Machine/Operands.lean ====
section
/-!
DEFINITION. The addressing modes (spec/40_addressing_and_alu.md rules R110 to R120, R128) and the operand helpers of rule
R129. Every sum is modulo 65536 (decision D4).
-/

namespace Sys2Proof.Machine

/-- `EA = $00:dd`, a direct-page address (rule R112). -/
def directAddress (dd : Byte) : Word := zext16 dd

/-- The effective address (rules R112 to R118). -/
def effectiveAddress (e : Ea) (s : State) : Word :=
  match e with
  | .dir dd => directAddress dd
  | .ext a => a
  | .ix2 off => s.hx + off
  | .ix1 off => s.hx + zext16 off
  | .ix => s.hx
  | .sp2 off => s.sp + off
  | .sp1 off => s.sp + zext16 off

/-- `opnd8(m)`: the immediate, or one data read at the effective address (rule R129). -/
def load8 (o : Opnd8) (s : State) : Res Byte :=
  match o with
  | .imm ii => .next ii
  | .mem e => read8 s (effectiveAddress e s)

/-- `opnd16(m)`: the immediate, or two data reads from the direct address upward (rule R129). -/
def load16 (o : Opnd16) (s : State) : Res Word :=
  match o with
  | .imm v => .next v
  | .dir dd => read16 s (directAddress dd)

/-- A one-operand operation: from the old flags and the operand, the result and the new flags. -/
abbrev UnaryOp := Ccr → Byte → Byte × Ccr

/-- `rmw8` in memory: one read, then one write of the same address, then the flags (rule R129). -/
def rmwMem (f : UnaryOp) (e : Ea) (s : State) : Res State :=
  Res.bind (read8 s (effectiveAddress e s)) fun v =>
  Res.bind (write8 s (effectiveAddress e s) (f s.ccr v).1) fun t =>
  .next { t with ccr := (f s.ccr v).2 }

/-- `rmw8` on A. -/
def rmwA (f : UnaryOp) (s : State) : State := { s with a := (f s.ccr s.a).1, ccr := (f s.ccr s.a).2 }

/-- `rmw8` on X; H is not touched (rule R22). -/
def rmwX (f : UnaryOp) (s : State) : State := { s with x := (f s.ccr s.x).1, ccr := (f s.ccr s.x).2 }

/-- A store of one byte that sets V, N and Z from the value stored (rules R127, R143, R144). -/
def storeByte (e : Ea) (v : Byte) (s : State) : Res State :=
  Res.bind (write8 s (effectiveAddress e s) v) fun t => .next { t with ccr := logicFlags t.ccr v }

/-- The post-increment of H:X, 16 bits (rule R119). -/
def State.incHx (s : State) : State := s.setHx (s.hx + 1)

end Sys2Proof.Machine
end

