-- ==== Sys2Proof/Machine/Arith.lean ====
section
/-!
DEFINITION. The arithmetic instructions: spec/42_arithmetic.md rules R180 to R195. Each meaning starts with PC past the
instruction (rule R81).
-/

namespace Sys2Proof.Machine

/-- ADC (rule R180). -/
def execAdc (o : Opnd8) (s : State) : Res State :=
  Res.bind (load8 o s) fun m =>
  .next { s with a := (add8 s.a m s.ccr.c).r, ccr := sumFlags s.ccr (add8 s.a m s.ccr.c) }

/-- ADD (rule R181). -/
def execAdd (o : Opnd8) (s : State) : Res State :=
  Res.bind (load8 o s) fun m =>
  .next { s with a := (add8 s.a m false).r, ccr := sumFlags s.ccr (add8 s.a m false) }

/-- SUB (rule R182). -/
def execSub (o : Opnd8) (s : State) : Res State :=
  Res.bind (load8 o s) fun m =>
  .next { s with a := (sub8 s.a m false).r, ccr := diffFlags s.ccr (sub8 s.a m false) }

/-- SBC (rule R183). -/
def execSbc (o : Opnd8) (s : State) : Res State :=
  Res.bind (load8 o s) fun m =>
  .next { s with a := (sub8 s.a m s.ccr.c).r, ccr := diffFlags s.ccr (sub8 s.a m s.ccr.c) }

/-- CMP (rule R184). -/
def execCmp (o : Opnd8) (s : State) : Res State :=
  Res.bind (load8 o s) fun m => .next { s with ccr := diffFlags s.ccr (sub8 s.a m false) }

/-- CPX (rule R185). -/
def execCpx (o : Opnd8) (s : State) : Res State :=
  Res.bind (load8 o s) fun m => .next { s with ccr := diffFlags s.ccr (sub8 s.x m false) }

/-- CPHX (rule R186). -/
def execCphx (o : Opnd16) (s : State) : Res State :=
  Res.bind (load16 o s) fun m => .next { s with ccr := diffFlags16 s.ccr (sub16 s.hx m) }

/-- AIS (rule R187). -/
def execAis (ii : Byte) (s : State) : Res State := .next { s with sp := s.sp + sext16 ii }

/-- AIX (rule R188). -/
def execAix (ii : Byte) (s : State) : Res State := .next (s.setHx (s.hx + sext16 ii))

/-- INC in memory (rule R189). -/
def execInc (e : Ea) (s : State) : Res State := rmwMem incOp e s

/-- INCA (rule R189). -/
def execInca (s : State) : Res State := .next (rmwA incOp s)

/-- INCX (rule R189). -/
def execIncx (s : State) : Res State := .next (rmwX incOp s)

/-- DEC in memory (rule R190). -/
def execDec (e : Ea) (s : State) : Res State := rmwMem decOp e s

/-- DECA (rule R190). -/
def execDeca (s : State) : Res State := .next (rmwA decOp s)

/-- DECX (rule R190). -/
def execDecx (s : State) : Res State := .next (rmwX decOp s)

/-- NEG in memory (rule R191). -/
def execNeg (e : Ea) (s : State) : Res State := rmwMem negOp e s

/-- NEGA (rule R191). -/
def execNega (s : State) : Res State := .next (rmwA negOp s)

/-- NEGX (rule R191). -/
def execNegx (s : State) : Res State := .next (rmwX negOp s)

/-- TST in memory (rule R192): one read, no write. -/
def execTst (e : Ea) (s : State) : Res State :=
  Res.bind (read8 s (effectiveAddress e s)) fun v => .next { s with ccr := logicFlags s.ccr v }

/-- TSTA (rule R192). -/
def execTsta (s : State) : Res State := .next { s with ccr := logicFlags s.ccr s.a }

/-- TSTX (rule R192). -/
def execTstx (s : State) : Res State := .next { s with ccr := logicFlags s.ccr s.x }

/-- MUL (rule R193): X:A is the product; the flags H and C are cleared, register H is not written. -/
def execMul (s : State) : Res State :=
  let p : Word := BitVec.ofNat 16 (s.x.toNat * s.a.toNat)
  .next { s with x := hiByte p, a := loByte p, ccr := { s.ccr with h := false, c := false } }

/-- DIV (rule R194). Where X is 0 or the quotient needs more than 8 bits, C is 1 and A, H and Z are free values
(decision D17). -/
def execDiv (s : State) : Res State :=
  let n := s.h.toNat * 256 + s.a.toNat
  let q := n / s.x.toNat
  if s.x ≠ 0 ∧ q ≤ 255 then
    .next { s with a := BitVec.ofNat 8 q, h := BitVec.ofNat 8 (n % s.x.toNat), ccr := { s.ccr with z := decide (q = 0), c := false } }
  else
    .next { s.drawn 3 with
      a := Config.draw8 s.draws
      h := Config.draw8 (s.draws + 1)
      ccr := { s.ccr with z := Config.draw1 (s.draws + 2), c := true } }

/-- DAA (rule R195): the correction of `daaAdjust`, N and Z from the result, V a free value; where no row of the table
matches, A, C, N, Z and V are free values. The flag H is kept. -/
def execDaa (s : State) : Res State :=
  match daaAdjust s.cfg.daaFn s.ccr.c s.ccr.h s.a with
  | some row =>
    .next { s.drawn 1 with
      a := s.a + row.add
      ccr := setNZ8 { s.ccr with v := Config.draw1 s.draws, c := row.newC } (s.a + row.add) }
  | none =>
    .next { s.drawn 5 with
      a := Config.draw8 s.draws
      ccr :=
        { s.ccr with
          c := Config.draw1 (s.draws + 1)
          n := Config.draw1 (s.draws + 2)
          z := Config.draw1 (s.draws + 3)
          v := Config.draw1 (s.draws + 4) } }

end Sys2Proof.Machine
end

