-- ==== Sys2Proof/Machine/Control.lean ====
section
/-!
DEFINITION. Branches, jumps, calls and returns: spec/44_control_transfer.md rules R260 to R289. Each meaning starts with
PC past the instruction (rule R81); a conditional branch is `State.branchIf` (rule R260) on its condition.
-/

namespace Sys2Proof.Machine

/-- BRA (rule R261). -/
def execBra (rr : Byte) (s : State) : Res State := .next (s.branchIf true rr)

/-- BRN (rule R262). -/
def execBrn (rr : Byte) (s : State) : Res State := .next (s.branchIf false rr)

/-- BHI (rule R263): (C | Z) = 0. -/
def execBhi (rr : Byte) (s : State) : Res State := .next (s.branchIf (!(s.ccr.c || s.ccr.z)) rr)

/-- BLS (rule R264): (C | Z) = 1. -/
def execBls (rr : Byte) (s : State) : Res State := .next (s.branchIf (s.ccr.c || s.ccr.z) rr)

/-- BCC (rule R265): C = 0. -/
def execBcc (rr : Byte) (s : State) : Res State := .next (s.branchIf (!s.ccr.c) rr)

/-- BHS, the second name of BCC (rules R265, R96). -/
def execBhs (rr : Byte) (s : State) : Res State := .next (s.branchIf (!s.ccr.c) rr)

/-- BCS (rule R266): C = 1. -/
def execBcs (rr : Byte) (s : State) : Res State := .next (s.branchIf s.ccr.c rr)

/-- BLO, the second name of BCS (rules R266, R96). -/
def execBlo (rr : Byte) (s : State) : Res State := .next (s.branchIf s.ccr.c rr)

/-- BNE (rule R267): Z = 0. -/
def execBne (rr : Byte) (s : State) : Res State := .next (s.branchIf (!s.ccr.z) rr)

/-- BEQ (rule R268): Z = 1. -/
def execBeq (rr : Byte) (s : State) : Res State := .next (s.branchIf s.ccr.z rr)

/-- BHCC (rule R269): the flag H = 0. -/
def execBhcc (rr : Byte) (s : State) : Res State := .next (s.branchIf (!s.ccr.h) rr)

/-- BHCS (rule R270): the flag H = 1. -/
def execBhcs (rr : Byte) (s : State) : Res State := .next (s.branchIf s.ccr.h rr)

/-- BPL (rule R271): N = 0. -/
def execBpl (rr : Byte) (s : State) : Res State := .next (s.branchIf (!s.ccr.n) rr)

/-- BMI (rule R272): N = 1. -/
def execBmi (rr : Byte) (s : State) : Res State := .next (s.branchIf s.ccr.n rr)

/-- BMC (rule R273): I = 0. -/
def execBmc (rr : Byte) (s : State) : Res State := .next (s.branchIf (!s.ccr.i) rr)

/-- BMS (rule R274): I = 1. -/
def execBms (rr : Byte) (s : State) : Res State := .next (s.branchIf s.ccr.i rr)

/-- BIL (rule R275): the IRQ pin is low. -/
def execBil (rr : Byte) (s : State) : Res State := .next (s.branchIf (!s.lines.irqPin) rr)

/-- BIH (rule R276): the IRQ pin is high. -/
def execBih (rr : Byte) (s : State) : Res State := .next (s.branchIf s.lines.irqPin rr)

/-- BGE (rule R277): (N xor V) = 0. -/
def execBge (rr : Byte) (s : State) : Res State := .next (s.branchIf (!(s.ccr.n ^^ s.ccr.v)) rr)

/-- BLT (rule R278): (N xor V) = 1. -/
def execBlt (rr : Byte) (s : State) : Res State := .next (s.branchIf (s.ccr.n ^^ s.ccr.v) rr)

/-- BGT (rule R279): (Z | (N xor V)) = 0. -/
def execBgt (rr : Byte) (s : State) : Res State := .next (s.branchIf (!(s.ccr.z || (s.ccr.n ^^ s.ccr.v))) rr)

/-- BLE (rule R280): (Z | (N xor V)) = 1. -/
def execBle (rr : Byte) (s : State) : Res State := .next (s.branchIf (s.ccr.z || (s.ccr.n ^^ s.ccr.v)) rr)

/-- The bit test of BRSET and BRCLR: C is the bit, the branch is taken when it equals `want` (rules R281, R282). -/
def branchOnBit (n : BitVec 3) (want : Bool) (dd rr : Byte) (s : State) : Res State :=
  Res.bind (read8 s (directAddress dd)) fun v =>
  .next ({ s with ccr := { s.ccr with c := v.getLsbD n.toNat } }.branchIf (v.getLsbD n.toNat == want) rr)

/-- BRSET (rule R281). -/
def execBrset (n : BitVec 3) (dd rr : Byte) (s : State) : Res State := branchOnBit n true dd rr s

/-- BRCLR (rule R282). -/
def execBrclr (n : BitVec 3) (dd rr : Byte) (s : State) : Res State := branchOnBit n false dd rr s

/-- The address of CBEQ's operand (rules R117, R119, R283). -/
def cbeqAddress (o : CbeqOpnd) (s : State) : Word :=
  match o with
  | .dir dd => directAddress dd
  | .ix1Plus ff => s.hx + zext16 ff
  | .ixPlus => s.hx
  | .sp1 ff => s.sp + zext16 ff

/-- The post-increment of CBEQ's IX+ and IX1+ modes, which happens whether or not the branch is taken (rule R119). -/
def cbeqAfter (o : CbeqOpnd) (s : State) : State :=
  match o with
  | .dir _ => s
  | .ix1Plus _ => s.incHx
  | .ixPlus => s.incHx
  | .sp1 _ => s

/-- CBEQ, memory forms (rule R283). -/
def execCbeq (o : CbeqOpnd) (rr : Byte) (s : State) : Res State :=
  Res.bind (read8 s (cbeqAddress o s)) fun m => .next ((cbeqAfter o s).branchIf (s.a == m) rr)

/-- CBEQA (rule R283). -/
def execCbeqa (ii rr : Byte) (s : State) : Res State := .next (s.branchIf (s.a == ii) rr)

/-- CBEQX (rule R283). -/
def execCbeqx (ii rr : Byte) (s : State) : Res State := .next (s.branchIf (s.x == ii) rr)

/-- DBNZ, memory forms (rule R284): no flag is written. -/
def execDbnz (e : Ea) (rr : Byte) (s : State) : Res State :=
  Res.bind (read8 s (effectiveAddress e s)) fun v =>
  Res.bind (write8 s (effectiveAddress e s) (v - 1)) fun t => .next (t.branchIf (v - 1 != 0) rr)

/-- DBNZA (rule R284). -/
def execDbnza (rr : Byte) (s : State) : Res State := .next ({ s with a := s.a - 1 }.branchIf (s.a - 1 != 0) rr)

/-- DBNZX (rule R284): H is not touched. -/
def execDbnzx (rr : Byte) (s : State) : Res State := .next ({ s with x := s.x - 1 }.branchIf (s.x - 1 != 0) rr)

/-- BSR (rule R285). -/
def execBsr (rr : Byte) (s : State) : Res State := Res.bind (pushReturn s) fun t => .next { t with pc := s.pc + sext16 rr }

/-- JMP (rule R286): the effective address is the target. -/
def execJmp (e : Ea) (s : State) : Res State := .next { s with pc := effectiveAddress e s }

/-- JSR (rule R287): the target is computed before the pushes. -/
def execJsr (e : Ea) (s : State) : Res State := Res.bind (pushReturn s) fun t => .next { t with pc := effectiveAddress e s }

/-- RTS (rule R288). -/
def execRts (s : State) : Res State :=
  Res.bind (pull8 s) fun (hi, t) => Res.bind (pull8 t) fun (lo, u) => .next { u with pc := joinBytes hi lo }

end Sys2Proof.Machine
end

