-- ==== Sys2Proof/Machine/Load.lean ====
section
/-!
DEFINITION. Loads, stores, moves, clears, register transfers and the stack: spec/41_load_store_transfer.md rules R140 to
R161. Each meaning starts with PC past the instruction (rule R81).
-/

namespace Sys2Proof.Machine

/-- LDA (rule R140). -/
def execLda (o : Opnd8) (s : State) : Res State :=
  Res.bind (load8 o s) fun m => .next { s with a := m, ccr := logicFlags s.ccr m }

/-- LDX (rule R141): the address uses the old H:X. -/
def execLdx (o : Opnd8) (s : State) : Res State :=
  Res.bind (load8 o s) fun m => .next { s with x := m, ccr := logicFlags s.ccr m }

/-- LDHX (rule R142). -/
def execLdhx (o : Opnd16) (s : State) : Res State :=
  Res.bind (load16 o s) fun v => .next { s.setHx v with ccr := logicFlags16 s.ccr v }

/-- STA (rule R143). -/
def execSta (e : Ea) (s : State) : Res State := storeByte e s.a s

/-- STX (rule R144). -/
def execStx (e : Ea) (s : State) : Res State := storeByte e s.x s

/-- STHX (rule R145): H, then X. -/
def execSthx (dd : Byte) (s : State) : Res State :=
  Res.bind (write16 s (directAddress dd) s.hx) fun t => .next { t with ccr := logicFlags16 t.ccr s.hx }

/-- MOV (rules R128, R146): the source is read before the destination is written; the X+ modes then increment H:X. -/
def execMov (o : MovOpnd) (s : State) : Res State :=
  match o with
  | .dd src dst =>
    Res.bind (read8 s (directAddress src)) fun v =>
    Res.bind (write8 s (directAddress dst) v) fun t => .next { t with ccr := logicFlags t.ccr v }
  | .dixPlus src =>
    Res.bind (read8 s (directAddress src)) fun v =>
    Res.bind (write8 s s.hx v) fun t => .next { t.incHx with ccr := logicFlags t.ccr v }
  | .imd ii dst =>
    Res.bind (write8 s (directAddress dst) ii) fun t => .next { t with ccr := logicFlags t.ccr ii }
  | .ixPlusD dst =>
    Res.bind (read8 s s.hx) fun v =>
    Res.bind (write8 s (directAddress dst) v) fun t => .next { t.incHx with ccr := logicFlags t.ccr v }

/-- CLR in memory (rule R147): a write only (rule R57). -/
def execClr (e : Ea) (s : State) : Res State :=
  Res.bind (write8 s (effectiveAddress e s) 0x00) fun t => .next { t with ccr := clearFlags t.ccr }

/-- CLRA (rule R147). -/
def execClra (s : State) : Res State := .next { s with a := 0x00, ccr := clearFlags s.ccr }

/-- CLRX (rule R147). -/
def execClrx (s : State) : Res State := .next { s with x := 0x00, ccr := clearFlags s.ccr }

/-- CLRH (rule R147). -/
def execClrh (s : State) : Res State := .next { s with h := 0x00, ccr := clearFlags s.ccr }

/-- TAX (rule R148). -/
def execTax (s : State) : Res State := .next { s with x := s.a }

/-- TXA (rule R149). -/
def execTxa (s : State) : Res State := .next { s with a := s.x }

/-- TAP (rule R150), with `cli_shadow` (rule R348). -/
def execTap (s : State) : Res State := .next (s.setCcrShadowing (ccrOfByte s.a))

/-- TPA (rule R151). -/
def execTpa (s : State) : Res State := .next { s with a := ccrByte s.cfg s.ccr }

/-- TSX (rule R152). -/
def execTsx (s : State) : Res State := .next (s.setHx (s.sp + 1))

/-- TXS (rule R153). -/
def execTxs (s : State) : Res State := .next { s with sp := s.hx - 1 }

/-- RSP (rule R154): the high byte is kept. -/
def execRsp (s : State) : Res State := .next { s with sp := joinBytes (hiByte s.sp) 0xFF }

/-- PSHA (rule R155). -/
def execPsha (s : State) : Res State := push8 s.a s

/-- PSHH (rule R156). -/
def execPshh (s : State) : Res State := push8 s.h s

/-- PSHX (rule R157). -/
def execPshx (s : State) : Res State := push8 s.x s

/-- PULA (rule R158). -/
def execPula (s : State) : Res State := Res.bind (pull8 s) fun (v, t) => .next { t with a := v }

/-- PULH (rule R159). -/
def execPulh (s : State) : Res State := Res.bind (pull8 s) fun (v, t) => .next { t with h := v }

/-- PULX (rule R160). -/
def execPulx (s : State) : Res State := Res.bind (pull8 s) fun (v, t) => .next { t with x := v }

end Sys2Proof.Machine
end

