-- ==== Sys2Proof/Machine/Logic.lean ====
section
/-!
DEFINITION. The logical, shift, rotate, bit and carry-flag instructions: spec/43_logic_shift_bit.md rules R220 to R234.
Each meaning starts with PC past the instruction (rule R81).
-/

namespace Sys2Proof.Machine

/-- AND (rule R220). -/
def execAnd (o : Opnd8) (s : State) : Res State :=
  Res.bind (load8 o s) fun m => .next { s with a := s.a &&& m, ccr := logicFlags s.ccr (s.a &&& m) }

/-- ORA (rule R221). -/
def execOra (o : Opnd8) (s : State) : Res State :=
  Res.bind (load8 o s) fun m => .next { s with a := s.a ||| m, ccr := logicFlags s.ccr (s.a ||| m) }

/-- EOR (rule R222). -/
def execEor (o : Opnd8) (s : State) : Res State :=
  Res.bind (load8 o s) fun m => .next { s with a := s.a ^^^ m, ccr := logicFlags s.ccr (s.a ^^^ m) }

/-- BIT (rule R223): the result is discarded. -/
def execBit (o : Opnd8) (s : State) : Res State :=
  Res.bind (load8 o s) fun m => .next { s with ccr := logicFlags s.ccr (s.a &&& m) }

/-- COM in memory (rule R224). -/
def execCom (e : Ea) (s : State) : Res State := rmwMem comOp e s

/-- COMA (rule R224). -/
def execComa (s : State) : Res State := .next (rmwA comOp s)

/-- COMX (rule R224). -/
def execComx (s : State) : Res State := .next (rmwX comOp s)

/-- NSA (rule R225): `A[3:0] : A[7:4]`. -/
def execNsa (s : State) : Res State := .next { s with a := s.a.extractLsb' 0 4 ++ s.a.extractLsb' 4 4 }

/-- LSL in memory (rule R226). -/
def execLsl (e : Ea) (s : State) : Res State := rmwMem lslOp e s

/-- LSLA (rule R226). -/
def execLsla (s : State) : Res State := .next (rmwA lslOp s)

/-- LSLX (rule R226). -/
def execLslx (s : State) : Res State := .next (rmwX lslOp s)

/-- ASL in memory, the second name of LSL (rules R226, R96). -/
def execAsl (e : Ea) (s : State) : Res State := rmwMem lslOp e s

/-- ASLA, the second name of LSLA (rules R226, R96). -/
def execAsla (s : State) : Res State := .next (rmwA lslOp s)

/-- ASLX, the second name of LSLX (rules R226, R96). -/
def execAslx (s : State) : Res State := .next (rmwX lslOp s)

/-- ASR in memory (rule R227). -/
def execAsr (e : Ea) (s : State) : Res State := rmwMem asrOp e s

/-- ASRA (rule R227). -/
def execAsra (s : State) : Res State := .next (rmwA asrOp s)

/-- ASRX (rule R227). -/
def execAsrx (s : State) : Res State := .next (rmwX asrOp s)

/-- LSR in memory (rule R228). -/
def execLsr (e : Ea) (s : State) : Res State := rmwMem lsrOp e s

/-- LSRA (rule R228). -/
def execLsra (s : State) : Res State := .next (rmwA lsrOp s)

/-- LSRX (rule R228). -/
def execLsrx (s : State) : Res State := .next (rmwX lsrOp s)

/-- ROL in memory (rule R229). -/
def execRol (e : Ea) (s : State) : Res State := rmwMem rolOp e s

/-- ROLA (rule R229). -/
def execRola (s : State) : Res State := .next (rmwA rolOp s)

/-- ROLX (rule R229). -/
def execRolx (s : State) : Res State := .next (rmwX rolOp s)

/-- ROR in memory (rule R230). -/
def execRor (e : Ea) (s : State) : Res State := rmwMem rorOp e s

/-- RORA (rule R230). -/
def execRora (s : State) : Res State := .next (rmwA rorOp s)

/-- RORX (rule R230). -/
def execRorx (s : State) : Res State := .next (rmwX rorOp s)

/-- One read, one write of the same direct-page byte with bit n set to `b` (rules R59, R231, R232). -/
def writeBit (n : BitVec 3) (b : Bool) (dd : Byte) (s : State) : Res State :=
  Res.bind (read8 s (directAddress dd)) fun v => write8 s (directAddress dd) (withBit v n b)

/-- BSET (rule R231). -/
def execBset (n : BitVec 3) (dd : Byte) (s : State) : Res State := writeBit n true dd s

/-- BCLR (rule R232). -/
def execBclr (n : BitVec 3) (dd : Byte) (s : State) : Res State := writeBit n false dd s

/-- CLC (rule R233). -/
def execClc (s : State) : Res State := .next { s with ccr := { s.ccr with c := false } }

/-- SEC (rule R234). -/
def execSec (s : State) : Res State := .next { s with ccr := { s.ccr with c := true } }

end Sys2Proof.Machine
end

