-- ==== Sys2Proof/Machine/System.lean ====
section
/-!
DEFINITION. System and interrupt-control instructions: spec/45_system.md rules R310 to R316. Each meaning starts with PC
past the instruction (rule R81).
-/

namespace Sys2Proof.Machine

/-- NOP (rule R310). -/
def execNop (s : State) : Res State := .next s

/-- SEI (rule R311). -/
def execSei (s : State) : Res State := .next { s with ccr := { s.ccr with i := true } }

/-- CLI (rule R312), with `cli_shadow` (rule R348). -/
def execCli (s : State) : Res State := .next (s.setCcrShadowing { s.ccr with i := false })

/-- SWI (rule R313): it executes whatever I is (decision D25). -/
def execSwi (s : State) : Res State := takeException swiVector s

/-- RTI (rule R314). -/
def execRti (s : State) : Res State := returnFromException s

/-- WAIT (rule R315). -/
def execWait (s : State) : Res State := .next { s with ccr := { s.ccr with i := false }, runState := .waiting }

/-- STOP (rule R316). -/
def execStop (s : State) : Res State := .next { s with ccr := { s.ccr with i := false }, runState := .stopped }

end Sys2Proof.Machine
end

