-- ==== Sys2Proof/Machine/Dispatch.lean ====
section
/-! DEFINITION. The dispatch: what each instruction does to a state whose PC is past the instruction's bytes. -/

namespace Sys2Proof.Machine

def exec (i : Instr) (s : State) : Host.Outcome State Fault Refusal :=
  match i with
  | .lda o => Sys2Proof.Machine.execLda o s
  | .ldx o => Sys2Proof.Machine.execLdx o s
  | .ldhx o => Sys2Proof.Machine.execLdhx o s
  | .sta e => Sys2Proof.Machine.execSta e s
  | .stx e => Sys2Proof.Machine.execStx e s
  | .sthx dd => Sys2Proof.Machine.execSthx dd s
  | .mov o => Sys2Proof.Machine.execMov o s
  | .clr e => Sys2Proof.Machine.execClr e s
  | .clra => Sys2Proof.Machine.execClra s
  | .clrx => Sys2Proof.Machine.execClrx s
  | .clrh => Sys2Proof.Machine.execClrh s
  | .tax => Sys2Proof.Machine.execTax s
  | .txa => Sys2Proof.Machine.execTxa s
  | .tap => Sys2Proof.Machine.execTap s
  | .tpa => Sys2Proof.Machine.execTpa s
  | .tsx => Sys2Proof.Machine.execTsx s
  | .txs => Sys2Proof.Machine.execTxs s
  | .rsp => Sys2Proof.Machine.execRsp s
  | .psha => Sys2Proof.Machine.execPsha s
  | .pshh => Sys2Proof.Machine.execPshh s
  | .pshx => Sys2Proof.Machine.execPshx s
  | .pula => Sys2Proof.Machine.execPula s
  | .pulh => Sys2Proof.Machine.execPulh s
  | .pulx => Sys2Proof.Machine.execPulx s
  | .adc o => Sys2Proof.Machine.execAdc o s
  | .add o => Sys2Proof.Machine.execAdd o s
  | .sub o => Sys2Proof.Machine.execSub o s
  | .sbc o => Sys2Proof.Machine.execSbc o s
  | .cmp o => Sys2Proof.Machine.execCmp o s
  | .cpx o => Sys2Proof.Machine.execCpx o s
  | .cphx o => Sys2Proof.Machine.execCphx o s
  | .ais ii => Sys2Proof.Machine.execAis ii s
  | .aix ii => Sys2Proof.Machine.execAix ii s
  | .inc e => Sys2Proof.Machine.execInc e s
  | .inca => Sys2Proof.Machine.execInca s
  | .incx => Sys2Proof.Machine.execIncx s
  | .dec e => Sys2Proof.Machine.execDec e s
  | .deca => Sys2Proof.Machine.execDeca s
  | .decx => Sys2Proof.Machine.execDecx s
  | .neg e => Sys2Proof.Machine.execNeg e s
  | .nega => Sys2Proof.Machine.execNega s
  | .negx => Sys2Proof.Machine.execNegx s
  | .tst e => Sys2Proof.Machine.execTst e s
  | .tsta => Sys2Proof.Machine.execTsta s
  | .tstx => Sys2Proof.Machine.execTstx s
  | .mul => Sys2Proof.Machine.execMul s
  | .div => Sys2Proof.Machine.execDiv s
  | .daa => Sys2Proof.Machine.execDaa s
  | .and o => Sys2Proof.Machine.execAnd o s
  | .ora o => Sys2Proof.Machine.execOra o s
  | .eor o => Sys2Proof.Machine.execEor o s
  | .bit o => Sys2Proof.Machine.execBit o s
  | .com e => Sys2Proof.Machine.execCom e s
  | .coma => Sys2Proof.Machine.execComa s
  | .comx => Sys2Proof.Machine.execComx s
  | .nsa => Sys2Proof.Machine.execNsa s
  | .lsl e => Sys2Proof.Machine.execLsl e s
  | .lsla => Sys2Proof.Machine.execLsla s
  | .lslx => Sys2Proof.Machine.execLslx s
  | .asl e => Sys2Proof.Machine.execAsl e s
  | .asla => Sys2Proof.Machine.execAsla s
  | .aslx => Sys2Proof.Machine.execAslx s
  | .asr e => Sys2Proof.Machine.execAsr e s
  | .asra => Sys2Proof.Machine.execAsra s
  | .asrx => Sys2Proof.Machine.execAsrx s
  | .lsr e => Sys2Proof.Machine.execLsr e s
  | .lsra => Sys2Proof.Machine.execLsra s
  | .lsrx => Sys2Proof.Machine.execLsrx s
  | .rol e => Sys2Proof.Machine.execRol e s
  | .rola => Sys2Proof.Machine.execRola s
  | .rolx => Sys2Proof.Machine.execRolx s
  | .ror e => Sys2Proof.Machine.execRor e s
  | .rora => Sys2Proof.Machine.execRora s
  | .rorx => Sys2Proof.Machine.execRorx s
  | .bset n dd => Sys2Proof.Machine.execBset n dd s
  | .bclr n dd => Sys2Proof.Machine.execBclr n dd s
  | .clc => Sys2Proof.Machine.execClc s
  | .sec => Sys2Proof.Machine.execSec s
  | .bra rr => Sys2Proof.Machine.execBra rr s
  | .brn rr => Sys2Proof.Machine.execBrn rr s
  | .bhi rr => Sys2Proof.Machine.execBhi rr s
  | .bls rr => Sys2Proof.Machine.execBls rr s
  | .bcc rr => Sys2Proof.Machine.execBcc rr s
  | .bhs rr => Sys2Proof.Machine.execBhs rr s
  | .bcs rr => Sys2Proof.Machine.execBcs rr s
  | .blo rr => Sys2Proof.Machine.execBlo rr s
  | .bne rr => Sys2Proof.Machine.execBne rr s
  | .beq rr => Sys2Proof.Machine.execBeq rr s
  | .bhcc rr => Sys2Proof.Machine.execBhcc rr s
  | .bhcs rr => Sys2Proof.Machine.execBhcs rr s
  | .bpl rr => Sys2Proof.Machine.execBpl rr s
  | .bmi rr => Sys2Proof.Machine.execBmi rr s
  | .bmc rr => Sys2Proof.Machine.execBmc rr s
  | .bms rr => Sys2Proof.Machine.execBms rr s
  | .bil rr => Sys2Proof.Machine.execBil rr s
  | .bih rr => Sys2Proof.Machine.execBih rr s
  | .bge rr => Sys2Proof.Machine.execBge rr s
  | .blt rr => Sys2Proof.Machine.execBlt rr s
  | .bgt rr => Sys2Proof.Machine.execBgt rr s
  | .ble rr => Sys2Proof.Machine.execBle rr s
  | .brset n dd rr => Sys2Proof.Machine.execBrset n dd rr s
  | .brclr n dd rr => Sys2Proof.Machine.execBrclr n dd rr s
  | .cbeq o rr => Sys2Proof.Machine.execCbeq o rr s
  | .cbeqa ii rr => Sys2Proof.Machine.execCbeqa ii rr s
  | .cbeqx ii rr => Sys2Proof.Machine.execCbeqx ii rr s
  | .dbnz e rr => Sys2Proof.Machine.execDbnz e rr s
  | .dbnza rr => Sys2Proof.Machine.execDbnza rr s
  | .dbnzx rr => Sys2Proof.Machine.execDbnzx rr s
  | .bsr rr => Sys2Proof.Machine.execBsr rr s
  | .jmp e => Sys2Proof.Machine.execJmp e s
  | .jsr e => Sys2Proof.Machine.execJsr e s
  | .rts => Sys2Proof.Machine.execRts s
  | .nop => Sys2Proof.Machine.execNop s
  | .sei => Sys2Proof.Machine.execSei s
  | .cli => Sys2Proof.Machine.execCli s
  | .swi => Sys2Proof.Machine.execSwi s
  | .rti => Sys2Proof.Machine.execRti s
  | .wait => Sys2Proof.Machine.execWait s
  | .stop => Sys2Proof.Machine.execStop s

end Sys2Proof.Machine
end

