-- ==== Sys2Proof/Machine/Boundary.lean ====
section
/-!
DEFINITION. What happens at an instruction boundary (spec/60_exceptions.md rules R335, R344 to R349): the fetch of an
instruction's bytes, running one instruction, and the choice between reset, interrupt entry, halting and execution.
-/

namespace Sys2Proof.Machine

/-- How many operand bytes the opcode in a map cell takes; an unassigned opcode takes none. -/
def operandsOf (c : Option OpCell) : Nat :=
  match c with
  | some c => c.operands
  | none => 0

/-- `n` operand bytes, 0 to 2, from address `a` upward; the ones not asked for are 0 and are not read. -/
def fetchOperands (s : State) (a : Word) (n : Nat) : Res (Byte × Byte) :=
  match n with
  | 0 => .next (0, 0)
  | 1 => Res.bind (readCode s a) fun p => .next (p, 0)
  | _ => Res.bind (readCode s a) fun p => Res.bind (readCode s (a + 1)) fun q => .next (p, q)

/-- Fetch and decode the instruction at PC: exactly its own bytes are read, at increasing addresses modulo 65536 (rules
R51, R81, R93, R98). -/
def fetch (s : State) : Res Decoded :=
  Res.bind (readCode s s.pc) fun b0 =>
  if b0 = preByte then
    Res.bind (readCode s (s.pc + 1)) fun b1 =>
    Res.bind (fetchOperands s (s.pc + 2) (operandsOf (page2 b1))) fun (p, q) => .next (decode b0 b1 p q)
  else
    Res.bind (fetchOperands s (s.pc + 1) (operandsOf (page1 b0))) fun (p, q) => .next (decode b0 p q 0)

/-- The bytes of an unassigned encoding: one opcode byte, or the pre-byte and the byte after it (rule R81). -/
def unassignedLength (op : Word) : Nat := if hiByte op = preByte then 2 else 1

/-- One of the `length` bytes from PC upward was stored by the instruction before (rules R63, R380). -/
def State.storedInto (s : State) (length : Nat) : Bool :=
  (List.range length).any fun k => s.stored.contains (s.pc + BitVec.ofNat 16 k)

/-- Execute one instruction at PC (rule R335), or raise `IllegalOpcode` (rule R349). An instruction with a byte that the
instruction before stored is refused (rule R63). -/
def runInstruction (s : State) : Res State :=
  Res.bind (fetch s) fun d =>
  match d with
  | .ok i length =>
    if s.storedInto length then .refused (.storeIntoNextInstruction s.pc)
    else exec i (s.begin length (instrCycles i))
  | .unassigned op =>
    if s.storedInto (unassignedLength op) then .refused (.storeIntoNextInstruction s.pc)
    else
      match s.cfg.illegalOpcode with
      | .fault => .fault (.illegalOpcode op)
      | .reset => enterReset s

/-- The request taken at this boundary, if any: running with I = 0 and no `cli_shadow`, any asserted request (rule R335);
waiting, any asserted request (rule R346); stopped, an asserted request of `stop_wake` (rule R347). Always the lowest n
(rule R336). -/
def State.taken (s : State) : Option Nat :=
  match s.runState with
  | .running => if s.ccr.i || s.cliShadow then none else lowestRequest s.lines.pending
  | .waiting => lowestRequest s.lines.pending
  | .stopped => lowestRequest (s.lines.pending &&& s.cfg.stopWake)

/-- One boundary with the lines as the state has them: reset first, then a request, then the next instruction or, while
waiting or stopped, nothing (rules R335, R345 to R347). -/
def atBoundary (s : State) : Res State :=
  if s.lines.reset then enterReset s
  else
    match s.taken with
    | some n => interruptEntry n s
    | none =>
      match s.runState with
      | .running => runInstruction s
      | .waiting => .next s
      | .stopped => .next s

/-- One step: the environment presents its lines, then the boundary. -/
def boundary (s : State) : Res State := atBoundary s.sample

/-- Bytes placed in memory from address `a` upward modulo 65536, whatever the map says the addresses are: the loading of a
program image from outside the machine, not a store of the CPU. -/
def loadBytes : List Byte → Word → Memory → Memory
  | [], _, m => m
  | b :: bs, a, m => loadBytes bs (a + 1) (m.write a.toNat b)

/-- A program's bytes loaded at PC, with no trace of an earlier instruction's stores. -/
def State.withBytesAtPc (s : State) (bs : List Byte) : State := { s with mem := loadBytes bs s.pc s.mem, stored := [] }

end Sys2Proof.Machine
end

