-- ==== Sys2Proof/Machine/Step.lean ====
section
/-!
DEFINITION. The step of the machine (spec/60_exceptions.md rule R335), with its three outcomes, and the placing of a word of
spec/opcode_table.json where the step fetches.
-/

namespace Sys2Proof.Machine

/-- One step: one instruction boundary and the event or instruction that follows it. -/
def step (s : State) : Host.Outcome State Fault Refusal := boundary s

/-- The state with the instruction of a table word stored at PC, where the step fetches its next instruction. -/
def State.withFetchWord (s : State) (nbits w : Nat) : State := s.withBytesAtPc (tableBytes nbits w)

end Sys2Proof.Machine
end

