-- ==== Sys2Proof/Safety.lean ====
section
/-!
DEFINITION. What counts as a safe run, in the terms claims use: a run that meets no fault (an illegal opcode, an
unimplemented address) and no refusal (code or a vector in a device register, a store into
the next instruction).
-/

namespace Sys2Proof

/-- An outcome that goes on. -/
def goesOn {α β γ : Type} : Host.Outcome α β γ → Bool
  | .next _ => true
  | .fault _ => false
  | .refused _ => false

/-- `k` steps from `s` meet no fault and no refusal. -/
def safeFor (k : Nat) (s : Machine.State) : Bool := goesOn (core.run k s)

/-- The machine can no longer change by itself: stopped or waiting with nothing that wakes it (rule R379 a, b). -/
def halted (s : Machine.State) : Bool := decide (s.runState ≠ .running) && !s.lines.reset && s.taken.isNone && s.schedule.isEmpty

end Sys2Proof
end

