-- ==== Sys2Proof/Certificates/Slice0/Obligations.lean ====
section
/-!
DEFINITION. The statements for the provers. Each docstring names the rules of spec/ it formalises or rests on; where such a
rule carries the spec's own mark (a decision D<n>, general knowledge, derived), it says so. Four such marks concern many
statements and stand here once: every sum of addresses or pointers modulo 65536 is decision D4; which accesses have a result,
and that a device register answers by the platform's read and write functions, is decision D10; the formulas of N and Z (rule
R121) and of the other flags (rules R122 to R126) are general knowledge that the spec adopts; the order of the two bytes of a
vector is decision D3. A meaning starts with PC already past the instruction (rule R81), so `s.pc` in a statement about `exec`
is the address of the next instruction.
-/

namespace Sys2Proof.Claims

open Sys2Proof.Machine

/-! ### The vocabulary of the statements -/

/-- The operand `opnd8` of rule R129: an immediate, or what a read of the effective address gives (`State.data`: the byte of RAM
or ROM, or what the device supplies). -/
def Operand8 (o : Opnd8) (s : State) (m : Byte) : Prop :=
  match o with
  | .imm ii => m = ii
  | .mem e => s.mapped (effectiveAddress e s) = true ∧ m = s.data (effectiveAddress e s)

/-- The operand `opnd16` of rule R129: an immediate, or the two bytes from the direct address upward, high byte first. -/
def Operand16 (o : Opnd16) (s : State) (v : Word) : Prop :=
  match o with
  | .imm w => v = w
  | .dir dd =>
    s.mapped (directAddress dd) = true ∧ s.mapped (directAddress dd + 1) = true ∧
      v.toNat = 256 * (s.data (directAddress dd)).toNat + (s.data (directAddress dd + 1)).toNat

/-- The bytes `hi` and `lo` are the two halves of `v`, `hi` the more significant. -/
def Halves (hi lo : Byte) (v : Word) : Prop := 256 * hi.toNat + lo.toNat = v.toNat

/-- N and Z from an 8-bit result (rule R121). -/
def nz8 (f : Ccr) (r : Byte) : Ccr := { f with n := r.getLsbD 7, z := decide (r.toNat = 0) }

/-- N and Z from a 16-bit result (rule R121). -/
def nz16 (f : Ccr) (r : Word) : Ccr := { f with n := r.getLsbD 15, z := decide (r.toNat = 0) }

/-- A signed number that no byte holds. -/
def outside8 (n : Int) : Bool := decide (n < -128) || decide (127 < n)

/-- A signed number that no 16-bit word holds. -/
def outside16 (n : Int) : Bool := decide (n < -32768) || decide (32767 < n)

/-- 1 for a set flag, 0 for a clear one. -/
def bit (b : Bool) : Nat := if b then 1 else 0

/-- The byte the flags make with the two constant bits of `ccr65`: V, the two bits, H, I, N, Z, C from bit 7 down (rules
R26, R27). -/
def StatusByte (s : State) (b : Byte) : Prop :=
  b.toNat =
    128 * bit s.ccr.v + 32 * s.cfg.ccr65.toNat + 16 * bit s.ccr.h + 8 * bit s.ccr.i + 4 * bit s.ccr.n + 2 * bit s.ccr.z +
      bit s.ccr.c

/-- The flags are the bits 7, 4, 3, 2, 1, 0 of a byte (rules R26, R27). -/
def FlagsOf (f : Ccr) (b : Byte) : Prop :=
  f.v = b.getLsbD 7 ∧ f.h = b.getLsbD 4 ∧ f.i = b.getLsbD 3 ∧ f.n = b.getLsbD 2 ∧ f.z = b.getLsbD 1 ∧ f.c = b.getLsbD 0

/-- `p` is the target of a relative branch: PC plus the signed offset, modulo 65536 (rule R120). -/
def BranchTarget (s : State) (rr : Byte) (p : Word) : Prop := (p.toNat : Int) = ((s.pc.toNat : Int) + rr.toInt) % 65536

/-- The RAM addresses among those stored to in this order, the latest first: what an instruction adds to `stored`. -/
def ramStores (s : State) (addresses : List Word) : List Word := (addresses.filter fun a => s.kindAt a == .ram).reverse

/-- The devices' state after the listed cells were stored in this order: their write function for each device register. -/
def devicesAfter (s : State) (cells : List (Word × Byte)) : Nat :=
  cells.foldl (fun q c => if s.kindAt c.1 = .device then deviceWrite s.cfg s.draws q c.1 c.2 else q) s.device

/-- `t` is `after` but for memory and devices, where exactly the listed cells were stored into the state `s`: at a RAM address
the byte is the listed one, at any other it is what it was, every other address reads as before, and the devices went on by
their write function. (`stored` is left to `Stores` and `Enters`.) -/
def AfterStores (s t after : State) (cells : List (Word × Byte)) : Prop :=
  t = { after with mem := t.mem, stored := t.stored, device := devicesAfter s cells } ∧
    (∀ c ∈ cells, t.peek c.1 = if s.kindAt c.1 = .ram then c.2 else s.peek c.1) ∧
      ∀ b : Word, b ∉ cells.map Prod.fst → t.peek b = s.peek b

/-- The outcome `r` is a next state that `AfterStores` describes, and `stored` has the RAM addresses stored to. -/
def Stores (r : Res State) (s after : State) (cells : List (Word × Byte)) : Prop :=
  ∃ t, r = .next t ∧ AfterStores s t after cells ∧ t.stored = ramStores s (cells.map Prod.fst) ++ s.stored

/-- Memory is in its canonical form and an access to any listed address has a result: none is unimplemented. -/
def Storable (s : State) (addresses : List Word) : Prop := s.mem.wf = true ∧ ∀ a ∈ addresses, s.mapped a = true

/-- A read-modify-write instruction in its three forms: in memory (one byte is read, the same byte is stored), on A, on X.
`Result` relates the old flags, the operand, the result and the new flags. -/
def ReadModifyWrite (inMemory : Ea → Instr) (onA onX : Instr) (Result : Ccr → Byte → Byte → Ccr → Prop) : Prop :=
  ∀ (s : State) (r : Byte) (f : Ccr),
    (∀ e, Storable s [effectiveAddress e s] → Result s.ccr (s.data (effectiveAddress e s)) r f →
      Stores (exec (inMemory e) s) s { s with ccr := f } [(effectiveAddress e s, r)]) ∧
    (Result s.ccr s.a r f → exec onA s = .next { s with a := r, ccr := f }) ∧
    (Result s.ccr s.x r f → exec onX s = .next { s with x := r, ccr := f })

/-- A two-operand instruction on A whose operand is immediate or in memory: `Result` relates the state, the operand, the new
A and the new flags. -/
def AccumulatorOp (op : Opnd8 → Instr) (Result : State → Byte → Byte → Ccr → Prop) : Prop :=
  ∀ (o : Opnd8) (s : State) (m r : Byte) (f : Ccr), Operand8 o s m → Result s m r f →
    exec (op o) s = .next { s with a := r, ccr := f }

/-- `r` and `f` are the sum `a + m + c` modulo 256 and the flags of an addition: V where the signed sum leaves the byte, H
and C the carries out of bits 3 and 7 (rule R122). -/
def IsSum (old : Ccr) (a m : Byte) (c : Nat) (r : Byte) (f : Ccr) : Prop :=
  r.toNat = (a.toNat + m.toNat + c) % 256 ∧
    f = nz8 { old with
      v := outside8 (a.toInt + m.toInt + c)
      h := decide (15 < a.toNat % 16 + m.toNat % 16 + c)
      c := decide (255 < a.toNat + m.toNat + c) } r

/-- `r` and `f` are the difference `a - m - c` modulo 256 and the flags of a subtraction: V where the signed difference
leaves the byte, C the borrow, H kept (rule R123). -/
def IsDifference (old : Ccr) (a m : Byte) (c : Nat) (r : Byte) (f : Ccr) : Prop :=
  (r.toNat : Int) = ((a.toNat : Int) - m.toNat - c) % 256 ∧
    f = nz8 { old with v := outside8 (a.toInt - m.toInt - c), c := decide (a.toNat < m.toNat + c) } r

/-- V cleared, N and Z from the value (rule R127). -/
def plain (f : Ccr) (r : Byte) : Ccr := nz8 { f with v := false } r

/-! ### Encodings -/

/-- The second bytes after the pre-byte that rule R87 lists as assigned. -/
def pageTwoOpcodes : List Byte :=
  [0x60, 0x61, 0x63, 0x64, 0x66, 0x67, 0x68, 0x69, 0x6A, 0x6B, 0x6C, 0x6D, 0x6F,
    0xD0, 0xD1, 0xD2, 0xD3, 0xD4, 0xD5, 0xD6, 0xD7, 0xD8, 0xD9, 0xDA, 0xDB, 0xDE, 0xDF,
    0xE0, 0xE1, 0xE2, 0xE3, 0xE4, 0xE5, 0xE6, 0xE7, 0xE8, 0xE9, 0xEA, 0xEB, 0xEE, 0xEF]

/-- The unassigned encodings of rule R87, by their first two bytes. -/
def Unassigned (b0 b1 : Byte) : Prop :=
  b0 ∈ ([0x32, 0x3E, 0x82, 0x8D, 0x96, 0xAC] : List Byte) ∨ (b0 = 0x9E ∧ b1 ∉ pageTwoOpcodes)

/-- The length of an instruction from its first two bytes, as rule R93's table gives it by opcode ranges. -/
def lengthByOpcode (b0 b1 : Byte) : Nat :=
  if b0 = 0x9E then
    if b1 = 0x61 ∨ b1 = 0x6B then 4 else if b1.toNat / 16 = 0xD then 4 else 3
  else
    match b0.toNat / 16 with
    | 0x0 => 3
    | 0x1 => 2
    | 0x2 => 2
    | 0x3 => if b0 = 0x31 ∨ b0 = 0x3B then 3 else 2
    | 0x4 => if b0 = 0x41 ∨ b0 = 0x45 ∨ b0 = 0x4E then 3 else if b0 = 0x4B then 2 else 1
    | 0x5 => if b0 = 0x51 then 3 else if b0 = 0x55 ∨ b0 = 0x5B ∨ b0 = 0x5E then 2 else 1
    | 0x6 => if b0 = 0x61 ∨ b0 = 0x65 ∨ b0 = 0x6B ∨ b0 = 0x6E then 3 else if b0 = 0x62 then 1 else 2
    | 0x7 => if b0 = 0x71 ∨ b0 = 0x75 ∨ b0 = 0x7B ∨ b0 = 0x7E then 2 else 1
    | 0x8 => 1
    | 0x9 => if b0.toNat ≤ 0x93 then 2 else 1
    | 0xA => 2
    | 0xB => 2
    | 0xC => 3
    | 0xD => 3
    | 0xE => 2
    | _ => 1

/-- The bus cycles of the page-1 opcodes by high and low nibble (rule R377, the Encoding lines of the instructions' rules); 0
where no opcode is assigned. -/
def pageOneCycles : List (List Nat) :=
  [ [5, 5, 5, 5, 5, 5, 5, 5, 5, 5, 5, 5, 5, 5, 5, 5],
    [4, 4, 4, 4, 4, 4, 4, 4, 4, 4, 4, 4, 4, 4, 4, 4],
    [3, 3, 3, 3, 3, 3, 3, 3, 3, 3, 3, 3, 3, 3, 3, 3],
    [4, 5, 0, 4, 4, 4, 4, 4, 4, 4, 4, 5, 4, 3, 0, 3],
    [1, 4, 5, 1, 1, 3, 1, 1, 1, 1, 1, 3, 1, 1, 5, 1],
    [1, 4, 7, 1, 1, 4, 1, 1, 1, 1, 1, 3, 1, 1, 4, 1],
    [4, 5, 3, 4, 4, 3, 4, 4, 4, 4, 4, 5, 4, 3, 4, 3],
    [3, 4, 2, 3, 3, 4, 3, 3, 3, 3, 3, 4, 3, 2, 4, 2],
    [7, 4, 0, 9, 2, 1, 2, 2, 2, 2, 2, 2, 1, 0, 1, 1],
    [3, 3, 3, 3, 2, 2, 0, 1, 1, 1, 2, 2, 1, 1, 0, 1],
    [2, 2, 2, 2, 2, 2, 2, 2, 2, 2, 2, 2, 0, 4, 2, 2],
    [3, 3, 3, 3, 3, 3, 3, 3, 3, 3, 3, 3, 2, 4, 3, 3],
    [4, 4, 4, 4, 4, 4, 4, 4, 4, 4, 4, 4, 3, 5, 4, 4],
    [4, 4, 4, 4, 4, 4, 4, 4, 4, 4, 4, 4, 4, 6, 4, 4],
    [3, 3, 3, 3, 3, 3, 3, 3, 3, 3, 3, 3, 3, 5, 3, 3],
    [2, 2, 2, 2, 2, 2, 2, 2, 2, 2, 2, 2, 3, 4, 2, 2] ]

/-- The bus cycles of the page-2 opcodes with high nibble 6, D and E (rule R377). -/
def pageTwoCycles (high : Nat) : List Nat :=
  if high = 0x6 then [5, 6, 0, 5, 5, 0, 5, 5, 5, 5, 5, 6, 5, 4, 0, 4]
  else if high = 0xD then [5, 5, 5, 5, 5, 5, 5, 5, 5, 5, 5, 5, 0, 0, 5, 5]
  else [4, 4, 4, 4, 4, 4, 4, 4, 4, 4, 4, 4, 0, 0, 4, 4]

/-- The bus cycles of an instruction from its first two bytes. -/
def cyclesByOpcode (b0 b1 : Byte) : Nat :=
  if b0 = 0x9E then (pageTwoCycles (b1.toNat / 16)).getD (b1.toNat % 16) 0
  else (pageOneCycles.getD (b0.toNat / 16) []).getD (b0.toNat % 16) 0

/-- The bit instruction of an opcode byte $00 to $1F with the bytes after it, by the bits of the opcode (rule R86): bit 4
selects BSET and BCLR, bits 3-1 are n, bit 0 selects the clear forms. -/
def bitInstruction (op dd rr : Byte) : Instr :=
  match op.getLsbD 4, op.getLsbD 0 with
  | false, false => .brset (op.extractLsb' 1 3) dd rr
  | false, true => .brclr (op.extractLsb' 1 3) dd rr
  | true, false => .bset (op.extractLsb' 1 3) dd
  | true, true => .bclr (op.extractLsb' 1 3) dd

end Sys2Proof.Claims

open Sys2Proof Sys2Proof.Machine Sys2Proof.Claims

/-- Decode and encode agree: the bytes of a well-formed instruction, whatever follows them, decode to that instruction (by
its first name, rule R96) and its length. Rests on rules R81, R83, R85, R86, R91, R92, R93. -/
def Obligations.DecodeInvertsEncode : Prop :=
  ∀ (i : Instr) (rest : List Byte), i.wellFormed = true →
    decodeBytes (encode i ++ rest) = .ok i.canonical (encode i).length

/-- Every decoded instruction is well-formed, goes by its first name, is 1 to 4 bytes long, and its encoding is exactly the
bytes it was decoded from. Rests on rules R80, R81, R83, R93, R96. -/
def Obligations.DecodedInstructionsEncodeBack : Prop :=
  ∀ (b0 b1 b2 b3 : Byte) (i : Instr) (n : Nat), decode b0 b1 b2 b3 = .ok i n →
    i.wellFormed = true ∧ i.canonical = i ∧ 1 ≤ n ∧ n ≤ 4 ∧ encode i = [b0, b1, b2, b3].take n

/-- The unassigned encodings are exactly those of rule R87 (the spec marks the list as derived from its table), and the
decoder names each by its opcode byte, or by $9E and the byte after it (rule R81). -/
def Obligations.UnassignedEncodings : Prop :=
  ∀ b0 b1 b2 b3 : Byte,
    (Unassigned b0 b1 →
      decode b0 b1 b2 b3 =
        .unassigned (if b0 = 0x9E then BitVec.ofNat 16 (256 * 0x9E + b1.toNat) else BitVec.ofNat 16 b0.toNat)) ∧
    (¬Unassigned b0 b1 → ∃ i n, decode b0 b1 b2 b3 = .ok i n)

/-- The length of every instruction is the one that rule R93's table gives its opcode (the spec marks the table as derived
from the map of rule R85), and its bus cycles are those of rule R377 (the 3 of `JMP ,X` as printed, rule R378). -/
def Obligations.LengthsAndCycles : Prop :=
  ∀ (b0 b1 b2 b3 : Byte) (i : Instr) (n : Nat), decode b0 b1 b2 b3 = .ok i n →
    n = lengthByOpcode b0 b1 ∧ instrCycles i = cyclesByOpcode b0 b1

/-- The 32 opcodes $00 to $1F are the bit instructions, selected by the bits of the opcode as rule R86 says: BRSET n at
$00 + 2n, BRCLR n at $01 + 2n, BSET n at $10 + 2n, BCLR n at $11 + 2n. -/
def Obligations.BitInstructionOpcodes : Prop :=
  (∀ op dd rr b3 : Byte, op.toNat < 0x20 →
    decode op dd rr b3 = .ok (bitInstruction op dd rr) (if op.getLsbD 4 then 2 else 3)) ∧
  ∀ (n : BitVec 3) (dd rr : Byte),
    encode (.brset n dd rr) = [BitVec.ofNat 8 (0x00 + 2 * n.toNat), dd, rr] ∧
    encode (.brclr n dd rr) = [BitVec.ofNat 8 (0x01 + 2 * n.toNat), dd, rr] ∧
    encode (.bset n dd) = [BitVec.ofNat 8 (0x10 + 2 * n.toNat), dd] ∧
    encode (.bclr n dd) = [BitVec.ofNat 8 (0x11 + 2 * n.toNat), dd]

/-- A few instruction words, one of each family, written out from the Encoding lines of their rules (in order: R140 twice,
R145, R146, R181, R186, R189, R220, R226, R231, R261, R282, R283, R284, R287, R313; the map of rule R85 holds them all): they
decode to the instructions they stand for. -/
def Obligations.SampleWordsDecode : Prop :=
  decodeBytes [0xA6, 0x80] = .ok (.lda (.imm 0x80)) 2 ∧
  decodeBytes [0x9E, 0xD6, 0x12, 0x34] = .ok (.lda (.mem (.sp2 0x1234))) 4 ∧
  decodeBytes [0x35, 0x60] = .ok (.sthx 0x60) 2 ∧
  decodeBytes [0x4E, 0x11, 0x22] = .ok (.mov (.dd 0x11 0x22)) 3 ∧
  decodeBytes [0xCB, 0x12, 0x34] = .ok (.add (.mem (.ext 0x1234))) 3 ∧
  decodeBytes [0x65, 0x12, 0x34] = .ok (.cphx (.imm 0x1234)) 3 ∧
  decodeBytes [0x9E, 0x6C, 0x01] = .ok (.inc (.sp1 0x01)) 3 ∧
  decodeBytes [0xF4] = .ok (.and (.mem .ix)) 1 ∧
  decodeBytes [0x68, 0x05] = .ok (.lsl (.ix1 0x05)) 2 ∧
  decodeBytes [0x16, 0x20] = .ok (.bset 3 0x20) 2 ∧
  decodeBytes [0x20, 0xFE] = .ok (.bra 0xFE) 2 ∧
  decodeBytes [0x0F, 0x40, 0xFD] = .ok (.brclr 7 0x40 0xFD) 3 ∧
  decodeBytes [0x61, 0x02, 0x10] = .ok (.cbeq (.ix1Plus 0x02) 0x10) 3 ∧
  decodeBytes [0x9E, 0x6B, 0x01, 0xFC] = .ok (.dbnz (.sp1 0x01) 0xFC) 4 ∧
  decodeBytes [0xDD, 0x00, 0x10] = .ok (.jsr (.ix2 0x0010)) 3 ∧
  decodeBytes [0x83] = .ok .swi 1

/-! ### Addresses and the stops of an access -/

/-- The effective address of every mode as a number, from H, X and SP (rules R112 to R118; the sums modulo 65536 are the
spec's decision D4), CBEQ's addresses among them (rules R117, R119). -/
def Obligations.EffectiveAddresses : Prop :=
  ∀ (s : State) (dd ff : Byte) (w : Word),
    (directAddress dd).toNat = dd.toNat ∧
    effectiveAddress (.dir dd) s = directAddress dd ∧
    effectiveAddress (.ext w) s = w ∧
    (effectiveAddress (.ix2 w) s).toNat = (256 * s.h.toNat + s.x.toNat + w.toNat) % 65536 ∧
    (effectiveAddress (.ix1 ff) s).toNat = (256 * s.h.toNat + s.x.toNat + ff.toNat) % 65536 ∧
    (effectiveAddress .ix s).toNat = 256 * s.h.toNat + s.x.toNat ∧
    (effectiveAddress (.sp2 w) s).toNat = (s.sp.toNat + w.toNat) % 65536 ∧
    (effectiveAddress (.sp1 ff) s).toNat = (s.sp.toNat + ff.toNat) % 65536 ∧
    cbeqAddress (.dir dd) s = directAddress dd ∧
    (cbeqAddress (.ix1Plus ff) s).toNat = (256 * s.h.toNat + s.x.toNat + ff.toNat) % 65536 ∧
    (cbeqAddress .ixPlus s).toNat = 256 * s.h.toNat + s.x.toNat ∧
    (cbeqAddress (.sp1 ff) s).toNat = (s.sp.toNat + ff.toNat) % 65536

namespace Sys2Proof.Claims

/-- After the lines of the boundary are presented, nothing comes before the next instruction: reset is not asserted, no
request is taken, the CPU runs. -/
def ReachesInstruction (u : State) : Prop := u.lines.reset = false ∧ u.taken = none ∧ u.runState = .running

/-- What the four bytes from PC upward decode to. -/
def decodedAtPc (u : State) : Decoded :=
  decode (u.peek u.pc) (u.peek (u.pc + 1)) (u.peek (u.pc + 2)) (u.peek (u.pc + 3))

/-- How many bytes of them are fetched: the instruction's, or the one or two of an unassigned encoding (rule R81). -/
def lengthAtPc (u : State) : Nat :=
  match decodedAtPc u with
  | .ok _ n => n
  | .unassigned _ => if u.peek u.pc = 0x9E then 2 else 1

/-- The `n` bytes from PC upward are RAM or ROM. -/
def Fetchable (u : State) (n : Nat) : Prop := ∀ k < n, u.holdsCode (u.pc + BitVec.ofNat 16 k) = true

/-- The instruction before stored none of the `n` bytes from PC upward. -/
def Unstored (u : State) (n : Nat) : Prop := ∀ k < n, u.pc + BitVec.ofNat 16 k ∉ u.stored

/-- The addresses an instruction stores to, from the state it starts in, in the order of its stores
(rules R56, R58). -/
def storeAddresses (i : Instr) (s : State) : List Word :=
  match i with
  | .sta e | .stx e | .clr e | .inc e | .dec e | .neg e | .com e | .lsl e | .asl e | .asr e | .lsr e | .rol e | .ror e =>
    [effectiveAddress e s]
  | .dbnz e _ => [effectiveAddress e s]
  | .sthx dd => [directAddress dd, directAddress dd + 1]
  | .bset _ dd | .bclr _ dd => [directAddress dd]
  | .mov (.dd _ dst) | .mov (.imd _ dst) | .mov (.ixPlusD dst) => [directAddress dst]
  | .mov (.dixPlus _) => [s.hx]
  | .psha | .pshh | .pshx => [s.sp]
  | .bsr _ | .jsr _ => [s.sp, s.sp - 1]
  | .swi => [s.sp, s.sp - 1, s.sp - 2, s.sp - 3, s.sp - 4]
  | _ => []

/-- One access of an instruction or event: of data, or of code (a byte of an instruction, a byte of a vector). -/
inductive Access where
  | data (a : Word)
  | code (a : Word)

/-- How an access stops, if it does: at an unimplemented address by a fault, at a device register by a refusal where it is an
access of code. -/
def Access.stop (s : State) : Access → Option (Res State)
  | .data a => if s.kindAt a = .unimplemented then some (.fault (.unimplementedAddress a)) else none
  | .code a =>
    if s.kindAt a = .unimplemented then some (.fault (.unimplementedAddress a))
    else if s.kindAt a = .device then some (.refused (.codeInDevice a)) else none

/-- The outcome `r` as the accesses in their order decide it: the first that stops is its outcome; where none stops, it is a
next state. -/
def DecidedBy (r : Res State) (s : State) (l : List Access) : Prop :=
  (∀ o, l.findSome? (Access.stop s) = some o → r = o) ∧ (l.findSome? (Access.stop s) = none → ∃ t, r = .next t)

/-- The five pushes of an exception, then its vector (rules R313, R337). -/
def entryAccesses (s : State) (vector : Word) : List Access :=
  [.data s.sp, .data (s.sp - 1), .data (s.sp - 2), .data (s.sp - 3), .data (s.sp - 4), .code vector, .code (vector + 1)]

/-- The accesses of an instruction after its own bytes, in their order (rules R56, R58; a read-modify-write accesses one
address). -/
def accesses (i : Instr) (s : State) : List Access :=
  match i with
  | .lda (.mem e) | .ldx (.mem e) | .adc (.mem e) | .add (.mem e) | .sub (.mem e) | .sbc (.mem e) | .cmp (.mem e)
  | .cpx (.mem e) | .and (.mem e) | .ora (.mem e) | .eor (.mem e) | .bit (.mem e) => [.data (effectiveAddress e s)]
  | .sta e | .stx e | .clr e | .tst e | .inc e | .dec e | .neg e | .com e | .lsl e | .asl e | .asr e | .lsr e | .rol e
  | .ror e => [.data (effectiveAddress e s)]
  | .dbnz e _ => [.data (effectiveAddress e s)]
  | .cbeq o _ => [.data (cbeqAddress o s)]
  | .ldhx (.dir dd) | .cphx (.dir dd) | .sthx dd => [.data (directAddress dd), .data (directAddress dd + 1)]
  | .bset _ dd | .bclr _ dd | .brset _ dd _ | .brclr _ dd _ => [.data (directAddress dd)]
  | .mov (.dd src dst) => [.data (directAddress src), .data (directAddress dst)]
  | .mov (.dixPlus src) => [.data (directAddress src), .data s.hx]
  | .mov (.imd _ dst) => [.data (directAddress dst)]
  | .mov (.ixPlusD dst) => [.data s.hx, .data (directAddress dst)]
  | .psha | .pshh | .pshx => [.data s.sp]
  | .pula | .pulh | .pulx => [.data (s.sp + 1)]
  | .bsr _ | .jsr _ => [.data s.sp, .data (s.sp - 1)]
  | .rts => [.data (s.sp + 1), .data (s.sp + 2)]
  | .rti => [.data (s.sp + 1), .data (s.sp + 2), .data (s.sp + 3), .data (s.sp + 4), .data (s.sp + 5)]
  | .swi => entryAccesses s 0xFFFC
  | _ => []

/-- An entry of the devices' read function is for the register at `a` and the devices' present state. -/
def ReadEntryFits (s : State) (a : Word) (r : DeviceRead) : Prop := r.address = a ∧ (r.state = none ∨ r.state = some s.device)

/-- An entry of the devices' write function is for the register at `a`, the byte `v` and the devices' present state. -/
def WriteEntryFits (s : State) (a : Word) (v : Byte) (r : DeviceWrite) : Prop :=
  r.address = a ∧ (r.state = none ∨ r.state = some s.device) ∧ (r.value = none ∨ r.value = some v)

end Sys2Proof.Claims

/-- For every instruction, for interrupt entry, for the reset event and for the fetch: the first access that has no result stops
it, an unimplemented address by a fault (rule R62, decision D11), code or a vector in a device register by a refusal (decision
D10); where every access has a result, the instruction or event completes. That the one is a fault and the other a refusal is
the model's choice, notes/assumptions/7.md and 8.md. -/
def Obligations.AccessesOutsideMemoryStop : Prop :=
  (∀ (i : Instr) (s : State), DecidedBy (exec i s) s (accesses i s)) ∧
  (∀ (n : Nat) (vector : Word) (s : State), n < 126 → vector.toNat = 0xFFFA - 2 * n →
    DecidedBy (interruptEntry n s) s (entryAccesses s vector)) ∧
  (∀ s : State, DecidedBy (enterReset s) s [.code 0xFFFE, .code 0xFFFF]) ∧
  ∀ (s u : State) (k : Nat) (o : Res State), u = s.sample → ReachesInstruction u → k < lengthAtPc u → Fetchable u k →
    Access.stop u (.code (u.pc + BitVec.ofNat 16 k)) = some o → step s = o

/-- The device registers answer by the platform's read and write functions (parameter `memmap`, decision D10, rules R60, R64):
where an entry is the first that fits, a load gets its value, a store moves the devices to its next state and changes no byte of
memory, and a read-modify-write does the one and then the other. How the functions are held, and free values where no entry
fits, are the model's choice, notes/assumptions/7.md. -/
def Obligations.DeviceRegisters : Prop :=
  ∀ (s : State) (e : Ea) (a : Word), a = effectiveAddress e s → s.kindAt a = .device →
    (∀ before r after, s.cfg.deviceReads = before ++ r :: after → (∀ q ∈ before, ¬ReadEntryFits s a q) → ReadEntryFits s a r →
      exec (.lda (.mem e)) s = .next { s with a := r.value, ccr := plain s.ccr r.value } ∧
      exec (.cmp (.mem e)) s = exec (.cmp (.imm r.value)) s ∧
      ∀ v before2 w after2, v.toNat = (r.value.toNat + 1) % 256 → s.cfg.deviceWrites = before2 ++ w :: after2 →
        (∀ q ∈ before2, ¬WriteEntryFits s a v q) → WriteEntryFits s a v w →
          exec (.inc e) s =
            .next { s with device := w.next, ccr := nz8 { s.ccr with v := outside8 (r.value.toInt + 1) } v }) ∧
    ∀ before w after, s.cfg.deviceWrites = before ++ w :: after → (∀ q ∈ before, ¬WriteEntryFits s a s.a q) →
      WriteEntryFits s a s.a w → exec (.sta e) s = .next { s with device := w.next, ccr := plain s.ccr s.a }

/-! ### Loads, stores, transfers -/

/-- LDA, LDX, LDHX, TST, TSTA and TSTX complete for every readable operand: the register (none for the tests) gets the value,
V is cleared, N and Z follow it, and nothing else changes (rules R140, R141, R142, R192; flags of rules R121, R127). -/
def Obligations.LoadsAndTests : Prop :=
  (∀ (o : Opnd8) (s : State) (m : Byte), Operand8 o s m →
    exec (.lda o) s = .next { s with a := m, ccr := plain s.ccr m } ∧
    exec (.ldx o) s = .next { s with x := m, ccr := plain s.ccr m }) ∧
  (∀ (o : Opnd16) (s : State) (v : Word) (hi lo : Byte), Operand16 o s v → Halves hi lo v →
    exec (.ldhx o) s = .next { s with h := hi, x := lo, ccr := nz16 { s.ccr with v := false } v }) ∧
  (∀ (e : Ea) (s : State), s.mapped (effectiveAddress e s) = true →
    exec (.tst e) s = .next { s with ccr := plain s.ccr (s.data (effectiveAddress e s)) }) ∧
  ∀ s : State,
    exec .tsta s = .next { s with ccr := plain s.ccr s.a } ∧ exec .tstx s = .next { s with ccr := plain s.ccr s.x }

/-- STA, STX and STHX complete where the addresses are RAM, ROM or device registers: the bytes are stored at the effective
address (STHX: H at the direct address, X at the next), V is cleared, N and Z follow the value stored, and no other byte and no
register changes (rules R143, R144, R145, R50; flags of rules R121, R127). -/
def Obligations.StoreInstructions : Prop :=
  (∀ (e : Ea) (s : State), Storable s [effectiveAddress e s] →
    Stores (exec (.sta e) s) s { s with ccr := plain s.ccr s.a } [(effectiveAddress e s, s.a)] ∧
    Stores (exec (.stx e) s) s { s with ccr := plain s.ccr s.x } [(effectiveAddress e s, s.x)]) ∧
  ∀ (dd : Byte) (s : State), Storable s [directAddress dd, directAddress dd + 1] →
    Stores (exec (.sthx dd) s) s { s with ccr := nz16 { s.ccr with v := false } s.hx }
      [(directAddress dd, s.h), (directAddress dd + 1, s.x)]

/-- MOV in its four modes: the source byte is stored at the destination, the X+ modes then add 1 to H:X modulo 65536, V is
cleared, N and Z follow the byte, nothing else changes (rules R128, R146; flags of rules R121, R127). -/
def Obligations.MovInstruction : Prop :=
  ∀ (s : State) (ii src dst hi lo : Byte),
    (s.mapped (directAddress src) = true → Storable s [directAddress dst] →
      Stores (exec (.mov (.dd src dst)) s) s { s with ccr := plain s.ccr (s.data (directAddress src)) }
        [(directAddress dst, s.data (directAddress src))]) ∧
    (Storable s [directAddress dst] →
      Stores (exec (.mov (.imd ii dst)) s) s { s with ccr := plain s.ccr ii } [(directAddress dst, ii)]) ∧
    (256 * hi.toNat + lo.toNat = (256 * s.h.toNat + s.x.toNat + 1) % 65536 →
      (s.mapped (directAddress src) = true → Storable s [s.hx] →
        Stores (exec (.mov (.dixPlus src)) s) s
          { s with h := hi, x := lo, ccr := plain s.ccr (s.data (directAddress src)) }
          [(s.hx, s.data (directAddress src))]) ∧
      (s.mapped s.hx = true → Storable s [directAddress dst] →
        Stores (exec (.mov (.ixPlusD dst)) s) s { s with h := hi, x := lo, ccr := plain s.ccr (s.data s.hx) }
          [(directAddress dst, s.data s.hx)]))

/-- CLR, CLRA, CLRX and CLRH: the byte or register becomes $00, V and N are cleared, Z is set, C and everything else are
kept (rule R147; flags of rule R127). -/
def Obligations.ClearInstructions : Prop :=
  ∀ (s : State) (f : Ccr), f = { s.ccr with v := false, n := false, z := true } →
    (∀ e, Storable s [effectiveAddress e s] →
      Stores (exec (.clr e) s) s { s with ccr := f } [(effectiveAddress e s, 0x00)]) ∧
    exec .clra s = .next { s with a := 0x00, ccr := f } ∧
    exec .clrx s = .next { s with x := 0x00, ccr := f } ∧
    exec .clrh s = .next { s with h := 0x00, ccr := f }

/-- TAX, TXA and RSP: encoding, bus cycles and effect; no flag and nothing else changes (rules R148, R149, R154). -/
def Obligations.RegisterTransfers : Prop :=
  (encode .tax = [0x97] ∧ encode .txa = [0x9F] ∧ encode .rsp = [0x9C]) ∧
  (instrCycles .tax = 1 ∧ instrCycles .txa = 1 ∧ instrCycles .rsp = 1) ∧
  ∀ s : State,
    exec .tax s = .next { s with x := s.a } ∧
    exec .txa s = .next { s with a := s.x } ∧
    ∀ p : Word, p.toNat = s.sp.toNat / 256 * 256 + 0xFF → exec .rsp s = .next { s with sp := p }

/-- TAP loads the six flags from the bits of A, ignoring bits 6 and 5; TPA gives A the byte of the flags and `ccr65`; nothing
else changes but `cli_shadow`, which TAP sets exactly where `cli_delay = one` and I goes from 1 to 0 (rules R150, R151,
R348; bits 6 and 5 are decision D1, `cli_delay` is decision D15, notes/assumptions/5.md). -/
def Obligations.CcrTransfers : Prop :=
  ∀ s : State,
    (∀ f : Ccr, FlagsOf f s.a →
      exec .tap s =
        .next { s with ccr := f, cliShadow := decide (s.cfg.cliDelay = .one ∧ s.ccr.i = true ∧ s.a.getLsbD 3 = false) }) ∧
    ∀ b : Byte, StatusByte s b → exec .tpa s = .next { s with a := b }

/-- PSHA, PSHH, PSHX store the register at the address in SP and subtract 1 from SP; PULA, PULH, PULX add 1 to SP and load the
register from there; modulo 65536, no flag and nothing else changes (rules R155 to R160, with their encodings and cycles; the
wrap is decision D4). -/
def Obligations.PushesAndPulls : Prop :=
  (encode .psha = [0x87] ∧ encode .pshh = [0x8B] ∧ encode .pshx = [0x89] ∧ encode .pula = [0x86] ∧ encode .pulh = [0x8A] ∧
    encode .pulx = [0x88]) ∧
  (∀ i ∈ ([.psha, .pshh, .pshx, .pula, .pulh, .pulx] : List Instr), instrCycles i = 2) ∧
  ∀ (s : State) (p : Word),
    ((p.toNat + 1) % 65536 = s.sp.toNat → Storable s [s.sp] →
      Stores (exec .psha s) s { s with sp := p } [(s.sp, s.a)] ∧
      Stores (exec .pshh s) s { s with sp := p } [(s.sp, s.h)] ∧
      Stores (exec .pshx s) s { s with sp := p } [(s.sp, s.x)]) ∧
    (p.toNat = (s.sp.toNat + 1) % 65536 → s.mapped p = true →
      exec .pula s = .next { s with sp := p, a := s.data p } ∧
      exec .pulh s = .next { s with sp := p, h := s.data p } ∧
      exec .pulx s = .next { s with sp := p, x := s.data p })

/-! ### Arithmetic -/

/-- ADD and ADC complete for every readable operand: A is the sum modulo 256 (ADC with the old C), the flags are those of
an addition, nothing else changes (rules R180, R181, R122; the spec marks the formulas of H and V as general knowledge). -/
def Obligations.Additions : Prop :=
  AccumulatorOp .add (fun s m r f => IsSum s.ccr s.a m 0 r f) ∧
  AccumulatorOp .adc (fun s m r f => IsSum s.ccr s.a m (bit s.ccr.c) r f)

/-- SUB and SBC give A the difference modulo 256 (SBC less the old C) and the flags of a subtraction; CMP and CPX set the same
flags from A or X less the operand and change no register; H is kept by all four (rules R182 to R185, R123; the spec marks the
formulas as general knowledge). -/
def Obligations.Subtractions : Prop :=
  AccumulatorOp .sub (fun s m r f => IsDifference s.ccr s.a m 0 r f) ∧
  AccumulatorOp .sbc (fun s m r f => IsDifference s.ccr s.a m (bit s.ccr.c) r f) ∧
  AccumulatorOp .cmp (fun s m r f => r = s.a ∧ ∃ d, IsDifference s.ccr s.a m 0 d f) ∧
  AccumulatorOp .cpx (fun s m r f => r = s.a ∧ ∃ d, IsDifference s.ccr s.x m 0 d f)

/-- CPHX sets the flags of the 16-bit difference H:X less the operand and changes no register (rules R186, R124; the spec
marks the formulas as general knowledge). -/
def Obligations.CompareIndexRegister : Prop :=
  ∀ (o : Opnd16) (s : State) (m r : Word), Operand16 o s m →
    (r.toNat : Int) = ((256 * s.h.toNat + s.x.toNat : Nat) - (m.toNat : Int)) % 65536 →
    exec (.cphx o) s = .next { s with
      ccr := nz16 { s.ccr with
        v := outside16 (s.hx.toInt - m.toInt)
        c := decide (256 * s.h.toNat + s.x.toNat < m.toNat) } r }

/-- TSX gives H:X the value SP + 1 and TXS gives SP the value H:X - 1; AIS and AIX add the signed immediate to SP and to H:X;
all modulo 65536, no flag and nothing else changes (rules R152, R153, R187, R188; the wrap is decision D4). -/
def Obligations.PointerArithmetic : Prop :=
  ∀ (ii : Byte) (s : State),
    (∀ hi lo : Byte, 256 * hi.toNat + lo.toNat = (s.sp.toNat + 1) % 65536 →
      exec .tsx s = .next { s with h := hi, x := lo }) ∧
    (∀ p : Word, (p.toNat + 1) % 65536 = 256 * s.h.toNat + s.x.toNat → exec .txs s = .next { s with sp := p }) ∧
    (∀ p : Word, (p.toNat : Int) = ((s.sp.toNat : Int) + ii.toInt) % 65536 → exec (.ais ii) s = .next { s with sp := p }) ∧
    ∀ hi lo : Byte, ((256 * hi.toNat + lo.toNat : Nat) : Int) = ((256 * s.h.toNat + s.x.toNat : Nat) + ii.toInt) % 65536 →
      exec (.aix ii) s = .next { s with h := hi, x := lo }

/-- INC, INCA, INCX add 1 and DEC, DECA, DECX subtract 1 modulo 256; V where the signed result leaves the byte, N and Z from
the result, C and H kept, X forms keep register H, nothing else changes (rules R189, R190, R125). -/
def Obligations.IncrementsAndDecrements : Prop :=
  ReadModifyWrite .inc .inca .incx
    (fun old v r f => r.toNat = (v.toNat + 1) % 256 ∧ f = nz8 { old with v := outside8 (v.toInt + 1) } r) ∧
  ReadModifyWrite .dec .deca .decx
    (fun old v r f => (r.toNat + 1) % 256 = v.toNat ∧ f = nz8 { old with v := outside8 (v.toInt - 1) } r)

/-- NEG, NEGA, NEGX give the two's complement with C where the operand is not zero and V where the result leaves the byte;
COM, COMA, COMX give $FF less the operand with V cleared and C set; N and Z from the result, nothing else changes (rules R191,
R125, R224, R127). -/
def Obligations.NegationsAndComplements : Prop :=
  ReadModifyWrite .neg .nega .negx
    (fun old v r f => (r.toNat + v.toNat) % 256 = 0 ∧
      f = nz8 { old with v := outside8 (-v.toInt), c := decide (v.toNat ≠ 0) } r) ∧
  ReadModifyWrite .com .coma .comx
    (fun old v r f => r.toNat = 255 - v.toNat ∧ f = nz8 { old with v := false, c := true } r)

/-- MUL: X:A is the product of X and A as unsigned numbers, the flags H and C are cleared, register H, the other flags and
everything else are kept; encoding and cycles (rule R193). -/
def Obligations.Multiply : Prop :=
  encode .mul = [0x42] ∧ instrCycles .mul = 5 ∧
  ∀ (s : State) (hi lo : Byte), 256 * hi.toNat + lo.toNat = s.x.toNat * s.a.toNat →
    exec .mul s = .next { s with x := hi, a := lo, ccr := { s.ccr with h := false, c := false } }

/-- DIV: where H is below X, A is the quotient and H the remainder of H:A by X, Z says that the quotient is zero and C is
cleared; else (X = 0 or the quotient needs more than 8 bits) it still completes with C set, and only A, H, Z (free values) and
the count of draws are open. X and everything else are kept (rule R194; Z, C and the free values are decision D17,
notes/assumptions/10.md). -/
def Obligations.Divide : Prop :=
  ∀ s : State,
    (∀ q r : Byte, 256 * s.h.toNat + s.a.toNat = q.toNat * s.x.toNat + r.toNat → r.toNat < s.x.toNat →
      exec .div s = .next { s with a := q, h := r, ccr := { s.ccr with z := decide (q.toNat = 0), c := false } }) ∧
    (s.x.toNat ≤ s.h.toNat →
      ∃ t, exec .div s = .next t ∧
        t = { s with a := t.a, h := t.h, ccr := { s.ccr with z := t.ccr.z, c := true }, draws := t.draws })

namespace Sys2Proof.Claims

/-- Rule R195's table: C, the range of the high nibble, the flag H, the range of the low nibble, the number added, the new C. -/
def daaRows : List DaaRow :=
  [ ⟨false, 0, 9, false, 0, 9, 0x00, false⟩, ⟨false, 0, 8, false, 10, 15, 0x06, false⟩,
    ⟨false, 0, 9, true, 0, 3, 0x06, false⟩, ⟨false, 10, 15, false, 0, 9, 0x60, true⟩,
    ⟨false, 9, 15, false, 10, 15, 0x66, true⟩, ⟨false, 10, 15, true, 0, 3, 0x66, true⟩,
    ⟨true, 0, 2, false, 0, 9, 0x60, true⟩, ⟨true, 0, 2, false, 10, 15, 0x66, true⟩,
    ⟨true, 0, 3, true, 0, 3, 0x66, true⟩ ]

/-- The row is for the flags and the accumulator of `s`. -/
def RowMatches (s : State) (row : DaaRow) : Prop :=
  row.c = s.ccr.c ∧ row.h = s.ccr.h ∧ row.hiMin ≤ s.a.toNat / 16 ∧ s.a.toNat / 16 ≤ row.hiMax ∧
    row.loMin ≤ s.a.toNat % 16 ∧ s.a.toNat % 16 ≤ row.loMax

/-- A packed-BCD byte: each nibble is a decimal digit. -/
def Bcd (b : Byte) : Prop := b.toNat / 16 ≤ 9 ∧ b.toNat % 16 ≤ 9

/-- The decimal number of a packed-BCD byte. -/
def decimal (b : Byte) : Nat := 10 * (b.toNat / 16) + b.toNat % 16

end Sys2Proof.Claims

/-- DAA completes always, by the parameter `daa_fn`, whose default is rule R195's table. Where a row is the first that matches, A
is A plus the row's number modulo 256, C the row's, N and Z from the result, and only V (a free value) is open; where none
matches, only A, V, N, Z, C (free values) are open. Register H, the flags H and I and everything else are kept (rule R195, whose
table is the spec's default from general knowledge, decision D18, notes/assumptions/11.md). -/
def Obligations.DecimalAdjust : Prop :=
  Config.default.daaFn = daaRows ∧
  ∀ s : State,
    (∀ before row after, s.cfg.daaFn = before ++ row :: after → (∀ q ∈ before, ¬RowMatches s q) → RowMatches s row →
      ∀ r : Byte, r.toNat = (s.a.toNat + row.add.toNat) % 256 →
        ∃ t, exec .daa s = .next t ∧
          t = { s with a := r, ccr := nz8 { s.ccr with v := t.ccr.v, c := row.newC } r, draws := t.draws }) ∧
    ((∀ row ∈ s.cfg.daaFn, ¬RowMatches s row) →
      ∃ t, exec .daa s = .next t ∧
        t = { s with
          a := t.a
          ccr := { s.ccr with v := t.ccr.v, n := t.ccr.n, z := t.ccr.z, c := t.ccr.c }
          draws := t.draws })

/-- With the default `daa_fn`, ADD or ADC of two packed-BCD bytes followed by DAA gives the packed-BCD sum modulo 100, with C
where it exceeds 99 (rules R180, R181, R195; the table is the spec's default from general knowledge, decision D18). -/
def Obligations.DecimalAddition : Prop :=
  ∀ (o : Opnd8) (s : State) (m : Byte), s.cfg.daaFn = daaRows → Operand8 o s m → Bcd s.a → Bcd m →
    (∃ t u, exec (.add o) s = .next t ∧ exec .daa t = .next u ∧ Bcd u.a ∧
      decimal u.a = (decimal s.a + decimal m) % 100 ∧ u.ccr.c = decide (99 < decimal s.a + decimal m)) ∧
    ∃ t u, exec (.adc o) s = .next t ∧ exec .daa t = .next u ∧ Bcd u.a ∧
      decimal u.a = (decimal s.a + decimal m + bit s.ccr.c) % 100 ∧
      u.ccr.c = decide (99 < decimal s.a + decimal m + bit s.ccr.c)

/-! ### Logic, shifts, bits -/

/-- AND, ORA and EOR give A the bit-by-bit result, BIT changes no register; V is cleared, N and Z follow the result, nothing
else changes (rules R220 to R223; flags of rules R121, R127). -/
def Obligations.LogicalOperations : Prop :=
  AccumulatorOp .and (fun s m r f => (∀ k < 8, r.getLsbD k = (s.a.getLsbD k && m.getLsbD k)) ∧ f = plain s.ccr r) ∧
  AccumulatorOp .ora (fun s m r f => (∀ k < 8, r.getLsbD k = (s.a.getLsbD k || m.getLsbD k)) ∧ f = plain s.ccr r) ∧
  AccumulatorOp .eor (fun s m r f => (∀ k < 8, r.getLsbD k = (s.a.getLsbD k ^^ m.getLsbD k)) ∧ f = plain s.ccr r) ∧
  AccumulatorOp .bit (fun s m r f => r = s.a ∧
    ∃ d : Byte, (∀ k < 8, d.getLsbD k = (s.a.getLsbD k && m.getLsbD k)) ∧ f = plain s.ccr d)

/-- LSL, LSLA, LSLX and their second names ASL, ASLA, ASLX double the operand modulo 256: C is the bit shifted out, V says
that the signed double leaves the byte, N and Z follow the result, nothing else changes (rules R226, R126, R96; the spec marks
the formula of V as general knowledge). -/
def Obligations.LeftShifts : Prop :=
  ReadModifyWrite .lsl .lsla .lslx
    (fun old v r f => r.toNat = 2 * v.toNat % 256 ∧
      f = nz8 { old with v := outside8 (2 * v.toInt), c := decide (128 ≤ v.toNat) } r) ∧
  ReadModifyWrite .asl .asla .aslx
    (fun old v r f => r.toNat = 2 * v.toNat % 256 ∧
      f = nz8 { old with v := outside8 (2 * v.toInt), c := decide (128 ≤ v.toNat) } r)

/-- ASR, ASRA, ASRX halve the signed operand rounding down, LSR, LSRA, LSRX the unsigned one; C is the bit shifted out, N and Z
follow the result, V is N xor C, nothing else changes (rules R227, R228, R126; the spec marks the formula of V as general
knowledge). -/
def Obligations.RightShifts : Prop :=
  ReadModifyWrite .asr .asra .asrx
    (fun old v r f => r.toInt = v.toInt / 2 ∧
      f = nz8 { old with v := r.getLsbD 7 ^^ decide (v.toNat % 2 = 1), c := decide (v.toNat % 2 = 1) } r) ∧
  ReadModifyWrite .lsr .lsra .lsrx
    (fun old v r f => r.toNat = v.toNat / 2 ∧
      f = { old with v := decide (v.toNat % 2 = 1), n := false, z := decide (r.toNat = 0), c := decide (v.toNat % 2 = 1) })

/-- ROL, ROLA, ROLX and ROR, RORA, RORX rotate the nine bits of C and the operand by one place; N and Z follow the result, V is
N xor the new C, nothing else changes (rules R229, R230, R126; the spec marks the formula of V as general knowledge). -/
def Obligations.Rotates : Prop :=
  ReadModifyWrite .rol .rola .rolx
    (fun old v r f => r.toNat = (2 * v.toNat + bit old.c) % 256 ∧
      f = nz8 { old with v := r.getLsbD 7 ^^ decide (128 ≤ v.toNat), c := decide (128 ≤ v.toNat) } r) ∧
  ReadModifyWrite .ror .rora .rorx
    (fun old v r f => r.toNat = v.toNat / 2 + 128 * bit old.c ∧
      f = nz8 { old with v := r.getLsbD 7 ^^ decide (v.toNat % 2 = 1), c := decide (v.toNat % 2 = 1) } r)

/-- BSET n and BCLR n store the direct-page byte with bit n set or cleared and its other bits as read; no flag, no register
and no other byte changes (rules R231, R232, R59). -/
def Obligations.BitSetAndClear : Prop :=
  ∀ (n : BitVec 3) (dd r : Byte) (s : State), Storable s [directAddress dd] →
    ((∀ k < 8, r.getLsbD k = (if k = n.toNat then true else (s.data (directAddress dd)).getLsbD k)) →
      Stores (exec (.bset n dd) s) s s [(directAddress dd, r)]) ∧
    ((∀ k < 8, r.getLsbD k = (if k = n.toNat then false else (s.data (directAddress dd)).getLsbD k)) →
      Stores (exec (.bclr n dd) s) s s [(directAddress dd, r)])

/-- NSA swaps the nibbles of A; CLC and SEC write C; SEI sets I; NOP does nothing; each with its encoding and cycles, and
nothing else changes (rules R225, R233, R234, R310, R311). -/
def Obligations.InherentOperations : Prop :=
  (encode .nsa = [0x62] ∧ encode .clc = [0x98] ∧ encode .sec = [0x99] ∧ encode .nop = [0x9D] ∧ encode .sei = [0x9B]) ∧
  (instrCycles .nsa = 3 ∧ instrCycles .clc = 1 ∧ instrCycles .sec = 1 ∧ instrCycles .nop = 1 ∧ instrCycles .sei = 2) ∧
  ∀ s : State,
    (∀ r : Byte, r.toNat = 16 * (s.a.toNat % 16) + s.a.toNat / 16 → exec .nsa s = .next { s with a := r }) ∧
    exec .clc s = .next { s with ccr := { s.ccr with c := false } } ∧
    exec .sec s = .next { s with ccr := { s.ccr with c := true } } ∧
    exec .nop s = .next s ∧
    exec .sei s = .next { s with ccr := { s.ccr with i := true } }

/-! ### Control transfer -/

namespace Sys2Proof.Claims

/-- The 2-byte branches that test flags: instruction, opcode byte and condition (rules R261 to R274, R277 to R280). -/
def flagBranches : List ((Byte → Instr) × Byte × (Ccr → Bool)) :=
  [ (.bra, 0x20, fun _ => true), (.brn, 0x21, fun _ => false),
    (.bhi, 0x22, fun f => decide (f.c = false ∧ f.z = false)), (.bls, 0x23, fun f => decide (f.c = true ∨ f.z = true)),
    (.bcc, 0x24, fun f => decide (f.c = false)), (.bhs, 0x24, fun f => decide (f.c = false)),
    (.bcs, 0x25, fun f => decide (f.c = true)), (.blo, 0x25, fun f => decide (f.c = true)),
    (.bne, 0x26, fun f => decide (f.z = false)), (.beq, 0x27, fun f => decide (f.z = true)),
    (.bhcc, 0x28, fun f => decide (f.h = false)), (.bhcs, 0x29, fun f => decide (f.h = true)),
    (.bpl, 0x2A, fun f => decide (f.n = false)), (.bmi, 0x2B, fun f => decide (f.n = true)),
    (.bmc, 0x2C, fun f => decide (f.i = false)), (.bms, 0x2D, fun f => decide (f.i = true)),
    (.bge, 0x90, fun f => decide (f.n = f.v)), (.blt, 0x91, fun f => decide (f.n ≠ f.v)),
    (.bgt, 0x92, fun f => decide (f.z = false ∧ f.n = f.v)), (.ble, 0x93, fun f => decide (f.z = true ∨ f.n ≠ f.v)) ]

end Sys2Proof.Claims

/-- The 20 branches on flags (BRA BRN BHI BLS BCC BHS BCS BLO BNE BEQ BHCC BHCS BPL BMI BMC BMS BGE BLT BGT BLE): encoding
`op rr`, 3 cycles, PC becomes the target where the condition holds and stays past the branch where it does not, and no flag,
register or byte of memory changes (rules R260 to R274, R277 to R280; the wrap of the target is decision D4). -/
def Obligations.FlagBranches : Prop :=
  ∀ row ∈ flagBranches, ∀ rr : Byte,
    encode (row.1 rr) = [row.2.1, rr] ∧ instrCycles (row.1 rr) = 3 ∧
    ∀ (s : State) (p : Word), BranchTarget s rr p →
      exec (row.1 rr) s = .next { s with pc := if row.2.2 s.ccr then p else s.pc }

/-- BIL and BIH branch on the level of the IRQ pin and change nothing but PC; BRSET n and BRCLR n copy bit n of a direct-page
byte to C, branch where it is 1 or 0, and change nothing else (rules R275, R276, R281, R282; the pin as an input is decision
D22, C as the tested bit is the spec's general knowledge). -/
def Obligations.PinAndBitBranches : Prop :=
  ∀ (s : State) (rr dd : Byte) (p : Word) (n : BitVec 3), BranchTarget s rr p →
    exec (.bil rr) s = .next { s with pc := if s.lines.irqPin = false then p else s.pc } ∧
    exec (.bih rr) s = .next { s with pc := if s.lines.irqPin = true then p else s.pc } ∧
    (s.mapped (directAddress dd) = true →
      ∀ b : Bool, b = (s.data (directAddress dd)).getLsbD n.toNat →
        exec (.brset n dd rr) s = .next { s with ccr := { s.ccr with c := b }, pc := if b = true then p else s.pc } ∧
        exec (.brclr n dd rr) s = .next { s with ccr := { s.ccr with c := b }, pc := if b = false then p else s.pc })

/-- CBEQ, CBEQA and CBEQX branch where the register equals the operand and change no flag; the IX+ and IX1+ modes add 1 to H:X
modulo 65536 whether or not the branch is taken; nothing else changes (rules R283, R119). -/
def Obligations.CompareAndBranch : Prop :=
  ∀ (s : State) (rr ii dd ff : Byte) (p : Word), BranchTarget s rr p →
    exec (.cbeqa ii rr) s = .next { s with pc := if s.a = ii then p else s.pc } ∧
    exec (.cbeqx ii rr) s = .next { s with pc := if s.x = ii then p else s.pc } ∧
    (∀ o : CbeqOpnd, o = .dir dd ∨ o = .sp1 ff → s.mapped (cbeqAddress o s) = true →
      exec (.cbeq o rr) s = .next { s with pc := if s.a = s.data (cbeqAddress o s) then p else s.pc }) ∧
    ∀ o : CbeqOpnd, o = .ix1Plus ff ∨ o = .ixPlus → s.mapped (cbeqAddress o s) = true →
      ∀ hi lo : Byte, 256 * hi.toNat + lo.toNat = (256 * s.h.toNat + s.x.toNat + 1) % 65536 →
        exec (.cbeq o rr) s =
          .next { s with h := hi, x := lo, pc := if s.a = s.data (cbeqAddress o s) then p else s.pc }

/-- DBNZ, DBNZA and DBNZX subtract 1 modulo 256 and branch where the result is not zero; no flag, register H or other byte
changes (rule R284). -/
def Obligations.DecrementAndBranch : Prop :=
  ∀ (s : State) (rr r : Byte) (p q : Word), BranchTarget s rr p → q = (if r.toNat = 0 then s.pc else p) →
    (∀ e, Storable s [effectiveAddress e s] → (r.toNat + 1) % 256 = (s.data (effectiveAddress e s)).toNat →
      Stores (exec (.dbnz e rr) s) s { s with pc := q } [(effectiveAddress e s, r)]) ∧
    ((r.toNat + 1) % 256 = s.a.toNat → exec (.dbnza rr) s = .next { s with a := r, pc := q }) ∧
    ((r.toNat + 1) % 256 = s.x.toNat → exec (.dbnzx rr) s = .next { s with x := r, pc := q })

/-- BSR and JSR push the return address, low byte at SP and high byte at SP - 1, subtract 2 from SP and go to the target; no
flag, register or other byte changes (rules R285, R287, R53). -/
def Obligations.Calls : Prop :=
  ∀ (s : State) (hi lo : Byte), Storable s [s.sp, s.sp - 1] → Halves hi lo s.pc →
    (∀ (rr : Byte) (p : Word), BranchTarget s rr p →
      Stores (exec (.bsr rr) s) s { s with sp := s.sp - 2, pc := p } [(s.sp, lo), (s.sp - 1, hi)]) ∧
    ∀ e, Stores (exec (.jsr e) s) s { s with sp := s.sp - 2, pc := effectiveAddress e s } [(s.sp, lo), (s.sp - 1, hi)]

/-- JMP goes to the effective address itself, whatever that address is; RTS goes to the address whose high byte is at SP + 1 and
low byte at SP + 2, and adds 2 to SP; nothing else changes (rules R286, R288). -/
def Obligations.JumpAndReturn : Prop :=
  ∀ s : State,
    (∀ e, exec (.jmp e) s = .next { s with pc := effectiveAddress e s }) ∧
    (s.mapped (s.sp + 1) = true → s.mapped (s.sp + 2) = true →
      ∀ p : Word, Halves (s.data (s.sp + 1)) (s.data (s.sp + 2)) p →
        exec .rts s = .next { s with sp := s.sp + 2, pc := p })

/-! ### System instructions and events -/

/-- CLI clears I; WAIT and STOP clear I and halt; every other flag and register is kept; CLI sets `cli_shadow` exactly where
`cli_delay = one` and I was 1 (rules R312, R315, R316, R348; `cli_delay` is decision D15, what WAIT and STOP halt decisions
D13, D14, notes/assumptions/5.md). -/
def Obligations.InterruptMaskClears : Prop :=
  ∀ s : State,
    exec .cli s =
      .next { s with ccr := { s.ccr with i := false }, cliShadow := decide (s.cfg.cliDelay = .one ∧ s.ccr.i = true) } ∧
    exec .wait s = .next { s with ccr := { s.ccr with i := false }, runState := .waiting } ∧
    exec .stop s = .next { s with ccr := { s.ccr with i := false }, runState := .stopped }

namespace Sys2Proof.Claims

/-- What SWI and interrupt entry do from state `s` through the vector at `vector`, as rules R313, R337 and R338 say: PCL, PCH,
X, A and the CCR byte with the old I go to SP, SP - 1, ..., SP - 4, SP loses 5, I is set, PC is the word at the vector as
memory holds it after the pushes; register H, the other flags and everything else are kept. `stored` becomes the given list. -/
def Enters (r : Res State) (s : State) (vector : Word) (stored : List Word) : Prop :=
  ∀ pch pcl status : Byte, Halves pch pcl s.pc → StatusByte s status →
    Storable s [s.sp, s.sp - 1, s.sp - 2, s.sp - 3, s.sp - 4] → s.holdsCode vector = true → s.holdsCode (vector + 1) = true →
    ∃ t, r = .next t ∧ Halves (t.peek vector) (t.peek (vector + 1)) t.pc ∧ t.stored = stored ∧
      AfterStores s t { s with runState := .running, sp := s.sp - 5, pc := t.pc, ccr := { s.ccr with i := true } }
        [(s.sp, pcl), (s.sp - 1, pch), (s.sp - 2, s.x), (s.sp - 3, s.a), (s.sp - 4, status)]

end Sys2Proof.Claims

/-- SWI, while running and whatever I is, stacks five bytes, sets I and goes through the vector $FFFC; H is not stacked; the five
stores are recorded in `stored` as any instruction's (rules R313, R338, R339; its being unmaskable is decision D25, the byte
order of the vector decision D3; the list is the model's own, notes/assumptions/9.md). -/
def Obligations.SoftwareInterrupt : Prop :=
  ∀ s : State, s.runState = .running →
    Enters (exec .swi s) s 0xFFFC (ramStores s [s.sp, s.sp - 1, s.sp - 2, s.sp - 3, s.sp - 4] ++ s.stored)

/-- Interrupt entry for IREQ[n] does the same through the vector at $FFFA - 2n, from any run state, and leaves the CPU running;
the request stays as the environment holds it (rules R331, R333, R337, R338, R339, whose entry sequence is decision D8). That
its pushes are not recorded in `stored` is the model's choice, notes/assumptions/9.md. -/
def Obligations.InterruptEntry : Prop :=
  ∀ (s : State) (n : Nat) (vector : Word), n < 126 → vector.toNat = 0xFFFA - 2 * n →
    Enters (interruptEntry n s) s vector s.stored

/-- RTI loads the six flags, A, X and PC from the five bytes above SP and adds 5 to SP; register H and everything else are
kept (rules R314, R341; bits 6 and 5 of the pulled byte being ignored is decision D9). -/
def Obligations.ReturnFromInterrupt : Prop :=
  ∀ (s : State) (f : Ccr) (p : Word),
    (∀ k ∈ ([1, 2, 3, 4, 5] : List Word), s.mapped (s.sp + k) = true) → FlagsOf f (s.data (s.sp + 1)) →
    Halves (s.data (s.sp + 4)) (s.data (s.sp + 5)) p →
      exec .rti s = .next { s with ccr := f, a := s.data (s.sp + 2), x := s.data (s.sp + 3), pc := p, sp := s.sp + 5 }

/-- A handler returns to where it was entered: after SWI or interrupt entry with the stack in RAM, RTI in any state with the
same SP, memory and map gives back A, X, PC, SP and all six flags, the mask among them, and keeps the handler's register H
(rules R339, R340, R341, R342; the entry sequence is decision D8). -/
def Obligations.HandlerReturnRestores : Prop :=
  ∀ s t u : State, s.mem.wf = true → (∀ k ∈ ([0, 1, 2, 3, 4] : List Word), s.kindAt (s.sp - k) = .ram) →
    (exec .swi s = .next t ∨ ∃ n, interruptEntry n s = .next t) → u.sp = t.sp → u.mem = t.mem → u.cfg = t.cfg →
      exec .rti u = .next { u with a := s.a, x := s.x, pc := s.pc, sp := s.sp, ccr := s.ccr }

/-- A subroutine returns to where it was called: after BSR or JSR with the stack in RAM, RTS in any state with the same SP,
memory and map gives back PC and SP and changes nothing else (rules R53, R285, R287, R288). -/
def Obligations.CallThenReturn : Prop :=
  ∀ s t u : State, s.mem.wf = true → s.kindAt s.sp = .ram → s.kindAt (s.sp - 1) = .ram →
    ((∃ rr, exec (.bsr rr) s = .next t) ∨ ∃ e, exec (.jsr e) s = .next t) → u.sp = t.sp → u.mem = t.mem → u.cfg = t.cfg →
      exec .rts u = .next { u with pc := s.pc, sp := s.sp }

/-- After CMP the branches compare A with the operand: BHI, BLS, BCC (BHS), BCS (BLO) as unsigned numbers, BGE, BLT, BGT, BLE as
signed ones, BEQ and BNE for equality (rules R184, R263 to R268, R277 to R280; it rests on the flag formulas of rule R123,
which the spec marks as general knowledge). -/
def Obligations.BranchesAfterCompare : Prop :=
  ∀ (o : Opnd8) (s t : State) (m rr : Byte) (p : Word), Operand8 o s m → exec (.cmp o) s = .next t → BranchTarget t rr p →
    exec (.bhi rr) t = .next { t with pc := if m.toNat < s.a.toNat then p else t.pc } ∧
    exec (.bls rr) t = .next { t with pc := if s.a.toNat ≤ m.toNat then p else t.pc } ∧
    exec (.bcc rr) t = .next { t with pc := if m.toNat ≤ s.a.toNat then p else t.pc } ∧
    exec (.bhs rr) t = .next { t with pc := if m.toNat ≤ s.a.toNat then p else t.pc } ∧
    exec (.bcs rr) t = .next { t with pc := if s.a.toNat < m.toNat then p else t.pc } ∧
    exec (.blo rr) t = .next { t with pc := if s.a.toNat < m.toNat then p else t.pc } ∧
    exec (.bne rr) t = .next { t with pc := if s.a ≠ m then p else t.pc } ∧
    exec (.beq rr) t = .next { t with pc := if s.a = m then p else t.pc } ∧
    exec (.bge rr) t = .next { t with pc := if m.toInt ≤ s.a.toInt then p else t.pc } ∧
    exec (.blt rr) t = .next { t with pc := if s.a.toInt < m.toInt then p else t.pc } ∧
    exec (.bgt rr) t = .next { t with pc := if m.toInt < s.a.toInt then p else t.pc } ∧
    exec (.ble rr) t = .next { t with pc := if s.a.toInt ≤ m.toInt then p else t.pc }

/-! ### The step -/

namespace Sys2Proof.Claims

/-- Request n counts at this boundary: it is asserted and, if the CPU is stopped, it is one that wakes it. -/
def Asserted (u : State) (n : Nat) : Prop :=
  n < 126 ∧ u.lines.pending.getLsbD n = true ∧ (u.runState = .stopped → u.cfg.stopWake.getLsbD n = true)

/-- The state with other request levels. -/
def withPending (p : BitVec 126) (s : State) : State := { s with lines := { s.lines with pending := p } }

/-- An outcome with its next state changed by `f`. -/
def mapNext (f : State → State) (r : Res State) : Res State :=
  match r with
  | .next s => .next (f s)
  | .fault e => .fault e
  | .refused e => .refused e

/-- What holds at reset and after every step: memory is canonical; with `cli_delay = none` there is never a `cli_shadow`;
`cli_shadow` only while running with I = 0; a waiting or stopped CPU has I = 0; an instruction stored at most five bytes. (The
first and the last clause are about the model's own choices, notes/assumptions/2.md and 9.md.) -/
def BoundaryInv (s : State) : Prop :=
  s.mem.wf = true ∧ (s.cfg.cliDelay = .none → s.cliShadow = false) ∧
    (s.cliShadow = true → s.ccr.i = false ∧ s.runState = .running) ∧ (s.runState ≠ .running → s.ccr.i = false) ∧
      s.stored.length ≤ 5

end Sys2Proof.Claims

/-- A step runs the decoded instruction: where the boundary reaches an instruction whose bytes are RAM or ROM and were not
stored by the instruction before, the step is `exec` of it with PC moved past its bytes, `cli_shadow` cleared, the list of
stored addresses emptied and its bus cycles counted (rules R81, R335, R348, R377; the list is the model's own,
notes/assumptions/9.md). `State.sample` only presents the lines of the boundary and advances the counter of the free values. -/
def Obligations.StepRunsDecodedInstruction : Prop :=
  ∀ (s u : State) (i : Instr) (n : Nat), u = s.sample → ReachesInstruction u → decodedAtPc u = .ok i n → Fetchable u n →
    Unstored u n →
      step s = exec i { u with
        pc := u.pc + BitVec.ofNat 16 n
        cliShadow := false
        stored := []
        cycles := u.cycles + instrCycles i }

/-- An unassigned opcode at PC faults by its name with `illegal_opcode = fault`, and is the Reset event with `illegal_opcode =
reset` (rules R81, R87, R349, decision D6). -/
def Obligations.UnassignedOpcodeStep : Prop :=
  ∀ (s u : State) (n : Nat) (op : Word), u = s.sample → ReachesInstruction u → decodedAtPc u = .unassigned op →
    n = (if u.peek u.pc = 0x9E then 2 else 1) → Fetchable u n → Unstored u n →
      (u.cfg.illegalOpcode = .fault → step s = .fault (.illegalOpcode op)) ∧
      (u.cfg.illegalOpcode = .reset → step s = enterReset u)

/-- An instruction, or an unassigned encoding, with a byte that the instruction before it stored is refused by name: so it is
where the byte is in `stored`, and so it is at the step after an instruction that stored to RAM there. An interrupt entry in
between leaves the list as it is and adds nothing to it (rules R63, R380, decision D19; that an entry's pushes do not count, and
that the list is kept across it, is the model's choice, notes/assumptions/9.md). -/
def Obligations.StoreIntoNextInstructionIsRefused : Prop :=
  (∀ (s u : State) (k : Nat), u = s.sample → ReachesInstruction u → Fetchable u (lengthAtPc u) → k < lengthAtPc u →
    u.pc + BitVec.ofNat 16 k ∈ u.stored → step s = .refused (.storeIntoNextInstruction u.pc)) ∧
  (∀ (s u t v : State) (i : Instr) (n k : Nat), u = s.sample → ReachesInstruction u → decodedAtPc u = .ok i n →
    step s = .next t → v = t.sample → ReachesInstruction v → Fetchable v (lengthAtPc v) → k < lengthAtPc v →
    v.pc + BitVec.ofNat 16 k ∈ storeAddresses i u → v.kindAt (v.pc + BitVec.ofNat 16 k) = .ram →
      step t = .refused (.storeIntoNextInstruction v.pc)) ∧
  ∀ (n : Nat) (s t : State), interruptEntry n s = .next t → t.stored = s.stored

/-- Reset asserted at a boundary, in any run state and whatever is pending: the CPU runs with SP = $00FF, H = $00, I = 1, no
`cli_shadow` and PC the word at $FFFE, high byte first; memory, the lines and the parameters are kept; A, X, the other flags and
the devices are left open (rules R344, R345, R370, R371, which are decisions D2, D3, D21 of the spec, notes/assumptions/17.md). -/
def Obligations.ResetEvent : Prop :=
  ∀ s u : State, u = s.sample → u.lines.reset = true → u.holdsCode 0xFFFE = true → u.holdsCode 0xFFFF = true →
    ∃ t, step s = .next t ∧ Halves (u.peek 0xFFFE) (u.peek 0xFFFF) t.pc ∧ t.sp = 0x00FF ∧ t.h = 0x00 ∧ t.ccr.i = true ∧
      t.runState = .running ∧ t.cliShadow = false ∧ t.mem = u.mem ∧ t.lines = u.lines ∧ t.schedule = u.schedule ∧ t.cfg = u.cfg

/-- The state after reset has the values the spec gives: SP = $00FF, H = $00, I = 1, PC the word at the reset vector of its
memory, running, no `cli_shadow`, no request, bits 6 and 5 of the CCR reading 1 and 1 (rule R371, by its decisions D1, D2, D3,
D12, notes/assumptions/17.md). Nothing is said of A, X and the other flags. -/
def Obligations.ResetState : Prop :=
  State.reset.sp = 0x00FF ∧ State.reset.h = 0x00 ∧ State.reset.ccr.i = true ∧
    Halves (State.reset.peek 0xFFFE) (State.reset.peek 0xFFFF) State.reset.pc ∧ State.reset.runState = .running ∧
    State.reset.cliShadow = false ∧ State.reset.lines.pending = 0 ∧ State.reset.cfg.ccr65 = 0b11

/-- At a boundary without reset, the lowest request that counts is entered: while running with I = 0 and no `cli_shadow`, while
waiting, and while stopped if it is one that wakes the CPU; where no request counts, a waiting or stopped CPU changes nothing
but its view of the lines and the model's counter of the free values (rules R335, R336, R346, R347, which are decisions D7, D8,
D13, D14). -/
def Obligations.RequestsAtABoundary : Prop :=
  ∀ s u : State, u = s.sample → u.lines.reset = false →
    (∀ n, Asserted u n → (∀ m < n, ¬Asserted u m) → (u.runState = .running → u.ccr.i = false ∧ u.cliShadow = false) →
      step s = interruptEntry n u) ∧
    (u.runState ≠ .running → (∀ n, ¬Asserted u n) → step s = .next u)

/-- While running with I = 1, or at the one boundary under `cli_shadow`, requests have no effect whatever: a step from the
state with any other request levels is the same step (rules R30, R334, R335, decisions D15, D28). -/
def Obligations.MaskedRequestsAreInvisible : Prop :=
  ∀ (s : State) (p : BitVec 126), s.schedule = [] → s.runState = .running → (s.ccr.i = true ∨ s.cliShadow = true) →
    step (withPending p s) = mapNext (withPending p) (step s)

/-- Every step keeps the invariant `BoundaryInv`, from every state that has it: what rules R38, R315, R316, R335 and R348 say of
`cli_shadow` and of I while halted (`cli_delay` is decision D15, notes/assumptions/5.md). Two of its clauses are about the model's
own choices: the canonical form of memory (notes/assumptions/2.md), and the at most five addresses in `stored`, to which an
interrupt entry adds nothing (notes/assumptions/9.md). -/
def Obligations.StepKeepsInvariant : Prop := ∀ s t : State, BoundaryInv s → step s = .next t → BoundaryInv t

/-- The state after reset has the invariant `BoundaryInv` (rules R38, R371; its memory and its list of stored addresses are the
model's choice, notes/assumptions/2.md and 9.md). -/
def Obligations.ResetMeetsInvariant : Prop := BoundaryInv State.reset

/-- No step changes a byte of memory at an address that is not RAM: ROM keeps its image (rule R60, decision D10). -/
def Obligations.OnlyRamChanges : Prop :=
  ∀ (s t : State) (a : Word), step s = .next t → s.kindAt a ≠ .ram → t.peek a = s.peek a

/-- The CPU never writes the lines from outside or the parameters: after a step the lines are those the environment presented
at the boundary (the next of its schedule, or the same as before when it has none) and the parameters are as before (rules
R36, R37, R333, decision D12; the schedule is the model's form of the environment, notes/assumptions/6.md). -/
def Obligations.EnvironmentIsOnlyRead : Prop :=
  ∀ s t : State, step s = .next t →
    t.cfg = s.cfg ∧ (s.schedule = [] → t.lines = s.lines ∧ t.schedule = []) ∧
      ∀ l rest, s.schedule = l :: rest → t.lines = l ∧ t.schedule = rest

/-! ### What each instruction may change -/

namespace Sys2Proof.Claims

/-- The instructions that rule R21 lists as having A for a destination. -/
def writesA : Instr → Bool
  | .adc _ | .add _ | .and _ | .eor _ | .lda _ | .ora _ | .sbc _ | .sub _ => true
  | .asla | .lsla | .asra | .clra | .coma | .deca | .dbnza _ | .inca | .lsra | .nega | .rola | .rora => true
  | .daa | .nsa | .pula | .tpa | .txa | .mul | .div | .rti => true
  | _ => false

/-- The instructions that rule R22 lists as writing H:X as a pair. -/
def writesPair : Instr → Bool
  | .aix _ | .ldhx _ | .tsx => true
  | .cbeq (.ix1Plus _) _ | .cbeq .ixPlus _ => true
  | .mov (.dixPlus _) | .mov (.ixPlusD _) => true
  | _ => false

/-- The instructions that rule R22 lists as writing X alone. -/
def writesXAlone : Instr → Bool
  | .ldx _ | .clrx | .comx | .decx | .dbnzx _ | .incx | .aslx | .lslx | .asrx | .lsrx | .negx | .rolx | .rorx => true
  | .pulx | .tax | .mul | .rti => true
  | _ => false

/-- The instructions that rule R22 lists as writing H alone. -/
def writesHAlone : Instr → Bool
  | .clrh | .pulh | .div => true
  | _ => false

/-- The instructions that rule R24 lists as writing SP. -/
def writesSp : Instr → Bool
  | .ais _ | .rsp | .txs | .psha | .pshh | .pshx | .pula | .pulh | .pulx | .bsr _ | .jsr _ | .rts | .swi | .rti => true
  | _ => false

/-- The instructions that rule R25 lists as writing PC explicitly: branches, calls, jumps and returns. -/
def writesPc : Instr → Bool
  | .bra _ | .bhi _ | .bls _ | .bcc _ | .bhs _ | .bcs _ | .blo _ | .bne _ | .beq _ | .bhcc _ | .bhcs _ => true
  | .bpl _ | .bmi _ | .bmc _ | .bms _ | .bil _ | .bih _ | .bge _ | .blt _ | .bgt _ | .ble _ => true
  | .brset _ _ _ | .brclr _ _ _ | .cbeq _ _ | .cbeqa _ _ | .cbeqx _ _ | .dbnz _ _ | .dbnza _ | .dbnzx _ => true
  | .bsr _ | .jmp _ | .jsr _ | .rts | .swi | .rti => true
  | _ => false

/-- A mark of the CCR column (rule R34): not affected, forced, set or cleared according to the results, undefined. -/
inductive Mark where
  | kept
  | forced (b : Bool)
  | byResult
  | undefined

/-- What a mark says of a flag's old and new values; a flag set by results or undefined may be anything. -/
def Mark.Holds (m : Mark) (old new : Bool) : Prop :=
  match m with
  | .kept => new = old
  | .forced b => new = b
  | .byResult => True
  | .undefined => True

/-- The CCR column of an instruction: the marks of V, H, I, N, Z, C. -/
structure Column where
  v : Mark
  h : Mark
  i : Mark
  n : Mark
  z : Mark
  c : Mark

/-- The CCR columns of rule R34's table. -/
def column : Instr → Column
  | .adc _ | .add _ => ⟨.byResult, .byResult, .kept, .byResult, .byResult, .byResult⟩
  | .and _ | .bit _ | .eor _ | .lda _ | .ldhx _ | .ldx _ | .mov _ | .ora _ | .sta _ | .sthx _ | .stx _ | .tst _ | .tsta
  | .tstx => ⟨.forced false, .kept, .kept, .byResult, .byResult, .kept⟩
  | .asl _ | .asla | .aslx | .lsl _ | .lsla | .lslx | .asr _ | .asra | .asrx | .rol _ | .rola | .rolx | .ror _ | .rora
  | .rorx => ⟨.byResult, .kept, .kept, .byResult, .byResult, .byResult⟩
  | .lsr _ | .lsra | .lsrx => ⟨.byResult, .kept, .kept, .forced false, .byResult, .byResult⟩
  | .brclr _ _ _ | .brset _ _ _ => ⟨.kept, .kept, .kept, .kept, .kept, .byResult⟩
  | .clc => ⟨.kept, .kept, .kept, .kept, .kept, .forced false⟩
  | .sec => ⟨.kept, .kept, .kept, .kept, .kept, .forced true⟩
  | .cli | .stop | .wait => ⟨.kept, .kept, .forced false, .kept, .kept, .kept⟩
  | .sei | .swi => ⟨.kept, .kept, .forced true, .kept, .kept, .kept⟩
  | .clr _ | .clra | .clrx | .clrh => ⟨.forced false, .kept, .kept, .forced false, .forced true, .kept⟩
  | .cmp _ | .cphx _ | .cpx _ | .neg _ | .nega | .negx | .sbc _ | .sub _ =>
    ⟨.byResult, .kept, .kept, .byResult, .byResult, .byResult⟩
  | .com _ | .coma | .comx => ⟨.forced false, .kept, .kept, .byResult, .byResult, .forced true⟩
  | .daa => ⟨.undefined, .kept, .kept, .byResult, .byResult, .byResult⟩
  | .dec _ | .deca | .decx | .inc _ | .inca | .incx => ⟨.byResult, .kept, .kept, .byResult, .byResult, .kept⟩
  | .div => ⟨.kept, .kept, .kept, .kept, .byResult, .byResult⟩
  | .mul => ⟨.kept, .forced false, .kept, .kept, .kept, .forced false⟩
  | .rti | .tap => ⟨.byResult, .byResult, .byResult, .byResult, .byResult, .byResult⟩
  | _ => ⟨.kept, .kept, .kept, .kept, .kept, .kept⟩

end Sys2Proof.Claims

/-- For every instruction, an index register half, A or SP changes only where the spec's lists say that the instruction writes
it (the lists of rules R21, R22 and R24). -/
def Obligations.OnlyListedInstructionsWriteRegisters : Prop :=
  ∀ (i : Instr) (s t : State), exec i s = .next t →
    (writesA i = false → t.a = s.a) ∧
    (writesPair i = false → writesXAlone i = false → t.x = s.x) ∧
    (writesPair i = false → writesHAlone i = false → t.h = s.h) ∧
    (writesSp i = false → t.sp = s.sp)

/-- For every instruction: PC stays past the instruction unless rule R25 lists it as writing PC; the CPU halts only by WAIT and
STOP; `cli_shadow` changes only by CLI and TAP; free values are drawn only by DIV and DAA; and no instruction touches the
lines, the schedule, the parameters or the cycle counter (rules R25, R38, R333, R348; the counters and the schedule are the
model's own fields, notes/assumptions/6.md, 10.md, 13.md). -/
def Obligations.OnlyListedInstructionsChangeControl : Prop :=
  ∀ (i : Instr) (s t : State), exec i s = .next t →
    (writesPc i = false → t.pc = s.pc) ∧
    (i ≠ .wait → i ≠ .stop → t.runState = s.runState) ∧
    (i ≠ .cli → i ≠ .tap → t.cliShadow = s.cliShadow) ∧
    (i ≠ .div → i ≠ .daa → t.draws = s.draws) ∧
    t.lines = s.lines ∧ t.schedule = s.schedule ∧ t.cfg = s.cfg ∧ t.cycles = s.cycles

/-- For every instruction, a byte of memory changes only at the addresses it stores to, computed by the functions its meaning
uses from the state it starts in; `stored` gains exactly the RAM addresses among them, the latest first; and the devices change
state only where one of them is a device register (rules R56, R57, R58, R60, R63; the list and the devices' state are the model's
own fields, notes/assumptions/9.md and 7.md). -/
def Obligations.MemoryChangesOnlyWhereStored : Prop :=
  ∀ (i : Instr) (s t : State), exec i s = .next t →
    (∀ b : Word, b ∉ storeAddresses i s → t.peek b = s.peek b) ∧
    t.stored = ramStores s (storeAddresses i s) ++ s.stored ∧
    ((∀ a ∈ storeAddresses i s, s.kindAt a ≠ .device) → t.device = s.device)

/-- For every instruction, the flags that its CCR column marks "–" keep their values, those it marks 0 or 1 are forced, and the
only undefined one is V after DAA (rule R130, with the columns of rule R34). -/
def Obligations.FlagsByColumn : Prop :=
  (∀ (i : Instr) (s t : State), exec i s = .next t →
    (column i).v.Holds s.ccr.v t.ccr.v ∧ (column i).h.Holds s.ccr.h t.ccr.h ∧ (column i).i.Holds s.ccr.i t.ccr.i ∧
      (column i).n.Holds s.ccr.n t.ccr.n ∧ (column i).z.Holds s.ccr.z t.ccr.z ∧ (column i).c.Holds s.ccr.c t.ccr.c) ∧
  ∀ i : Instr, ((column i).v = .undefined ↔ i = .daa) ∧ (column i).h ≠ .undefined ∧ (column i).i ≠ .undefined ∧
    (column i).n ≠ .undefined ∧ (column i).z ≠ .undefined ∧ (column i).c ≠ .undefined
end

