-- ==== Sys2Proof/Laws/Memory.lean ====
section
/-! SUPPORT. The laws of memory: a read after a write, and that a write keeps the canonical form. -/

namespace Sys2Proof.Machine

@[simp] theorem Memory.read_nil (a : Nat) : Memory.read [] a = unwrittenByte := rfl

@[simp] theorem Memory.wf_nil : Memory.wf [] = true := rfl

/-- A write leaves every other address alone, in any memory. -/
theorem Memory.read_write_of_ne (m : Memory) {a b : Nat} (v : Byte) (h : b ≠ a) :
    (Memory.write m a v).read b = Memory.read m b := by
  induction m with
  | nil => by_cases hv : v = unwrittenByte <;> simp [Memory.write, Memory.read, hv, h]
  | cons c m ih =>
    obtain ⟨k, w⟩ := c
    by_cases h1 : a < k
    · by_cases hv : v = unwrittenByte <;> simp [Memory.write, Memory.read, h1, hv, h]
    · by_cases h2 : a = k
      · subst h2
        by_cases hv : v = unwrittenByte <;> simp [Memory.write, Memory.read, hv, h]
      · simp only [Memory.write, if_neg h1, if_neg h2, Memory.read, ih]

/-- Below the first possible address of a canonical list nothing is listed. -/
theorem Memory.read_of_lt_wfFrom {m : Memory} {lo a : Nat} (hw : Memory.wfFrom lo m = true) (h : a < lo) :
    Memory.read m a = unwrittenByte := by
  induction m generalizing lo with
  | nil => rfl
  | cons c m ih =>
    obtain ⟨k, w⟩ := c
    simp only [Memory.wfFrom, Bool.and_eq_true, decide_eq_true_eq] at hw
    have hk : a ≠ k := by omega
    simp only [Memory.read, if_neg hk]
    exact ih hw.2 (by omega)

theorem Memory.read_write_self_from {m : Memory} {lo : Nat} (a : Nat) (v : Byte) (hw : Memory.wfFrom lo m = true) :
    (Memory.write m a v).read a = v := by
  induction m generalizing lo with
  | nil => by_cases hv : v = unwrittenByte <;> simp [Memory.write, Memory.read, hv]
  | cons c m ih =>
    obtain ⟨k, w⟩ := c
    simp only [Memory.wfFrom, Bool.and_eq_true, decide_eq_true_eq] at hw
    by_cases h1 : a < k
    · by_cases hv : v = unwrittenByte
      · subst hv
        have hk : a ≠ k := by omega
        simp only [Memory.write, if_pos h1, if_true, Memory.read, if_neg hk]
        exact Memory.read_of_lt_wfFrom hw.2 (by omega)
      · simp [Memory.write, Memory.read, h1, hv]
    · by_cases h2 : a = k
      · subst h2
        by_cases hv : v = unwrittenByte
        · subst hv
          simp only [Memory.write, lt_irrefl, if_false, if_true]
          exact Memory.read_of_lt_wfFrom hw.2 (by omega)
        · simp [Memory.write, Memory.read, hv]
      · simp only [Memory.write, if_neg h1, if_neg h2, Memory.read]
        exact ih hw.2

/-- A read after a write to the same address of a canonical memory gives the value written. -/
theorem Memory.read_write_self {m : Memory} (a : Nat) (v : Byte) (hw : m.wf = true) : (m.write a v).read a = v :=
  Memory.read_write_self_from a v hw

theorem Memory.wfFrom_write {m : Memory} {lo a : Nat} (v : Byte) (hw : Memory.wfFrom lo m = true) (hl : lo ≤ a)
    (ha : a < 65536) : Memory.wfFrom lo (Memory.write m a v) = true := by
  induction m generalizing lo with
  | nil => by_cases hv : v = unwrittenByte <;> simp [Memory.write, Memory.wfFrom, hv, hl, ha]
  | cons c m ih =>
    obtain ⟨k, w⟩ := c
    have hw' := hw
    simp only [Memory.wfFrom, Bool.and_eq_true, decide_eq_true_eq] at hw
    by_cases h1 : a < k
    · by_cases hv : v = unwrittenByte
      · simpa [Memory.write, h1, hv] using hw'
      · simp [Memory.write, Memory.wfFrom, h1, hv, hl, ha, hw]
    · by_cases h2 : a = k
      · subst h2
        by_cases hv : v = unwrittenByte
        · simp only [Memory.write, lt_irrefl, if_false, if_true, if_pos hv]
          have mono : ∀ (m : Memory) (x y : Nat), x ≤ y → Memory.wfFrom y m = true → Memory.wfFrom x m = true := by
            intro m x y hxy hm
            cases m with
            | nil => rfl
            | cons c m =>
              obtain ⟨k', w'⟩ := c
              simp only [Memory.wfFrom, Bool.and_eq_true, decide_eq_true_eq] at hm ⊢
              exact ⟨⟨⟨by omega, hm.1.1.2⟩, hm.1.2⟩, hm.2⟩
          exact mono m lo (a + 1) (by omega) hw.2
        · simp [Memory.write, Memory.wfFrom, hv, hl, ha, hw.2]
      · have h3 : k < a := by omega
        simp only [Memory.write, if_neg h1, if_neg h2, Memory.wfFrom, Bool.and_eq_true, decide_eq_true_eq]
        exact ⟨hw.1, ih hw.2 (by omega)⟩

/-- A write at an address of the address space keeps the canonical form. -/
theorem Memory.wf_write {m : Memory} {a : Nat} (v : Byte) (hw : m.wf = true) (ha : a < 65536) : (m.write a v).wf = true :=
  Memory.wfFrom_write v hw (Nat.zero_le a) ha

/-- The 16-bit address of a write is always an address of the address space. -/
theorem Memory.wf_write_word {m : Memory} (a : Word) (v : Byte) (hw : m.wf = true) : (m.write a.toNat v).wf = true :=
  Memory.wf_write v hw (by omega)

end Sys2Proof.Machine
end

