-- ==== Sys2Proof/Laws/State.lean ====
section
/-! SUPPORT. One lemma per field of `State` per named update, true by rfl: no proof unfolds a record update. -/

namespace Sys2Proof.Machine

/-! `setHx` -/

@[simp] theorem State.setHx_a (s : State) (v : Word) : (s.setHx v).a = s.a := rfl
@[simp] theorem State.setHx_h (s : State) (v : Word) : (s.setHx v).h = hiByte v := rfl
@[simp] theorem State.setHx_x (s : State) (v : Word) : (s.setHx v).x = loByte v := rfl
@[simp] theorem State.setHx_sp (s : State) (v : Word) : (s.setHx v).sp = s.sp := rfl
@[simp] theorem State.setHx_pc (s : State) (v : Word) : (s.setHx v).pc = s.pc := rfl
@[simp] theorem State.setHx_ccr (s : State) (v : Word) : (s.setHx v).ccr = s.ccr := rfl
@[simp] theorem State.setHx_mem (s : State) (v : Word) : (s.setHx v).mem = s.mem := rfl
@[simp] theorem State.setHx_runState (s : State) (v : Word) : (s.setHx v).runState = s.runState := rfl
@[simp] theorem State.setHx_cliShadow (s : State) (v : Word) : (s.setHx v).cliShadow = s.cliShadow := rfl
@[simp] theorem State.setHx_lines (s : State) (v : Word) : (s.setHx v).lines = s.lines := rfl
@[simp] theorem State.setHx_schedule (s : State) (v : Word) : (s.setHx v).schedule = s.schedule := rfl
@[simp] theorem State.setHx_cfg (s : State) (v : Word) : (s.setHx v).cfg = s.cfg := rfl
@[simp] theorem State.setHx_stored (s : State) (v : Word) : (s.setHx v).stored = s.stored := rfl
@[simp] theorem State.setHx_draws (s : State) (v : Word) : (s.setHx v).draws = s.draws := rfl
@[simp] theorem State.setHx_device (s : State) (v : Word) : (s.setHx v).device = s.device := rfl
@[simp] theorem State.setHx_cycles (s : State) (v : Word) : (s.setHx v).cycles = s.cycles := rfl

/-! `incHx` -/

@[simp] theorem State.incHx_a (s : State) : (s.incHx).a = s.a := rfl
@[simp] theorem State.incHx_h (s : State) : (s.incHx).h = hiByte (s.hx + 1) := rfl
@[simp] theorem State.incHx_x (s : State) : (s.incHx).x = loByte (s.hx + 1) := rfl
@[simp] theorem State.incHx_sp (s : State) : (s.incHx).sp = s.sp := rfl
@[simp] theorem State.incHx_pc (s : State) : (s.incHx).pc = s.pc := rfl
@[simp] theorem State.incHx_ccr (s : State) : (s.incHx).ccr = s.ccr := rfl
@[simp] theorem State.incHx_mem (s : State) : (s.incHx).mem = s.mem := rfl
@[simp] theorem State.incHx_runState (s : State) : (s.incHx).runState = s.runState := rfl
@[simp] theorem State.incHx_cliShadow (s : State) : (s.incHx).cliShadow = s.cliShadow := rfl
@[simp] theorem State.incHx_lines (s : State) : (s.incHx).lines = s.lines := rfl
@[simp] theorem State.incHx_schedule (s : State) : (s.incHx).schedule = s.schedule := rfl
@[simp] theorem State.incHx_cfg (s : State) : (s.incHx).cfg = s.cfg := rfl
@[simp] theorem State.incHx_stored (s : State) : (s.incHx).stored = s.stored := rfl
@[simp] theorem State.incHx_draws (s : State) : (s.incHx).draws = s.draws := rfl
@[simp] theorem State.incHx_device (s : State) : (s.incHx).device = s.device := rfl
@[simp] theorem State.incHx_cycles (s : State) : (s.incHx).cycles = s.cycles := rfl

/-! `setCcrShadowing` -/

@[simp] theorem State.setCcrShadowing_a (s : State) (f : Ccr) : (s.setCcrShadowing f).a = s.a := rfl
@[simp] theorem State.setCcrShadowing_h (s : State) (f : Ccr) : (s.setCcrShadowing f).h = s.h := rfl
@[simp] theorem State.setCcrShadowing_x (s : State) (f : Ccr) : (s.setCcrShadowing f).x = s.x := rfl
@[simp] theorem State.setCcrShadowing_sp (s : State) (f : Ccr) : (s.setCcrShadowing f).sp = s.sp := rfl
@[simp] theorem State.setCcrShadowing_pc (s : State) (f : Ccr) : (s.setCcrShadowing f).pc = s.pc := rfl
@[simp] theorem State.setCcrShadowing_ccr (s : State) (f : Ccr) : (s.setCcrShadowing f).ccr = f := rfl
@[simp] theorem State.setCcrShadowing_mem (s : State) (f : Ccr) : (s.setCcrShadowing f).mem = s.mem := rfl
@[simp] theorem State.setCcrShadowing_runState (s : State) (f : Ccr) : (s.setCcrShadowing f).runState = s.runState := rfl
@[simp] theorem State.setCcrShadowing_cliShadow (s : State) (f : Ccr) :
    (s.setCcrShadowing f).cliShadow = (decide (s.cfg.cliDelay = .one) && s.ccr.i && !f.i) := rfl
@[simp] theorem State.setCcrShadowing_lines (s : State) (f : Ccr) : (s.setCcrShadowing f).lines = s.lines := rfl
@[simp] theorem State.setCcrShadowing_schedule (s : State) (f : Ccr) : (s.setCcrShadowing f).schedule = s.schedule := rfl
@[simp] theorem State.setCcrShadowing_cfg (s : State) (f : Ccr) : (s.setCcrShadowing f).cfg = s.cfg := rfl
@[simp] theorem State.setCcrShadowing_stored (s : State) (f : Ccr) : (s.setCcrShadowing f).stored = s.stored := rfl
@[simp] theorem State.setCcrShadowing_draws (s : State) (f : Ccr) : (s.setCcrShadowing f).draws = s.draws := rfl
@[simp] theorem State.setCcrShadowing_device (s : State) (f : Ccr) : (s.setCcrShadowing f).device = s.device := rfl
@[simp] theorem State.setCcrShadowing_cycles (s : State) (f : Ccr) : (s.setCcrShadowing f).cycles = s.cycles := rfl

/-! `branchIf` -/

@[simp] theorem State.branchIf_a (s : State) (c : Bool) (rr : Byte) : (s.branchIf c rr).a = s.a := rfl
@[simp] theorem State.branchIf_h (s : State) (c : Bool) (rr : Byte) : (s.branchIf c rr).h = s.h := rfl
@[simp] theorem State.branchIf_x (s : State) (c : Bool) (rr : Byte) : (s.branchIf c rr).x = s.x := rfl
@[simp] theorem State.branchIf_sp (s : State) (c : Bool) (rr : Byte) : (s.branchIf c rr).sp = s.sp := rfl
@[simp] theorem State.branchIf_pc (s : State) (c : Bool) (rr : Byte) :
    (s.branchIf c rr).pc = if c then s.pc + sext16 rr else s.pc := rfl
@[simp] theorem State.branchIf_ccr (s : State) (c : Bool) (rr : Byte) : (s.branchIf c rr).ccr = s.ccr := rfl
@[simp] theorem State.branchIf_mem (s : State) (c : Bool) (rr : Byte) : (s.branchIf c rr).mem = s.mem := rfl
@[simp] theorem State.branchIf_runState (s : State) (c : Bool) (rr : Byte) : (s.branchIf c rr).runState = s.runState := rfl
@[simp] theorem State.branchIf_cliShadow (s : State) (c : Bool) (rr : Byte) : (s.branchIf c rr).cliShadow = s.cliShadow := rfl
@[simp] theorem State.branchIf_lines (s : State) (c : Bool) (rr : Byte) : (s.branchIf c rr).lines = s.lines := rfl
@[simp] theorem State.branchIf_schedule (s : State) (c : Bool) (rr : Byte) : (s.branchIf c rr).schedule = s.schedule := rfl
@[simp] theorem State.branchIf_cfg (s : State) (c : Bool) (rr : Byte) : (s.branchIf c rr).cfg = s.cfg := rfl
@[simp] theorem State.branchIf_stored (s : State) (c : Bool) (rr : Byte) : (s.branchIf c rr).stored = s.stored := rfl
@[simp] theorem State.branchIf_draws (s : State) (c : Bool) (rr : Byte) : (s.branchIf c rr).draws = s.draws := rfl
@[simp] theorem State.branchIf_device (s : State) (c : Bool) (rr : Byte) : (s.branchIf c rr).device = s.device := rfl
@[simp] theorem State.branchIf_cycles (s : State) (c : Bool) (rr : Byte) : (s.branchIf c rr).cycles = s.cycles := rfl

/-! `drawn` -/

@[simp] theorem State.drawn_a (s : State) (k : Nat) : (s.drawn k).a = s.a := rfl
@[simp] theorem State.drawn_h (s : State) (k : Nat) : (s.drawn k).h = s.h := rfl
@[simp] theorem State.drawn_x (s : State) (k : Nat) : (s.drawn k).x = s.x := rfl
@[simp] theorem State.drawn_sp (s : State) (k : Nat) : (s.drawn k).sp = s.sp := rfl
@[simp] theorem State.drawn_pc (s : State) (k : Nat) : (s.drawn k).pc = s.pc := rfl
@[simp] theorem State.drawn_ccr (s : State) (k : Nat) : (s.drawn k).ccr = s.ccr := rfl
@[simp] theorem State.drawn_mem (s : State) (k : Nat) : (s.drawn k).mem = s.mem := rfl
@[simp] theorem State.drawn_runState (s : State) (k : Nat) : (s.drawn k).runState = s.runState := rfl
@[simp] theorem State.drawn_cliShadow (s : State) (k : Nat) : (s.drawn k).cliShadow = s.cliShadow := rfl
@[simp] theorem State.drawn_lines (s : State) (k : Nat) : (s.drawn k).lines = s.lines := rfl
@[simp] theorem State.drawn_schedule (s : State) (k : Nat) : (s.drawn k).schedule = s.schedule := rfl
@[simp] theorem State.drawn_cfg (s : State) (k : Nat) : (s.drawn k).cfg = s.cfg := rfl
@[simp] theorem State.drawn_stored (s : State) (k : Nat) : (s.drawn k).stored = s.stored := rfl
@[simp] theorem State.drawn_draws (s : State) (k : Nat) : (s.drawn k).draws = s.draws + k := rfl
@[simp] theorem State.drawn_device (s : State) (k : Nat) : (s.drawn k).device = s.device := rfl
@[simp] theorem State.drawn_cycles (s : State) (k : Nat) : (s.drawn k).cycles = s.cycles := rfl

/-! `poke` -/

@[simp] theorem State.poke_a (s : State) (b : Word) (v : Byte) : (s.poke b v).a = s.a := rfl
@[simp] theorem State.poke_h (s : State) (b : Word) (v : Byte) : (s.poke b v).h = s.h := rfl
@[simp] theorem State.poke_x (s : State) (b : Word) (v : Byte) : (s.poke b v).x = s.x := rfl
@[simp] theorem State.poke_sp (s : State) (b : Word) (v : Byte) : (s.poke b v).sp = s.sp := rfl
@[simp] theorem State.poke_pc (s : State) (b : Word) (v : Byte) : (s.poke b v).pc = s.pc := rfl
@[simp] theorem State.poke_ccr (s : State) (b : Word) (v : Byte) : (s.poke b v).ccr = s.ccr := rfl
@[simp] theorem State.poke_mem (s : State) (b : Word) (v : Byte) :
    (s.poke b v).mem = if s.kindAt b = .ram then s.mem.write b.toNat v else s.mem := rfl
@[simp] theorem State.poke_runState (s : State) (b : Word) (v : Byte) : (s.poke b v).runState = s.runState := rfl
@[simp] theorem State.poke_cliShadow (s : State) (b : Word) (v : Byte) : (s.poke b v).cliShadow = s.cliShadow := rfl
@[simp] theorem State.poke_lines (s : State) (b : Word) (v : Byte) : (s.poke b v).lines = s.lines := rfl
@[simp] theorem State.poke_schedule (s : State) (b : Word) (v : Byte) : (s.poke b v).schedule = s.schedule := rfl
@[simp] theorem State.poke_cfg (s : State) (b : Word) (v : Byte) : (s.poke b v).cfg = s.cfg := rfl
@[simp] theorem State.poke_stored (s : State) (b : Word) (v : Byte) :
    (s.poke b v).stored = if s.kindAt b = .ram then b :: s.stored else s.stored := rfl
@[simp] theorem State.poke_draws (s : State) (b : Word) (v : Byte) : (s.poke b v).draws = s.draws := rfl
@[simp] theorem State.poke_device (s : State) (b : Word) (v : Byte) :
    (s.poke b v).device = if s.kindAt b = .device then deviceWrite s.cfg s.draws s.device b v else s.device := rfl
@[simp] theorem State.poke_cycles (s : State) (b : Word) (v : Byte) : (s.poke b v).cycles = s.cycles := rfl

/-! `begin` -/

@[simp] theorem State.begin_a (s : State) (n k : Nat) : (s.begin n k).a = s.a := rfl
@[simp] theorem State.begin_h (s : State) (n k : Nat) : (s.begin n k).h = s.h := rfl
@[simp] theorem State.begin_x (s : State) (n k : Nat) : (s.begin n k).x = s.x := rfl
@[simp] theorem State.begin_sp (s : State) (n k : Nat) : (s.begin n k).sp = s.sp := rfl
@[simp] theorem State.begin_pc (s : State) (n k : Nat) : (s.begin n k).pc = s.pc + BitVec.ofNat 16 n := rfl
@[simp] theorem State.begin_ccr (s : State) (n k : Nat) : (s.begin n k).ccr = s.ccr := rfl
@[simp] theorem State.begin_mem (s : State) (n k : Nat) : (s.begin n k).mem = s.mem := rfl
@[simp] theorem State.begin_runState (s : State) (n k : Nat) : (s.begin n k).runState = s.runState := rfl
@[simp] theorem State.begin_cliShadow (s : State) (n k : Nat) : (s.begin n k).cliShadow = false := rfl
@[simp] theorem State.begin_lines (s : State) (n k : Nat) : (s.begin n k).lines = s.lines := rfl
@[simp] theorem State.begin_schedule (s : State) (n k : Nat) : (s.begin n k).schedule = s.schedule := rfl
@[simp] theorem State.begin_cfg (s : State) (n k : Nat) : (s.begin n k).cfg = s.cfg := rfl
@[simp] theorem State.begin_stored (s : State) (n k : Nat) : (s.begin n k).stored = [] := rfl
@[simp] theorem State.begin_draws (s : State) (n k : Nat) : (s.begin n k).draws = s.draws := rfl
@[simp] theorem State.begin_device (s : State) (n k : Nat) : (s.begin n k).device = s.device := rfl
@[simp] theorem State.begin_cycles (s : State) (n k : Nat) : (s.begin n k).cycles = s.cycles + k := rfl

/-! `resetRegisters` -/

@[simp] theorem State.resetRegisters_a (s : State) : (s.resetRegisters).a = Config.draw8 s.draws := rfl
@[simp] theorem State.resetRegisters_h (s : State) : (s.resetRegisters).h = 0x00 := rfl
@[simp] theorem State.resetRegisters_x (s : State) : (s.resetRegisters).x = Config.draw8 (s.draws + 1) := rfl
@[simp] theorem State.resetRegisters_sp (s : State) : (s.resetRegisters).sp = 0x00FF := rfl
@[simp] theorem State.resetRegisters_pc (s : State) : (s.resetRegisters).pc = s.pc := rfl
@[simp] theorem State.resetRegisters_ccr (s : State) :
    (s.resetRegisters).ccr = { v := Config.draw1 (s.draws + 2), h := Config.draw1 (s.draws + 3), i := true, n := Config.draw1 (s.draws + 4), z := Config.draw1 (s.draws + 5), c := Config.draw1 (s.draws + 6) } := rfl
@[simp] theorem State.resetRegisters_mem (s : State) : (s.resetRegisters).mem = s.mem := rfl
@[simp] theorem State.resetRegisters_runState (s : State) : (s.resetRegisters).runState = .running := rfl
@[simp] theorem State.resetRegisters_cliShadow (s : State) : (s.resetRegisters).cliShadow = false := rfl
@[simp] theorem State.resetRegisters_lines (s : State) : (s.resetRegisters).lines = s.lines := rfl
@[simp] theorem State.resetRegisters_schedule (s : State) : (s.resetRegisters).schedule = s.schedule := rfl
@[simp] theorem State.resetRegisters_cfg (s : State) : (s.resetRegisters).cfg = s.cfg := rfl
@[simp] theorem State.resetRegisters_stored (s : State) : (s.resetRegisters).stored = [] := rfl
@[simp] theorem State.resetRegisters_draws (s : State) : (s.resetRegisters).draws = s.draws + 7 := rfl
@[simp] theorem State.resetRegisters_device (s : State) :
    (s.resetRegisters).device = Config.deviceState s.draws resetVector := rfl
@[simp] theorem State.resetRegisters_cycles (s : State) : (s.resetRegisters).cycles = s.cycles := rfl

/-! `withBytesAtPc` -/

@[simp] theorem State.withBytesAtPc_a (s : State) (bs : List Byte) : (s.withBytesAtPc bs).a = s.a := rfl
@[simp] theorem State.withBytesAtPc_h (s : State) (bs : List Byte) : (s.withBytesAtPc bs).h = s.h := rfl
@[simp] theorem State.withBytesAtPc_x (s : State) (bs : List Byte) : (s.withBytesAtPc bs).x = s.x := rfl
@[simp] theorem State.withBytesAtPc_sp (s : State) (bs : List Byte) : (s.withBytesAtPc bs).sp = s.sp := rfl
@[simp] theorem State.withBytesAtPc_pc (s : State) (bs : List Byte) : (s.withBytesAtPc bs).pc = s.pc := rfl
@[simp] theorem State.withBytesAtPc_ccr (s : State) (bs : List Byte) : (s.withBytesAtPc bs).ccr = s.ccr := rfl
@[simp] theorem State.withBytesAtPc_mem (s : State) (bs : List Byte) :
    (s.withBytesAtPc bs).mem = loadBytes bs s.pc s.mem := rfl
@[simp] theorem State.withBytesAtPc_runState (s : State) (bs : List Byte) : (s.withBytesAtPc bs).runState = s.runState := rfl
@[simp] theorem State.withBytesAtPc_cliShadow (s : State) (bs : List Byte) : (s.withBytesAtPc bs).cliShadow = s.cliShadow := rfl
@[simp] theorem State.withBytesAtPc_lines (s : State) (bs : List Byte) : (s.withBytesAtPc bs).lines = s.lines := rfl
@[simp] theorem State.withBytesAtPc_schedule (s : State) (bs : List Byte) : (s.withBytesAtPc bs).schedule = s.schedule := rfl
@[simp] theorem State.withBytesAtPc_cfg (s : State) (bs : List Byte) : (s.withBytesAtPc bs).cfg = s.cfg := rfl
@[simp] theorem State.withBytesAtPc_stored (s : State) (bs : List Byte) : (s.withBytesAtPc bs).stored = [] := rfl
@[simp] theorem State.withBytesAtPc_draws (s : State) (bs : List Byte) : (s.withBytesAtPc bs).draws = s.draws := rfl
@[simp] theorem State.withBytesAtPc_device (s : State) (bs : List Byte) : (s.withBytesAtPc bs).device = s.device := rfl
@[simp] theorem State.withBytesAtPc_cycles (s : State) (bs : List Byte) : (s.withBytesAtPc bs).cycles = s.cycles := rfl

/-! `sample` writes the lines, the schedule and the counter of free values only -/

@[simp] theorem State.sample_a (s : State) : s.sample.a = s.a := by unfold State.sample; split <;> rfl
@[simp] theorem State.sample_h (s : State) : s.sample.h = s.h := by unfold State.sample; split <;> rfl
@[simp] theorem State.sample_x (s : State) : s.sample.x = s.x := by unfold State.sample; split <;> rfl
@[simp] theorem State.sample_sp (s : State) : s.sample.sp = s.sp := by unfold State.sample; split <;> rfl
@[simp] theorem State.sample_pc (s : State) : s.sample.pc = s.pc := by unfold State.sample; split <;> rfl
@[simp] theorem State.sample_ccr (s : State) : s.sample.ccr = s.ccr := by unfold State.sample; split <;> rfl
@[simp] theorem State.sample_mem (s : State) : s.sample.mem = s.mem := by unfold State.sample; split <;> rfl
@[simp] theorem State.sample_runState (s : State) : s.sample.runState = s.runState := by unfold State.sample; split <;> rfl
@[simp] theorem State.sample_cliShadow (s : State) : s.sample.cliShadow = s.cliShadow := by unfold State.sample; split <;> rfl
@[simp] theorem State.sample_cfg (s : State) : s.sample.cfg = s.cfg := by unfold State.sample; split <;> rfl
@[simp] theorem State.sample_stored (s : State) : s.sample.stored = s.stored := by unfold State.sample; split <;> rfl
@[simp] theorem State.sample_draws (s : State) : s.sample.draws = s.draws + 1 := by unfold State.sample; split <;> rfl
@[simp] theorem State.sample_device (s : State) : s.sample.device = s.device := by unfold State.sample; split <;> rfl
@[simp] theorem State.sample_cycles (s : State) : s.sample.cycles = s.cycles := by unfold State.sample; split <;> rfl

theorem State.sample_of_schedule_nil {s : State} (h : s.schedule = []) :
    s.sample = { s with draws := s.draws + 1 } := by simp [State.sample, h]

theorem State.sample_of_schedule_cons {s : State} {l : Lines} {rest : List Lines} (h : s.schedule = l :: rest) :
    s.sample = { s with lines := l, schedule := rest, draws := s.draws + 1 } := by simp [State.sample, h]

end Sys2Proof.Machine
end

