-- ==== Sys2Proof/Laws/Ops.lean ====
section
/-!
SUPPORT. What each shared operation can do: for every operation the equation that holds where it completes, and the
inversion lemma (if it answers a next value, then ...), for later proofs to cite instead of unfolding it.
-/

namespace Sys2Proof.Machine

/-! ### Sequencing -/

@[simp] theorem Res.bind_next {α β : Type} (v : α) (k : α → Res β) : Res.bind (.next v) k = k v := rfl

@[simp] theorem Res.bind_fault {α β : Type} (f : Fault) (k : α → Res β) : Res.bind (.fault f) k = .fault f := rfl

@[simp] theorem Res.bind_refused {α β : Type} (r : Refusal) (k : α → Res β) : Res.bind (.refused r) k = .refused r := rfl

theorem Res.bind_eq_next {α β : Type} {r : Res α} {k : α → Res β} {w : β} :
    Res.bind r k = .next w ↔ ∃ v, r = .next v ∧ k v = .next w := by
  cases r <;> simp [Res.bind]

/-! ### What an address is -/

theorem State.kindAt_congr {s t : State} (h : t.cfg = s.cfg) (a : Word) : t.kindAt a = s.kindAt a := by
  simp [State.kindAt, h]

theorem State.mapped_congr {s t : State} (h : t.cfg = s.cfg) (a : Word) : t.mapped a = s.mapped a := by
  simp [State.mapped, State.kindAt_congr h]

theorem State.mapped_iff {s : State} {a : Word} : s.mapped a = true ↔ s.kindAt a ≠ .unimplemented := by
  simp [State.mapped]

theorem State.holdsCode_congr {s t : State} (h : t.cfg = s.cfg) (a : Word) : t.holdsCode a = s.holdsCode a := by
  simp [State.holdsCode, State.kindAt_congr h]

theorem State.holdsCode_iff {s : State} {a : Word} : s.holdsCode a = true ↔ s.kindAt a = .ram ∨ s.kindAt a = .rom := by
  simp [State.holdsCode]

theorem State.peek_congr {s t : State} (h : t.mem = s.mem) (a : Word) : t.peek a = s.peek a := by
  simp [State.peek, h]

theorem State.data_of_not_device {s : State} {a : Word} (h : s.kindAt a ≠ .device) : s.data a = s.peek a := by
  simp [State.data, h]

theorem State.data_of_ram {s : State} {a : Word} (h : s.kindAt a = .ram) : s.data a = s.peek a :=
  State.data_of_not_device (by simp [h])

theorem State.data_of_holdsCode {s : State} {a : Word} (h : s.holdsCode a = true) : s.data a = s.peek a := by
  rcases State.holdsCode_iff.1 h with h | h <;> exact State.data_of_not_device (by simp [h])

/-! ### Device registers -/

/-- The first element with a property, with the elements before it. -/
theorem find?_of_first {α : Type} {p : α → Bool} {l before after : List α} {x : α} (he : l = before ++ x :: after)
    (hb : ∀ y ∈ before, ¬p y = true) (hx : p x = true) : l.find? p = some x := by
  rw [he, List.find?_append, List.find?_eq_none.2 hb]
  simp [hx]

/-- A read entry is for the address and the device state. -/
theorem readEntry_iff {r : DeviceRead} {a : Word} {q : Nat} :
    ((r.address == a) && (r.state.all (· == q))) = true ↔ r.address = a ∧ (r.state = none ∨ r.state = some q) := by
  cases r.state <;> simp

/-- A write entry is for the address, the device state and the byte. -/
theorem writeEntry_iff {r : DeviceWrite} {a : Word} {q : Nat} {v : Byte} :
    ((r.address == a) && (r.state.all (· == q)) && (r.value.all (· == v))) = true ↔
      r.address = a ∧ (r.state = none ∨ r.state = some q) ∧ (r.value = none ∨ r.value = some v) := by
  cases r.state <;> cases r.value <;> simp [and_assoc]

/-- The read function gives the value of the first entry that fits. -/
theorem deviceRead_of_first {cfg : Config} {k q : Nat} {a : Word} {before after : List DeviceRead} {r : DeviceRead}
    (he : cfg.deviceReads = before ++ r :: after)
    (hb : ∀ e ∈ before, ¬(e.address = a ∧ (e.state = none ∨ e.state = some q)))
    (hr : r.address = a ∧ (r.state = none ∨ r.state = some q)) : deviceRead cfg k q a = r.value := by
  rw [deviceRead, find?_of_first he (fun e h => fun c => hb e h (readEntry_iff.1 c)) (readEntry_iff.2 hr)]

/-- Where no entry fits, the value read is free. -/
theorem deviceRead_of_none {cfg : Config} {k q : Nat} {a : Word}
    (h : ∀ e ∈ cfg.deviceReads, ¬(e.address = a ∧ (e.state = none ∨ e.state = some q))) :
    deviceRead cfg k q a = Config.deviceByte k a := by
  rw [deviceRead, List.find?_eq_none.2 fun e he => fun c => h e he (readEntry_iff.1 c)]

/-- The write function gives the next state of the first entry that fits. -/
theorem deviceWrite_of_first {cfg : Config} {k q : Nat} {a : Word} {v : Byte} {before after : List DeviceWrite} {r : DeviceWrite}
    (he : cfg.deviceWrites = before ++ r :: after)
    (hb : ∀ e ∈ before, ¬(e.address = a ∧ (e.state = none ∨ e.state = some q) ∧ (e.value = none ∨ e.value = some v)))
    (hr : r.address = a ∧ (r.state = none ∨ r.state = some q) ∧ (r.value = none ∨ r.value = some v)) :
    deviceWrite cfg k q a v = r.next := by
  rw [deviceWrite, find?_of_first he (fun e h => fun c => hb e h (writeEntry_iff.1 c)) (writeEntry_iff.2 hr)]

/-- Where no entry fits, the next device state is free. -/
theorem deviceWrite_of_none {cfg : Config} {k q : Nat} {a : Word} {v : Byte}
    (h : ∀ e ∈ cfg.deviceWrites,
      ¬(e.address = a ∧ (e.state = none ∨ e.state = some q) ∧ (e.value = none ∨ e.value = some v))) :
    deviceWrite cfg k q a v = Config.deviceState k a := by
  rw [deviceWrite, List.find?_eq_none.2 fun e he => fun c => h e he (writeEntry_iff.1 c)]

/-! ### One byte -/

theorem read8_of_mapped {s : State} {a : Word} (h : s.mapped a = true) : read8 s a = .next (s.data a) := by
  have h := State.mapped_iff.1 h
  cases hk : s.kindAt a <;> simp_all [read8]

theorem write8_of_mapped {s : State} {a : Word} (v : Byte) (h : s.mapped a = true) :
    write8 s a v = .next (s.poke a v) := by
  have h := State.mapped_iff.1 h
  cases hk : s.kindAt a <;> simp_all [write8]

theorem readCode_eq_next {s : State} {a : Word} {v : Byte} :
    readCode s a = .next v ↔ s.holdsCode a = true ∧ v = s.peek a := by
  cases h : s.kindAt a <;> simp [readCode, State.holdsCode, h, eq_comm]

theorem readCode_of_holdsCode {s : State} {a : Word} (h : s.holdsCode a = true) : readCode s a = .next (s.peek a) :=
  readCode_eq_next.2 ⟨h, rfl⟩

theorem read8_eq_next {s : State} {a : Word} {v : Byte} :
    read8 s a = .next v ↔ s.mapped a = true ∧ v = s.data a := by
  cases h : s.kindAt a <;> simp [read8, State.mapped, h, eq_comm]

theorem write8_eq_next {s t : State} {a : Word} {v : Byte} :
    write8 s a v = .next t ↔ s.mapped a = true ∧ t = s.poke a v := by
  cases h : s.kindAt a <;> simp [write8, State.mapped, h, eq_comm]

/-- A store leaves every other byte alone. -/
theorem State.peek_poke_of_ne (s : State) {a b : Word} (v : Byte) (h : b ≠ a) : (s.poke a v).peek b = s.peek b := by
  have h' : b.toNat ≠ a.toNat := fun e => h (BitVec.eq_of_toNat_eq e)
  by_cases hk : s.kindAt a = .ram
  · simp [State.peek, hk, Memory.read_write_of_ne _ _ h']
  · simp [State.peek, hk]

/-- A store to RAM is read back. -/
theorem State.peek_poke_self {s : State} {a : Word} (v : Byte) (hw : s.mem.wf = true) (hk : s.kindAt a = .ram) :
    (s.poke a v).peek a = v := by
  simp [State.peek, hk, Memory.read_write_self _ _ hw]

/-- A store anywhere else than to RAM changes no byte. -/
theorem State.peek_poke_of_not_ram {s : State} {a b : Word} (v : Byte) (hk : s.kindAt a ≠ .ram) :
    (s.poke a v).peek b = s.peek b := by
  simp [State.peek, hk]

theorem State.wf_poke {s : State} (a : Word) (v : Byte) (hw : s.mem.wf = true) : (s.poke a v).mem.wf = true := by
  by_cases hk : s.kindAt a = .ram
  · simp [hk, Memory.wf_write_word _ _ hw]
  · simp [hk, hw]

@[simp] theorem State.kindAt_poke (s : State) (a b : Word) (v : Byte) : (s.poke a v).kindAt b = s.kindAt b :=
  State.kindAt_congr rfl b

@[simp] theorem State.mapped_poke (s : State) (a b : Word) (v : Byte) : (s.poke a v).mapped b = s.mapped b :=
  State.mapped_congr rfl b

/-! ### Two bytes -/

theorem read16_eq_next {s : State} {a v : Word} :
    read16 s a = .next v ↔ s.mapped a = true ∧ s.mapped (a + 1) = true ∧ v = joinBytes (s.data a) (s.data (a + 1)) := by
  simp only [read16, Res.bind_eq_next, read8_eq_next]
  constructor
  · rintro ⟨hi, ⟨h1, rfl⟩, lo, ⟨h2, rfl⟩, h⟩
    cases h
    exact ⟨h1, h2, rfl⟩
  · rintro ⟨h1, h2, rfl⟩
    exact ⟨_, ⟨h1, rfl⟩, _, ⟨h2, rfl⟩, rfl⟩

theorem read16_of_mapped {s : State} {a : Word} (h1 : s.mapped a = true) (h2 : s.mapped (a + 1) = true) :
    read16 s a = .next (joinBytes (s.data a) (s.data (a + 1))) :=
  read16_eq_next.2 ⟨h1, h2, rfl⟩

theorem readVector_eq_next {s : State} {a v : Word} :
    readVector s a = .next v ↔
      s.holdsCode a = true ∧ s.holdsCode (a + 1) = true ∧ v = joinBytes (s.peek a) (s.peek (a + 1)) := by
  simp only [readVector, Res.bind_eq_next, readCode_eq_next]
  constructor
  · rintro ⟨hi, ⟨h1, rfl⟩, lo, ⟨h2, rfl⟩, h⟩
    cases h
    exact ⟨h1, h2, rfl⟩
  · rintro ⟨h1, h2, rfl⟩
    exact ⟨_, ⟨h1, rfl⟩, _, ⟨h2, rfl⟩, rfl⟩

theorem write16_eq_next {s t : State} {a v : Word} :
    write16 s a v = .next t ↔
      s.mapped a = true ∧ s.mapped (a + 1) = true ∧ t = (s.poke a (hiByte v)).poke (a + 1) (loByte v) := by
  simp only [write16, Res.bind_eq_next, write8_eq_next]
  constructor
  · rintro ⟨u, ⟨h1, rfl⟩, h2, rfl⟩
    exact ⟨h1, by simpa using h2, rfl⟩
  · rintro ⟨h1, h2, rfl⟩
    exact ⟨_, ⟨h1, rfl⟩, by simpa using h2, rfl⟩

/-! ### The stack -/

theorem push8_eq_next {s t : State} {v : Byte} :
    push8 v s = .next t ↔ s.mapped s.sp = true ∧ t = { s.poke s.sp v with sp := s.sp - 1 } := by
  simp only [push8, Res.bind_eq_next, write8_eq_next]
  constructor
  · rintro ⟨u, ⟨h, rfl⟩, e⟩
    cases e
    exact ⟨h, rfl⟩
  · rintro ⟨h, rfl⟩
    exact ⟨_, ⟨h, rfl⟩, rfl⟩

theorem pull8_eq_next {s : State} {p : Byte × State} :
    pull8 s = .next p ↔ s.mapped (s.sp + 1) = true ∧ p = (s.data (s.sp + 1), { s with sp := s.sp + 1 }) := by
  simp only [pull8, Res.bind_eq_next, read8_eq_next]
  constructor
  · rintro ⟨v, ⟨h, rfl⟩, e⟩
    cases e
    exact ⟨h, rfl⟩
  · rintro ⟨h, rfl⟩
    exact ⟨_, ⟨h, rfl⟩, rfl⟩

/-- The addresses and bytes that pushing stores, in the order of the stores, from the SP it starts with. -/
def pushCells (sp : Word) : List Byte → List (Word × Byte)
  | [] => []
  | v :: vs => (sp, v) :: pushCells (sp - 1) vs

/-- Pushing records the RAM addresses it stored to, the latest first. -/
theorem pushBytes_stored {vs : List Byte} {s t : State} (h : pushBytes vs s = .next t) :
    t.stored = (((pushCells s.sp vs).map Prod.fst).filter fun a => s.kindAt a == .ram).reverse ++ s.stored := by
  induction vs generalizing s with
  | nil =>
    simp only [pushBytes, Host.Outcome.next.injEq] at h
    simp [pushCells, h]
  | cons v vs ih =>
    simp only [pushBytes, Res.bind_eq_next, push8_eq_next] at h
    obtain ⟨u, ⟨-, rfl⟩, h⟩ := h
    rw [ih h]
    by_cases hk : kindIn s.cfg.memmap s.sp.toNat = .ram <;> simp [pushCells, State.kindAt, hk]

/-- Pushing leaves the devices in the state their write function gives, byte after byte. -/
theorem pushBytes_device {vs : List Byte} {s t : State} (h : pushBytes vs s = .next t) :
    t.device = (pushCells s.sp vs).foldl
      (fun q c => if s.kindAt c.1 = .device then deviceWrite s.cfg s.draws q c.1 c.2 else q) s.device := by
  induction vs generalizing s with
  | nil =>
    simp only [pushBytes, Host.Outcome.next.injEq] at h
    simp [pushCells, h]
  | cons v vs ih =>
    simp only [pushBytes, Res.bind_eq_next, push8_eq_next] at h
    obtain ⟨u, ⟨-, rfl⟩, h⟩ := h
    exact ih h

/-- What pushing bytes leaves alone: everything but SP, the memory, the list of stored addresses and the devices. -/
theorem pushBytes_frame {vs : List Byte} {s t : State} (h : pushBytes vs s = .next t) :
    t = { s with sp := t.sp, mem := t.mem, stored := t.stored, device := t.device } ∧ t.sp = s.sp - BitVec.ofNat 16 vs.length := by
  induction vs generalizing s with
  | nil =>
    simp only [pushBytes, Host.Outcome.next.injEq] at h
    subst h
    simp
  | cons v vs ih =>
    simp only [pushBytes, Res.bind_eq_next, push8_eq_next] at h
    obtain ⟨u, ⟨-, rfl⟩, h⟩ := h
    obtain ⟨h1, h2⟩ := ih h
    refine ⟨by rw [h1]; simp [State.poke], ?_⟩
    rw [h2]
    simp only [List.length_cons]
    have : BitVec.ofNat 16 (vs.length + 1) = BitVec.ofNat 16 vs.length + 1 := by
      simp [BitVec.ofNat_add]
    rw [this]
    bv_omega

/-- Pushing keeps the memory's canonical form. -/
theorem pushBytes_wf {vs : List Byte} {s t : State} (h : pushBytes vs s = .next t) (hw : s.mem.wf = true) :
    t.mem.wf = true := by
  induction vs generalizing s with
  | nil =>
    simp only [pushBytes, Host.Outcome.next.injEq] at h
    exact h ▸ hw
  | cons v vs ih =>
    simp only [pushBytes, Res.bind_eq_next, push8_eq_next] at h
    obtain ⟨u, ⟨-, rfl⟩, h⟩ := h
    exact ih h (State.wf_poke _ _ hw)

/-- A push changes only the byte at the old SP. -/
theorem push8_peek {s t : State} {v : Byte} (h : push8 v s = .next t) {b : Word} (hb : b ≠ s.sp) : t.peek b = s.peek b := by
  obtain ⟨-, rfl⟩ := push8_eq_next.1 h
  exact State.peek_poke_of_ne s v hb

/-- Pushing writes no byte whose address is not one of the SP, SP - 1, ... it goes through. -/
theorem pushBytes_peek {vs : List Byte} {s t : State} (h : pushBytes vs s = .next t) {b : Word}
    (hb : ∀ k < vs.length, b ≠ s.sp - BitVec.ofNat 16 k) : t.peek b = s.peek b := by
  induction vs generalizing s with
  | nil =>
    simp only [pushBytes, Host.Outcome.next.injEq] at h
    exact h ▸ rfl
  | cons v vs ih =>
    simp only [pushBytes, Res.bind_eq_next] at h
    obtain ⟨u, hu, h⟩ := h
    have h0 : b ≠ s.sp := by simpa using hb 0 (by simp)
    have hsp : u.sp = s.sp - 1 := by obtain ⟨-, rfl⟩ := push8_eq_next.1 hu; rfl
    rw [ih h (fun k hk => ?_), push8_peek hu h0]
    have := hb (k + 1) (by simpa using hk)
    rw [hsp]
    intro e
    apply this
    rw [e, BitVec.ofNat_add]
    bv_omega

/-- Pushing changes no byte at an address that is not RAM. -/
theorem pushBytes_rom {vs : List Byte} {s t : State} (h : pushBytes vs s = .next t) {b : Word} (hb : s.kindAt b ≠ .ram) :
    t.peek b = s.peek b := by
  induction vs generalizing s with
  | nil =>
    simp only [pushBytes, Host.Outcome.next.injEq] at h
    exact h ▸ rfl
  | cons v vs ih =>
    simp only [pushBytes, Res.bind_eq_next, push8_eq_next] at h
    obtain ⟨u, ⟨-, rfl⟩, h⟩ := h
    have hk : ({ s.poke s.sp v with sp := s.sp - 1 } : State).kindAt b ≠ .ram := hb
    rw [ih h hk]
    by_cases e : b = s.sp
    · subst e
      exact State.peek_poke_of_not_ram v hb
    · exact State.peek_poke_of_ne s v e

/-! ### Exceptions -/

/-- Taking an exception: the pushes, then PC from the vector as memory holds it after them, and I set. -/
theorem takeException_eq_next {s t : State} {vector : Word} :
    takeException vector s = .next t ↔
      ∃ u, pushBytes [loByte s.pc, hiByte s.pc, s.x, s.a, ccrByte s.cfg s.ccr] s = .next u ∧
        u.holdsCode vector = true ∧ u.holdsCode (vector + 1) = true ∧
        t = { u with ccr := { u.ccr with i := true }, pc := joinBytes (u.peek vector) (u.peek (vector + 1)) } := by
  simp only [takeException, Res.bind_eq_next, readVector_eq_next]
  constructor
  · rintro ⟨u, hu, w, ⟨h1, h2, rfl⟩, e⟩
    cases e
    exact ⟨u, hu, h1, h2, rfl⟩
  · rintro ⟨u, hu, h1, h2, rfl⟩
    exact ⟨u, hu, _, ⟨h1, h2, rfl⟩, rfl⟩

/-- What taking an exception leaves alone and what it sets. -/
theorem takeException_frame {s t : State} {vector : Word} (h : takeException vector s = .next t) :
    t = { s with
      sp := s.sp - 5, pc := t.pc, ccr := { s.ccr with i := true }, mem := t.mem, stored := t.stored, device := t.device } := by
  obtain ⟨u, hu, -, -, rfl⟩ := takeException_eq_next.1 h
  obtain ⟨h1, h2⟩ := pushBytes_frame hu
  rw [h1]
  simp [h2]

/-- The return from an exception: five bytes above SP, SP + 5. -/
theorem returnFromException_eq_next {s t : State} :
    returnFromException s = .next t ↔
      (s.mapped (s.sp + 1) = true ∧ s.mapped (s.sp + 1 + 1) = true ∧ s.mapped (s.sp + 1 + 1 + 1) = true ∧
        s.mapped (s.sp + 1 + 1 + 1 + 1) = true ∧ s.mapped (s.sp + 1 + 1 + 1 + 1 + 1) = true) ∧
      t = { s with
        ccr := ccrOfByte (s.data (s.sp + 1))
        a := s.data (s.sp + 1 + 1)
        x := s.data (s.sp + 1 + 1 + 1)
        pc := joinBytes (s.data (s.sp + 1 + 1 + 1 + 1)) (s.data (s.sp + 1 + 1 + 1 + 1 + 1))
        sp := s.sp + 1 + 1 + 1 + 1 + 1 } := by
  simp only [returnFromException, Res.bind_eq_next, pull8_eq_next]
  constructor
  · rintro ⟨p1, ⟨m1, rfl⟩, p2, ⟨m2, rfl⟩, p3, ⟨m3, rfl⟩, p4, ⟨m4, rfl⟩, p5, ⟨m5, rfl⟩, e⟩
    cases e
    exact ⟨⟨m1, m2, m3, m4, m5⟩, rfl⟩
  · rintro ⟨⟨m1, m2, m3, m4, m5⟩, rfl⟩
    exact ⟨_, ⟨m1, rfl⟩, _, ⟨m2, rfl⟩, _, ⟨m3, rfl⟩, _, ⟨m4, rfl⟩, _, ⟨m5, rfl⟩, rfl⟩

/-- Interrupt entry is the exception sequence at the request's vector, from the running state. -/
theorem interruptEntry_eq_next {n : Nat} {s t : State} :
    interruptEntry n s = .next t ↔
      ∃ u, takeException (requestVector n) { s with runState := .running } = .next u ∧ t = { u with stored := s.stored } := by
  simp only [interruptEntry, Res.bind_eq_next, Host.Outcome.next.injEq]
  exact ⟨fun ⟨u, h, e⟩ => ⟨u, h, e.symm⟩, fun ⟨u, h, e⟩ => ⟨u, h, e.symm⟩⟩

/-- What interrupt entry leaves alone and what it sets. -/
theorem interruptEntry_frame {n : Nat} {s t : State} (h : interruptEntry n s = .next t) :
    t = { s with
      runState := .running, sp := s.sp - 5, pc := t.pc, ccr := { s.ccr with i := true }, mem := t.mem, device := t.device } := by
  obtain ⟨u, hu, rfl⟩ := interruptEntry_eq_next.1 h
  rw [takeException_frame hu]

/-- The reset event: the registers' reset values and PC from the reset vector. -/
theorem enterReset_eq_next {s t : State} :
    enterReset s = .next t ↔
      s.holdsCode resetVector = true ∧ s.holdsCode (resetVector + 1) = true ∧
        t = { s.resetRegisters with pc := joinBytes (s.peek resetVector) (s.peek (resetVector + 1)) } := by
  simp only [enterReset, Res.bind_eq_next, readVector_eq_next]
  constructor
  · rintro ⟨w, ⟨h1, h2, rfl⟩, e⟩
    cases e
    exact ⟨h1, h2, rfl⟩
  · rintro ⟨h1, h2, rfl⟩
    exact ⟨_, ⟨h1, h2, rfl⟩, rfl⟩

/-- The request taken is asserted, and no lower one is. -/
theorem lowestRequest_eq_some {p : BitVec 126} {n : Nat} :
    lowestRequest p = some n ↔ n < 126 ∧ p.getLsbD n = true ∧ ∀ m < n, p.getLsbD m = false := by
  simp only [lowestRequest, List.find?_range_eq_some, List.mem_range, Bool.not_eq_eq_eq_not]
  tauto

theorem lowestRequest_eq_none {p : BitVec 126} : lowestRequest p = none ↔ ∀ n < 126, p.getLsbD n = false := by
  simp [lowestRequest]

/-! ### The CCR as a byte -/

/-- RTI's and TAP's reading of the byte TPA and the pushes make gives the flags back. -/
theorem ccrOfByte_ccrByte (cfg : Config) (f : Ccr) : ccrOfByte (ccrByte cfg f) = f := by
  have hb : ∀ v h i n z c : Bool, ∀ p : BitVec 2,
      let b : Byte := BitVec.ofBool v ++ p ++ BitVec.ofBool h ++ BitVec.ofBool i ++ BitVec.ofBool n ++ BitVec.ofBool z ++ BitVec.ofBool c
      (b.getLsbD 7, b.getLsbD 4, b.getLsbD 3, b.getLsbD 2, b.getLsbD 1, b.getLsbD 0) = (v, h, i, n, z, c) := by decide
  obtain ⟨v, h, i, n, z, c⟩ := f
  simpa [ccrOfByte, ccrByte] using hb v h i n z c cfg.ccr65

end Sys2Proof.Machine
end

