-- ==== Sys2Proof/Laws/Boundary.lean ====
section
/-!
SUPPORT. What running one instruction, a boundary and a step can do: for each, the equivalence that holds exactly where it
answers a next state. Later proofs cite these and do not unfold `step`.
-/

namespace Sys2Proof.Machine

set_option Elab.async false

/-- Running one instruction: its meaning from `State.begin`, or the reset sequence of an unassigned opcode. -/
theorem runInstruction_eq_next {s t : State} :
    runInstruction s = .next t ↔
      (∃ i n, fetch s = .next (.ok i n) ∧ s.storedInto n = false ∧ exec i (s.begin n (instrCycles i)) = .next t) ∨
        ∃ op, fetch s = .next (.unassigned op) ∧ s.storedInto (unassignedLength op) = false ∧
          s.cfg.illegalOpcode = .reset ∧ enterReset s = .next t := by
  simp only [runInstruction, Res.bind_eq_next]
  constructor
  · rintro ⟨d, hd, h⟩
    cases d with
    | ok i n =>
      cases hs : s.storedInto n with
      | true => simp [hs] at h
      | false => exact .inl ⟨i, n, hd, hs, by simpa [hs] using h⟩
    | unassigned op =>
      cases hs : s.storedInto (unassignedLength op) with
      | true => simp [hs] at h
      | false =>
        cases hc : s.cfg.illegalOpcode with
        | fault => simp [hs, hc] at h
        | reset => exact .inr ⟨op, hd, hs, rfl, by simpa [hs, hc] using h⟩
  · rintro (⟨i, n, hd, hs, h⟩ | ⟨op, hd, hs, hc, h⟩)
    · exact ⟨_, hd, by simpa [hs] using h⟩
    · exact ⟨_, hd, by simpa [hs, hc] using h⟩

/-- A boundary: reset, or the entry of the request taken, or one instruction, or nothing while halted. -/
theorem atBoundary_eq_next {s t : State} :
    atBoundary s = .next t ↔
      (s.lines.reset = true ∧ enterReset s = .next t) ∨
        (s.lines.reset = false ∧
          ((∃ n, s.taken = some n ∧ interruptEntry n s = .next t) ∨
            (s.taken = none ∧ s.runState = .running ∧ runInstruction s = .next t) ∨
              (s.taken = none ∧ s.runState ≠ .running ∧ t = s))) := by
  unfold atBoundary
  cases hr : s.lines.reset <;> cases ht : s.taken <;> cases hs : s.runState <;> simp [eq_comm]

/-- A step is the boundary of the state with the coming levels presented. -/
theorem step_eq (s : State) : step s = atBoundary s.sample := rfl

/-- A request is taken only while the CPU may take one, and it is the lowest that counts. -/
theorem taken_eq_some {s : State} {n : Nat} :
    s.taken = some n ↔
      (s.runState = .running ∧ s.ccr.i = false ∧ s.cliShadow = false ∧ lowestRequest s.lines.pending = some n) ∨
        (s.runState = .waiting ∧ lowestRequest s.lines.pending = some n) ∨
          (s.runState = .stopped ∧ lowestRequest (s.lines.pending &&& s.cfg.stopWake) = some n) := by
  unfold State.taken
  cases s.runState <;> cases s.ccr.i <;> cases s.cliShadow <;> simp

end Sys2Proof.Machine
end

