-- ==== Sys2Proof/Laws/Operands.lean ====
section
/-!
SUPPORT. What the operand helpers and the meanings shared by several instructions can do: for each, the equivalence that
holds exactly where it answers a next value.
-/

namespace Sys2Proof.Machine

theorem load8_imm (ii : Byte) (s : State) : load8 (.imm ii) s = .next ii := rfl

theorem load8_mem_eq_next {e : Ea} {s : State} {m : Byte} :
    load8 (.mem e) s = .next m ↔ s.mapped (effectiveAddress e s) = true ∧ m = s.data (effectiveAddress e s) :=
  read8_eq_next

theorem load16_imm (v : Word) (s : State) : load16 (.imm v) s = .next v := rfl

theorem load16_dir_eq_next {dd : Byte} {s : State} {v : Word} :
    load16 (.dir dd) s = .next v ↔
      s.mapped (directAddress dd) = true ∧ s.mapped (directAddress dd + 1) = true ∧
        v = joinBytes (s.data (directAddress dd)) (s.data (directAddress dd + 1)) :=
  read16_eq_next

/-- A read-modify-write in memory: one byte and the flags. -/
theorem rmwMem_eq_next {f : UnaryOp} {e : Ea} {s t : State} :
    rmwMem f e s = .next t ↔
      s.mapped (effectiveAddress e s) = true ∧
        t = { s.poke (effectiveAddress e s) (f s.ccr (s.data (effectiveAddress e s))).1 with
          ccr := (f s.ccr (s.data (effectiveAddress e s))).2 } := by
  simp only [rmwMem, Res.bind_eq_next, read8_eq_next, write8_eq_next]
  constructor
  · rintro ⟨v, ⟨h, rfl⟩, u, ⟨-, rfl⟩, e⟩
    cases e
    exact ⟨h, rfl⟩
  · rintro ⟨h, rfl⟩
    exact ⟨_, ⟨h, rfl⟩, _, ⟨h, rfl⟩, rfl⟩

/-- A store of one byte with its flags. -/
theorem storeByte_eq_next {e : Ea} {v : Byte} {s t : State} :
    storeByte e v s = .next t ↔
      s.mapped (effectiveAddress e s) = true ∧
        t = { s.poke (effectiveAddress e s) v with ccr := logicFlags s.ccr v } := by
  simp only [storeByte, Res.bind_eq_next, write8_eq_next]
  constructor
  · rintro ⟨u, ⟨h, rfl⟩, e⟩
    cases e
    exact ⟨h, rfl⟩
  · rintro ⟨h, rfl⟩
    exact ⟨_, ⟨h, rfl⟩, rfl⟩

/-- BSET and BCLR. -/
theorem writeBit_eq_next {n : BitVec 3} {b : Bool} {dd : Byte} {s t : State} :
    writeBit n b dd s = .next t ↔
      s.mapped (directAddress dd) = true ∧ t = s.poke (directAddress dd) (withBit (s.data (directAddress dd)) n b) := by
  simp only [writeBit, Res.bind_eq_next, read8_eq_next, write8_eq_next]
  constructor
  · rintro ⟨v, ⟨h, rfl⟩, -, rfl⟩
    exact ⟨h, rfl⟩
  · rintro ⟨h, rfl⟩
    exact ⟨_, ⟨h, rfl⟩, h, rfl⟩

/-- BRSET and BRCLR: C is the bit, PC moves where it equals the one wanted. -/
theorem branchOnBit_eq_next {n : BitVec 3} {want : Bool} {dd rr : Byte} {s t : State} :
    branchOnBit n want dd rr s = .next t ↔
      s.mapped (directAddress dd) = true ∧
        t = { s with ccr := { s.ccr with c := (s.data (directAddress dd)).getLsbD n.toNat } }.branchIf
          ((s.data (directAddress dd)).getLsbD n.toNat == want) rr := by
  simp only [branchOnBit, Res.bind_eq_next, read8_eq_next]
  constructor
  · rintro ⟨v, ⟨h, rfl⟩, e⟩
    cases e
    exact ⟨h, rfl⟩
  · rintro ⟨h, rfl⟩
    exact ⟨_, ⟨h, rfl⟩, rfl⟩

/-- Pushing a return address: its low byte at SP, its high byte below. -/
theorem pushReturn_eq_next {s t : State} :
    pushReturn s = .next t ↔
      s.mapped s.sp = true ∧ s.mapped (s.sp - 1) = true ∧
        t = { (s.poke s.sp (loByte s.pc)).poke (s.sp - 1) (hiByte s.pc) with sp := s.sp - 1 - 1 } := by
  simp only [pushReturn, pushBytes, Res.bind_eq_next, push8_eq_next]
  constructor
  · rintro ⟨u, ⟨h1, rfl⟩, v, ⟨h2, rfl⟩, e⟩
    cases e
    exact ⟨h1, h2, rfl⟩
  · rintro ⟨h1, h2, rfl⟩
    exact ⟨_, ⟨h1, rfl⟩, _, ⟨h2, rfl⟩, rfl⟩

/-- A row of DAA's table is for the flags and nibbles. -/
theorem daaMatches_iff {c h : Bool} {a : Byte} {row : DaaRow} :
    daaMatches c h a row = true ↔
      row.c = c ∧ row.h = h ∧ row.hiMin ≤ a.toNat / 16 ∧ a.toNat / 16 ≤ row.hiMax ∧ row.loMin ≤ a.toNat % 16 ∧
        a.toNat % 16 ≤ row.loMax := by
  simp only [daaMatches, Bool.and_eq_true, beq_iff_eq, decide_eq_true_eq, and_assoc]

/-- DAA's row is the first that matches. -/
theorem daaAdjust_of_first {rows before after : List DaaRow} {row : DaaRow} {c h : Bool} {a : Byte}
    (he : rows = before ++ row :: after) (hb : ∀ q ∈ before, ¬daaMatches c h a q = true) (hr : daaMatches c h a row = true) :
    daaAdjust rows c h a = some row :=
  find?_of_first he hb hr

theorem daaAdjust_eq_none {rows : List DaaRow} {c h : Bool} {a : Byte} :
    daaAdjust rows c h a = none ↔ ∀ q ∈ rows, ¬daaMatches c h a q = true := List.find?_eq_none

/-- Pushes complete exactly where no address they go through is unimplemented. -/
theorem pushBytes_completes {vs : List Byte} {s : State} :
    (∃ t, pushBytes vs s = .next t) ↔ ∀ k < vs.length, s.mapped (s.sp - BitVec.ofNat 16 k) = true := by
  induction vs generalizing s with
  | nil => simp [pushBytes]
  | cons v vs ih =>
    have hm : ∀ b, ({ s.poke s.sp v with sp := s.sp - 1 } : State).mapped b = s.mapped b := fun b => State.mapped_congr rfl b
    have hs : ∀ k : Nat, s.sp - 1 - BitVec.ofNat 16 k = s.sp - BitVec.ofNat 16 (k + 1) := by
      intro k
      rw [BitVec.ofNat_add]
      bv_omega
    have key : (∃ t, pushBytes (v :: vs) s = .next t) ↔
        s.mapped s.sp = true ∧ ∃ t, pushBytes vs { s.poke s.sp v with sp := s.sp - 1 } = .next t := by
      simp only [pushBytes, Res.bind_eq_next, push8_eq_next]
      constructor
      · rintro ⟨t, u, ⟨h, rfl⟩, e⟩
        exact ⟨h, t, e⟩
      · rintro ⟨h, t, e⟩
        exact ⟨t, _, ⟨h, rfl⟩, e⟩
    rw [key, ih]
    simp only [hm, hs, List.length_cons]
    constructor
    · rintro ⟨h0, h⟩ k hk
      cases k with
      | zero => simpa using h0
      | succ k => exact h k (by omega)
    · intro h
      exact ⟨by simpa using h 0 (by omega), fun k hk => h (k + 1) (by omega)⟩

/-- The k-th byte pushed lies k below the old SP, where that address is RAM. -/
theorem pushBytes_get {vs : List Byte} {s t : State} (h : pushBytes vs s = .next t) (hw : s.mem.wf = true)
    (hl : vs.length ≤ 65536) {k : Nat} (hk : k < vs.length) (hr : s.kindAt (s.sp - BitVec.ofNat 16 k) = .ram) :
    t.peek (s.sp - BitVec.ofNat 16 k) = vs[k] := by
  induction vs generalizing s k with
  | nil => simp at hk
  | cons v vs ih =>
    have hs : ∀ k : Nat, s.sp - 1 - BitVec.ofNat 16 k = s.sp - BitVec.ofNat 16 (k + 1) := by
      intro k
      rw [BitVec.ofNat_add]
      bv_omega
    simp only [pushBytes, Res.bind_eq_next] at h
    obtain ⟨u, hu, h⟩ := h
    obtain ⟨-, rfl⟩ := push8_eq_next.1 hu
    cases k with
    | zero =>
      have h0 : s.sp - BitVec.ofNat 16 0 = s.sp := by simp
      rw [h0] at hr ⊢
      have hp := pushBytes_peek (b := s.sp) h (by
        intro j hj e
        have hj' : j + 1 < 65536 := by simp only [List.length_cons] at hl; omega
        change s.sp = s.sp - 1 - BitVec.ofNat 16 j at e
        rw [hs] at e
        have : (BitVec.ofNat 16 (j + 1)).toNat = j + 1 := by
          rw [BitVec.toNat_ofNat]; omega
        bv_omega)
      rw [hp]
      exact State.peek_poke_self v hw hr
    | succ k =>
      have := ih (k := k) h (State.wf_poke _ _ hw) (by simp only [List.length_cons] at hl; omega)
        (by simpa using hk) (by change s.kindAt (s.sp - 1 - BitVec.ofNat 16 k) = .ram; rw [hs]; exact hr)
      change t.peek (s.sp - 1 - BitVec.ofNat 16 k) = _ at this
      rw [hs] at this
      simpa using this

end Sys2Proof.Machine
end

