-- ==== Sys2Proof/Laws/PerInstr.lean ====
section
/-!
SUPPORT. A family of statements about every instruction as syntax, one lemma per constructor: its encoding is 1 to 4 bytes
long where it is well-formed, empty where it is not, and is that of its first name (spec/30_encoding.md rules R80, R83,
R96).
-/

namespace Sys2Proof.Laws.EncodeLength

set_option Elab.async false

/-- A well-formed instruction has 1 to 4 bytes, any other term has none, and both names of an instruction have the same
bytes. -/
def Statement (i : Instr) : Prop :=
  (i.wellFormed = true → 1 ≤ (encode i).length ∧ (encode i).length ≤ 4) ∧ (i.wellFormed = false → encode i = []) ∧
    encode i.canonical = encode i

theorem encodeEa_length (low : Byte) (e : Ea) : 1 ≤ (encodeEa low e).length ∧ (encodeEa low e).length ≤ 4 := by
  cases e <;> simp [encodeEa]

theorem encodeOpnd8_length (low : Byte) (o : Opnd8) : 1 ≤ (encodeOpnd8 low o).length ∧ (encodeOpnd8 low o).length ≤ 4 := by
  cases o with
  | imm ii => simp [encodeOpnd8]
  | mem e => exact encodeEa_length low e

theorem encodeMov_length (o : MovOpnd) : 1 ≤ (encodeMov o).length ∧ (encodeMov o).length ≤ 4 := by
  cases o <;> simp [encodeMov]

theorem encodeCbeq_length (rr : Byte) (o : CbeqOpnd) : 1 ≤ (encodeCbeq rr o).length ∧ (encodeCbeq rr o).length ≤ 4 := by
  cases o <;> simp [encodeCbeq]

/-- Every form of the operand is well-formed: only the length and the name are left. -/
theorem of_length {i : Instr} (hw : i.wellFormed = true) (hl : 1 ≤ (encode i).length ∧ (encode i).length ≤ 4)
    (hc : encode i.canonical = encode i) : Statement i :=
  ⟨fun _ => hl, fun h => by simp [hw] at h, hc⟩

theorem lda (o : Opnd8) : Statement (.lda o) := of_length rfl (encodeOpnd8_length _ o) rfl
theorem ldx (o : Opnd8) : Statement (.ldx o) := of_length rfl (encodeOpnd8_length _ o) rfl
theorem ldhx (o : Opnd16) : Statement (.ldhx o) := by
  cases o <;> exact of_length rfl (by simp [encode]) rfl
theorem sta (e : Ea) : Statement (.sta e) := of_length rfl (encodeEa_length _ e) rfl
theorem stx (e : Ea) : Statement (.stx e) := of_length rfl (encodeEa_length _ e) rfl
theorem sthx (dd : Byte) : Statement (.sthx dd) := of_length rfl (by simp [encode]) rfl
theorem mov (o : MovOpnd) : Statement (.mov o) := of_length rfl (encodeMov_length o) rfl
theorem clr (e : Ea) : Statement (.clr e) := by
  cases e <;> simp [Statement, Instr.wellFormed, Ea.isRmwForm, Instr.canonical, encode, encodeRmw]
theorem clra : Statement (.clra) := of_length rfl (by simp [encode]) rfl
theorem clrx : Statement (.clrx) := of_length rfl (by simp [encode]) rfl
theorem clrh : Statement (.clrh) := of_length rfl (by simp [encode]) rfl
theorem tax : Statement (.tax) := of_length rfl (by simp [encode]) rfl
theorem txa : Statement (.txa) := of_length rfl (by simp [encode]) rfl
theorem tap : Statement (.tap) := of_length rfl (by simp [encode]) rfl
theorem tpa : Statement (.tpa) := of_length rfl (by simp [encode]) rfl
theorem tsx : Statement (.tsx) := of_length rfl (by simp [encode]) rfl
theorem txs : Statement (.txs) := of_length rfl (by simp [encode]) rfl
theorem rsp : Statement (.rsp) := of_length rfl (by simp [encode]) rfl
theorem psha : Statement (.psha) := of_length rfl (by simp [encode]) rfl
theorem pshh : Statement (.pshh) := of_length rfl (by simp [encode]) rfl
theorem pshx : Statement (.pshx) := of_length rfl (by simp [encode]) rfl
theorem pula : Statement (.pula) := of_length rfl (by simp [encode]) rfl
theorem pulh : Statement (.pulh) := of_length rfl (by simp [encode]) rfl
theorem pulx : Statement (.pulx) := of_length rfl (by simp [encode]) rfl
theorem adc (o : Opnd8) : Statement (.adc o) := of_length rfl (encodeOpnd8_length _ o) rfl
theorem add (o : Opnd8) : Statement (.add o) := of_length rfl (encodeOpnd8_length _ o) rfl
theorem sub (o : Opnd8) : Statement (.sub o) := of_length rfl (encodeOpnd8_length _ o) rfl
theorem sbc (o : Opnd8) : Statement (.sbc o) := of_length rfl (encodeOpnd8_length _ o) rfl
theorem cmp (o : Opnd8) : Statement (.cmp o) := of_length rfl (encodeOpnd8_length _ o) rfl
theorem cpx (o : Opnd8) : Statement (.cpx o) := of_length rfl (encodeOpnd8_length _ o) rfl
theorem cphx (o : Opnd16) : Statement (.cphx o) := by
  cases o <;> exact of_length rfl (by simp [encode]) rfl
theorem ais (ii : Byte) : Statement (.ais ii) := of_length rfl (by simp [encode]) rfl
theorem aix (ii : Byte) : Statement (.aix ii) := of_length rfl (by simp [encode]) rfl
theorem inc (e : Ea) : Statement (.inc e) := by
  cases e <;> simp [Statement, Instr.wellFormed, Ea.isRmwForm, Instr.canonical, encode, encodeRmw]
theorem inca : Statement (.inca) := of_length rfl (by simp [encode]) rfl
theorem incx : Statement (.incx) := of_length rfl (by simp [encode]) rfl
theorem dec (e : Ea) : Statement (.dec e) := by
  cases e <;> simp [Statement, Instr.wellFormed, Ea.isRmwForm, Instr.canonical, encode, encodeRmw]
theorem deca : Statement (.deca) := of_length rfl (by simp [encode]) rfl
theorem decx : Statement (.decx) := of_length rfl (by simp [encode]) rfl
theorem neg (e : Ea) : Statement (.neg e) := by
  cases e <;> simp [Statement, Instr.wellFormed, Ea.isRmwForm, Instr.canonical, encode, encodeRmw]
theorem nega : Statement (.nega) := of_length rfl (by simp [encode]) rfl
theorem negx : Statement (.negx) := of_length rfl (by simp [encode]) rfl
theorem tst (e : Ea) : Statement (.tst e) := by
  cases e <;> simp [Statement, Instr.wellFormed, Ea.isRmwForm, Instr.canonical, encode, encodeRmw]
theorem tsta : Statement (.tsta) := of_length rfl (by simp [encode]) rfl
theorem tstx : Statement (.tstx) := of_length rfl (by simp [encode]) rfl
theorem mul : Statement (.mul) := of_length rfl (by simp [encode]) rfl
theorem div : Statement (.div) := of_length rfl (by simp [encode]) rfl
theorem daa : Statement (.daa) := of_length rfl (by simp [encode]) rfl
theorem and (o : Opnd8) : Statement (.and o) := of_length rfl (encodeOpnd8_length _ o) rfl
theorem ora (o : Opnd8) : Statement (.ora o) := of_length rfl (encodeOpnd8_length _ o) rfl
theorem eor (o : Opnd8) : Statement (.eor o) := of_length rfl (encodeOpnd8_length _ o) rfl
theorem bit (o : Opnd8) : Statement (.bit o) := of_length rfl (encodeOpnd8_length _ o) rfl
theorem com (e : Ea) : Statement (.com e) := by
  cases e <;> simp [Statement, Instr.wellFormed, Ea.isRmwForm, Instr.canonical, encode, encodeRmw]
theorem coma : Statement (.coma) := of_length rfl (by simp [encode]) rfl
theorem comx : Statement (.comx) := of_length rfl (by simp [encode]) rfl
theorem nsa : Statement (.nsa) := of_length rfl (by simp [encode]) rfl
theorem lsl (e : Ea) : Statement (.lsl e) := by
  cases e <;> simp [Statement, Instr.wellFormed, Ea.isRmwForm, Instr.canonical, encode, encodeRmw]
theorem lsla : Statement (.lsla) := of_length rfl (by simp [encode]) rfl
theorem lslx : Statement (.lslx) := of_length rfl (by simp [encode]) rfl
theorem asl (e : Ea) : Statement (.asl e) := by
  cases e <;> simp [Statement, Instr.wellFormed, Ea.isRmwForm, Instr.canonical, encode, encodeRmw]
theorem asla : Statement (.asla) := of_length rfl (by simp [encode]) rfl
theorem aslx : Statement (.aslx) := of_length rfl (by simp [encode]) rfl
theorem asr (e : Ea) : Statement (.asr e) := by
  cases e <;> simp [Statement, Instr.wellFormed, Ea.isRmwForm, Instr.canonical, encode, encodeRmw]
theorem asra : Statement (.asra) := of_length rfl (by simp [encode]) rfl
theorem asrx : Statement (.asrx) := of_length rfl (by simp [encode]) rfl
theorem lsr (e : Ea) : Statement (.lsr e) := by
  cases e <;> simp [Statement, Instr.wellFormed, Ea.isRmwForm, Instr.canonical, encode, encodeRmw]
theorem lsra : Statement (.lsra) := of_length rfl (by simp [encode]) rfl
theorem lsrx : Statement (.lsrx) := of_length rfl (by simp [encode]) rfl
theorem rol (e : Ea) : Statement (.rol e) := by
  cases e <;> simp [Statement, Instr.wellFormed, Ea.isRmwForm, Instr.canonical, encode, encodeRmw]
theorem rola : Statement (.rola) := of_length rfl (by simp [encode]) rfl
theorem rolx : Statement (.rolx) := of_length rfl (by simp [encode]) rfl
theorem ror (e : Ea) : Statement (.ror e) := by
  cases e <;> simp [Statement, Instr.wellFormed, Ea.isRmwForm, Instr.canonical, encode, encodeRmw]
theorem rora : Statement (.rora) := of_length rfl (by simp [encode]) rfl
theorem rorx : Statement (.rorx) := of_length rfl (by simp [encode]) rfl
theorem bset (n : BitVec 3) (dd : Byte) : Statement (.bset n dd) := of_length rfl (by simp [encode]) rfl
theorem bclr (n : BitVec 3) (dd : Byte) : Statement (.bclr n dd) := of_length rfl (by simp [encode]) rfl
theorem clc : Statement (.clc) := of_length rfl (by simp [encode]) rfl
theorem sec : Statement (.sec) := of_length rfl (by simp [encode]) rfl
theorem bra (rr : Byte) : Statement (.bra rr) := of_length rfl (by simp [encode]) rfl
theorem brn (rr : Byte) : Statement (.brn rr) := of_length rfl (by simp [encode]) rfl
theorem bhi (rr : Byte) : Statement (.bhi rr) := of_length rfl (by simp [encode]) rfl
theorem bls (rr : Byte) : Statement (.bls rr) := of_length rfl (by simp [encode]) rfl
theorem bcc (rr : Byte) : Statement (.bcc rr) := of_length rfl (by simp [encode]) rfl
theorem bhs (rr : Byte) : Statement (.bhs rr) := of_length rfl (by simp [encode]) rfl
theorem bcs (rr : Byte) : Statement (.bcs rr) := of_length rfl (by simp [encode]) rfl
theorem blo (rr : Byte) : Statement (.blo rr) := of_length rfl (by simp [encode]) rfl
theorem bne (rr : Byte) : Statement (.bne rr) := of_length rfl (by simp [encode]) rfl
theorem beq (rr : Byte) : Statement (.beq rr) := of_length rfl (by simp [encode]) rfl
theorem bhcc (rr : Byte) : Statement (.bhcc rr) := of_length rfl (by simp [encode]) rfl
theorem bhcs (rr : Byte) : Statement (.bhcs rr) := of_length rfl (by simp [encode]) rfl
theorem bpl (rr : Byte) : Statement (.bpl rr) := of_length rfl (by simp [encode]) rfl
theorem bmi (rr : Byte) : Statement (.bmi rr) := of_length rfl (by simp [encode]) rfl
theorem bmc (rr : Byte) : Statement (.bmc rr) := of_length rfl (by simp [encode]) rfl
theorem bms (rr : Byte) : Statement (.bms rr) := of_length rfl (by simp [encode]) rfl
theorem bil (rr : Byte) : Statement (.bil rr) := of_length rfl (by simp [encode]) rfl
theorem bih (rr : Byte) : Statement (.bih rr) := of_length rfl (by simp [encode]) rfl
theorem bge (rr : Byte) : Statement (.bge rr) := of_length rfl (by simp [encode]) rfl
theorem blt (rr : Byte) : Statement (.blt rr) := of_length rfl (by simp [encode]) rfl
theorem bgt (rr : Byte) : Statement (.bgt rr) := of_length rfl (by simp [encode]) rfl
theorem ble (rr : Byte) : Statement (.ble rr) := of_length rfl (by simp [encode]) rfl
theorem brset (n : BitVec 3) (dd rr : Byte) : Statement (.brset n dd rr) := of_length rfl (by simp [encode]) rfl
theorem brclr (n : BitVec 3) (dd rr : Byte) : Statement (.brclr n dd rr) := of_length rfl (by simp [encode]) rfl
theorem cbeq (o : CbeqOpnd) (rr : Byte) : Statement (.cbeq o rr) := of_length rfl (encodeCbeq_length rr o) rfl
theorem cbeqa (ii rr : Byte) : Statement (.cbeqa ii rr) := of_length rfl (by simp [encode]) rfl
theorem cbeqx (ii rr : Byte) : Statement (.cbeqx ii rr) := of_length rfl (by simp [encode]) rfl
theorem dbnz (e : Ea) (rr : Byte) : Statement (.dbnz e rr) := by
  cases e <;> simp [Statement, Instr.wellFormed, Ea.isRmwForm, Instr.canonical, encode, encodeDbnz]
theorem dbnza (rr : Byte) : Statement (.dbnza rr) := of_length rfl (by simp [encode]) rfl
theorem dbnzx (rr : Byte) : Statement (.dbnzx rr) := of_length rfl (by simp [encode]) rfl
theorem bsr (rr : Byte) : Statement (.bsr rr) := of_length rfl (by simp [encode]) rfl
theorem jmp (e : Ea) : Statement (.jmp e) := by
  cases e <;> simp [Statement, Instr.wellFormed, Ea.isJumpForm, Instr.canonical, encode, encodeJump]
theorem jsr (e : Ea) : Statement (.jsr e) := by
  cases e <;> simp [Statement, Instr.wellFormed, Ea.isJumpForm, Instr.canonical, encode, encodeJump]
theorem rts : Statement (.rts) := of_length rfl (by simp [encode]) rfl
theorem nop : Statement (.nop) := of_length rfl (by simp [encode]) rfl
theorem sei : Statement (.sei) := of_length rfl (by simp [encode]) rfl
theorem cli : Statement (.cli) := of_length rfl (by simp [encode]) rfl
theorem swi : Statement (.swi) := of_length rfl (by simp [encode]) rfl
theorem rti : Statement (.rti) := of_length rfl (by simp [encode]) rfl
theorem wait : Statement (.wait) := of_length rfl (by simp [encode]) rfl
theorem stop : Statement (.stop) := of_length rfl (by simp [encode]) rfl

end Sys2Proof.Laws.EncodeLength
end

