-- ==== Sys2Proof/Laws/Reach.lean ====
section
/-!
SUPPORT. Which addresses an instruction's operand can have: the last sentence of spec/30_encoding.md rule R97.
-/

namespace Sys2Proof.Machine

set_option Elab.async false

/-- A direct address lies in the direct page, $0000 to $00FF (rule R112). -/
theorem directAddress_le (dd : Byte) : (directAddress dd).toNat ≤ 0xFF := by
  have := dd.isLt
  simp only [directAddress, zext16, BitVec.toNat_setWidth]
  omega

/-- CBEQ's address is the effective address of its memory operand. -/
theorem cbeqAddress_eq (o : CbeqOpnd) (s : State) : cbeqAddress o s = effectiveAddress o.memoryOperand s := by
  cases o <;> rfl

/-- An operand above the direct page is extended, indexed or stack-pointer relative. -/
theorem form_above_directPage {e : Ea} {s : State} (h : 0xFF < (effectiveAddress e s).toNat) :
    (∃ a, e = .ext a) ∨ e.isPointerForm = true := by
  cases e with
  | dir dd => exact absurd h (Nat.not_lt.2 (directAddress_le dd))
  | ext a => exact .inl ⟨a, rfl⟩
  | ix2 _ | ix1 _ | ix | sp2 _ | sp1 _ => exact .inr rfl

/-- A well-formed instruction with an extended operand is one of those with an EXT form. -/
theorem hasExtendedForm_of_ext {i : Instr} {a : Word} (hw : i.wellFormed = true) (he : .ext a ∈ i.memoryOperands) :
    i.hasExtendedForm = true := by
  cases i
  case mov o => cases o <;> simp [Instr.memoryOperands, MovOpnd.memoryOperands] at he
  case cbeq o _ => cases o <;> simp [Instr.memoryOperands, CbeqOpnd.memoryOperand] at he
  case ldhx o => cases o <;> simp [Instr.memoryOperands, Opnd16.memoryOperands] at he
  case cphx o => cases o <;> simp [Instr.memoryOperands, Opnd16.memoryOperands] at he
  all_goals first
    | rfl
    | (cases he; done)
    | (obtain rfl := List.mem_singleton.1 he; exact hw)
    | (exact Ea.noConfusion (List.mem_singleton.1 he))

/-- Rule R97: an instruction with no EXT form can reach an operand above $00FF only through an indexed or stack-pointer mode.
The operand's address is that of its first byte: a 16-bit operand at $00FF has its second byte at $0100 (rule R52). -/
theorem operand_above_directPage {i : Instr} {e : Ea} {s : State} (hw : i.wellFormed = true) (hi : i.hasExtendedForm = false)
    (he : e ∈ i.memoryOperands) (ha : 0xFF < (effectiveAddress e s).toNat) : e.isPointerForm = true := by
  rcases form_above_directPage ha with ⟨a, rfl⟩ | h
  · exact absurd (hasExtendedForm_of_ext hw he) (by simp [hi])
  · exact h

end Sys2Proof.Machine
end

