-- ==== Sys2Proof/Tests/Slice0.lean ====
section
/-!
SUPPORT. The model's own tests. Part 1: the well-formedness checks refuse. Part 2: every encoding of spec/opcode_table.json,
its bytes written out, decodes to its instruction. Part 3: single steps whose expected values are the Example lines of the
instructions' rules. Part 4: for every obligation with hypotheses, a concrete state and operands that meet them.
-/

namespace Sys2Proof.Tests

set_option Elab.async false
set_option maxRecDepth 20000

open Sys2Proof.Machine Sys2Proof.Claims

/-! ### Part 1: ill-formed terms are refused -/

/-- The read-modify-write group, CLR, TST and DBNZ have no EXT, IX2 or SP2 form (rule R83). -/
theorem test_wellFormed_rmw :
    ∀ e ∈ [Ea.ext 0x1234, Ea.ix2 0x1234, Ea.sp2 0x1234],
      ∀ i ∈ [Instr.clr e, .inc e, .dec e, .neg e, .tst e, .com e, .lsl e, .asl e, .asr e, .lsr e, .rol e, .ror e, .dbnz e 0x10],
        i.wellFormed = false := by decide

/-- JMP and JSR have no stack-pointer form (rules R286, R287). -/
theorem test_wellFormed_jump :
    ∀ e ∈ [Ea.sp1 0x12, Ea.sp2 0x1234], ∀ i ∈ [Instr.jmp e, .jsr e], i.wellFormed = false := by decide

/-- The instructions with an EXT form (rule R83) have well-formed EXT terms. -/
theorem test_wellFormed_extended :
    ∀ i ∈ [Instr.lda (.mem (.ext 0x1234)), .ldx (.mem (.ext 0x1234)), .adc (.mem (.ext 0x1234)), .add (.mem (.ext 0x1234)),
        .sub (.mem (.ext 0x1234)), .sbc (.mem (.ext 0x1234)), .cmp (.mem (.ext 0x1234)), .cpx (.mem (.ext 0x1234)),
        .and (.mem (.ext 0x1234)), .ora (.mem (.ext 0x1234)), .eor (.mem (.ext 0x1234)), .bit (.mem (.ext 0x1234)),
        .sta (.ext 0x1234), .stx (.ext 0x1234), .jmp (.ext 0x1234), .jsr (.ext 0x1234)],
      i.wellFormed = true ∧ i.hasExtendedForm = true ∧ Ea.ext 0x1234 ∈ i.memoryOperands := by decide

/-- INC at H:X = $0100 meets rule R97's case: no EXT form, an operand above $00FF, an indexed mode. -/
theorem test_reach_above_directPage :
    (Instr.inc .ix).wellFormed = true ∧ (Instr.inc .ix).hasExtendedForm = false ∧ Ea.ix ∈ (Instr.inc .ix).memoryOperands ∧
      0xFF < (effectiveAddress .ix { State.reset with h := 0x01 }).toNat ∧ Ea.ix.isPointerForm = true := by decide

/-- An ill-formed term has no bytes. -/
theorem test_encode_illFormed : encode (.neg (.ext 0x1234)) = [] ∧ encode (.jmp (.sp1 0x12)) = [] ∧ encode (.dbnz (.ix2 0) 0) = [] := by
  decide

/-! ### Part 2: decoding -/

/-- Words of rules R261 to R288, ASL, BHS and BLO words as LSL, BCC and BCS. -/
theorem test_decode_control_part1 :
    ∀ p ∈ ([ ([0x00, 0x12, 0xF0], .brset 0 0x12 0xF0), ([0x01, 0x12, 0xF0], .brclr 0 0x12 0xF0),
      ([0x02, 0x12, 0xF0], .brset 1 0x12 0xF0), ([0x03, 0x12, 0xF0], .brclr 1 0x12 0xF0),
      ([0x04, 0x12, 0xF0], .brset 2 0x12 0xF0), ([0x05, 0x12, 0xF0], .brclr 2 0x12 0xF0),
      ([0x06, 0x12, 0xF0], .brset 3 0x12 0xF0), ([0x07, 0x12, 0xF0], .brclr 3 0x12 0xF0),
      ([0x08, 0x12, 0xF0], .brset 4 0x12 0xF0), ([0x09, 0x12, 0xF0], .brclr 4 0x12 0xF0),
      ([0x0A, 0x12, 0xF0], .brset 5 0x12 0xF0), ([0x0B, 0x12, 0xF0], .brclr 5 0x12 0xF0),
      ([0x0C, 0x12, 0xF0], .brset 6 0x12 0xF0), ([0x0D, 0x12, 0xF0], .brclr 6 0x12 0xF0),
      ([0x0E, 0x12, 0xF0], .brset 7 0x12 0xF0), ([0x0F, 0x12, 0xF0], .brclr 7 0x12 0xF0), ([0x20, 0xF0], .bra 0xF0),
      ([0x21, 0xF0], .brn 0xF0), ([0x22, 0xF0], .bhi 0xF0), ([0x23, 0xF0], .bls 0xF0), ([0x24, 0xF0], .bcc 0xF0),
      ([0x25, 0xF0], .bcs 0xF0), ([0x26, 0xF0], .bne 0xF0), ([0x27, 0xF0], .beq 0xF0) ] : List (List Byte × Instr)),
      decodeBytes p.1 = .ok p.2 p.1.length := by decide

/-- Words of rules R261 to R288, ASL, BHS and BLO words as LSL, BCC and BCS. -/
theorem test_decode_control_part2 :
    ∀ p ∈ ([ ([0x28, 0xF0], .bhcc 0xF0), ([0x29, 0xF0], .bhcs 0xF0), ([0x2A, 0xF0], .bpl 0xF0),
      ([0x2B, 0xF0], .bmi 0xF0), ([0x2C, 0xF0], .bmc 0xF0), ([0x2D, 0xF0], .bms 0xF0), ([0x2E, 0xF0], .bil 0xF0),
      ([0x2F, 0xF0], .bih 0xF0), ([0x31, 0x12, 0xF0], .cbeq (.dir 0x12) 0xF0),
      ([0x3B, 0x12, 0xF0], .dbnz (.dir 0x12) 0xF0), ([0x41, 0xA5, 0xF0], .cbeqa 0xA5 0xF0),
      ([0x4B, 0xF0], .dbnza 0xF0), ([0x51, 0xA5, 0xF0], .cbeqx 0xA5 0xF0), ([0x5B, 0xF0], .dbnzx 0xF0),
      ([0x61, 0x9A, 0xF0], .cbeq (.ix1Plus 0x9A) 0xF0), ([0x6B, 0x9A, 0xF0], .dbnz (.ix1 0x9A) 0xF0),
      ([0x71, 0xF0], .cbeq .ixPlus 0xF0), ([0x7B, 0xF0], .dbnz .ix 0xF0), ([0x81], .rts), ([0x90, 0xF0], .bge 0xF0),
      ([0x91, 0xF0], .blt 0xF0), ([0x92, 0xF0], .bgt 0xF0), ([0x93, 0xF0], .ble 0xF0), ([0xAD, 0xF0], .bsr 0xF0) ] : List (List Byte × Instr)),
      decodeBytes p.1 = .ok p.2 p.1.length := by decide

/-- Words of rules R261 to R288, ASL, BHS and BLO words as LSL, BCC and BCS. -/
theorem test_decode_control_part3 :
    ∀ p ∈ ([ ([0xBC, 0x12], .jmp (.dir 0x12)), ([0xBD, 0x12], .jsr (.dir 0x12)),
      ([0xCC, 0x34, 0x56], .jmp (.ext 0x3456)), ([0xCD, 0x34, 0x56], .jsr (.ext 0x3456)),
      ([0xDC, 0x78, 0x9A], .jmp (.ix2 0x789A)), ([0xDD, 0x78, 0x9A], .jsr (.ix2 0x789A)),
      ([0xEC, 0x9A], .jmp (.ix1 0x9A)), ([0xED, 0x9A], .jsr (.ix1 0x9A)), ([0xFC], .jmp .ix), ([0xFD], .jsr .ix),
      ([0x9E, 0x61, 0x9A, 0xF0], .cbeq (.sp1 0x9A) 0xF0), ([0x9E, 0x6B, 0x9A, 0xF0], .dbnz (.sp1 0x9A) 0xF0) ] : List (List Byte × Instr)),
      decodeBytes p.1 = .ok p.2 p.1.length := by decide

/-- Words of rules R220 to R234, ASL, BHS and BLO words as LSL, BCC and BCS. -/
theorem test_decode_logic_part1 :
    ∀ p ∈ ([ ([0x10, 0x12], .bset 0 0x12), ([0x11, 0x12], .bclr 0 0x12), ([0x12, 0x12], .bset 1 0x12),
      ([0x13, 0x12], .bclr 1 0x12), ([0x14, 0x12], .bset 2 0x12), ([0x15, 0x12], .bclr 2 0x12),
      ([0x16, 0x12], .bset 3 0x12), ([0x17, 0x12], .bclr 3 0x12), ([0x18, 0x12], .bset 4 0x12),
      ([0x19, 0x12], .bclr 4 0x12), ([0x1A, 0x12], .bset 5 0x12), ([0x1B, 0x12], .bclr 5 0x12),
      ([0x1C, 0x12], .bset 6 0x12), ([0x1D, 0x12], .bclr 6 0x12), ([0x1E, 0x12], .bset 7 0x12),
      ([0x1F, 0x12], .bclr 7 0x12), ([0x33, 0x12], .com (.dir 0x12)), ([0x34, 0x12], .lsr (.dir 0x12)),
      ([0x36, 0x12], .ror (.dir 0x12)), ([0x37, 0x12], .asr (.dir 0x12)), ([0x38, 0x12], .lsl (.dir 0x12)),
      ([0x39, 0x12], .rol (.dir 0x12)), ([0x43], .coma), ([0x44], .lsra) ] : List (List Byte × Instr)),
      decodeBytes p.1 = .ok p.2 p.1.length := by decide

/-- Words of rules R220 to R234, ASL, BHS and BLO words as LSL, BCC and BCS. -/
theorem test_decode_logic_part2 :
    ∀ p ∈ ([ ([0x46], .rora), ([0x47], .asra), ([0x48], .lsla), ([0x49], .rola), ([0x53], .comx), ([0x54], .lsrx),
      ([0x56], .rorx), ([0x57], .asrx), ([0x58], .lslx), ([0x59], .rolx), ([0x62], .nsa),
      ([0x63, 0x9A], .com (.ix1 0x9A)), ([0x64, 0x9A], .lsr (.ix1 0x9A)), ([0x66, 0x9A], .ror (.ix1 0x9A)),
      ([0x67, 0x9A], .asr (.ix1 0x9A)), ([0x68, 0x9A], .lsl (.ix1 0x9A)), ([0x69, 0x9A], .rol (.ix1 0x9A)),
      ([0x73], .com .ix), ([0x74], .lsr .ix), ([0x76], .ror .ix), ([0x77], .asr .ix), ([0x78], .lsl .ix),
      ([0x79], .rol .ix), ([0x98], .clc) ] : List (List Byte × Instr)),
      decodeBytes p.1 = .ok p.2 p.1.length := by decide

/-- Words of rules R220 to R234, ASL, BHS and BLO words as LSL, BCC and BCS. -/
theorem test_decode_logic_part3 :
    ∀ p ∈ ([ ([0x99], .sec), ([0xA4, 0xA5], .and (.imm 0xA5)), ([0xA5, 0xA5], .bit (.imm 0xA5)),
      ([0xA8, 0xA5], .eor (.imm 0xA5)), ([0xAA, 0xA5], .ora (.imm 0xA5)), ([0xB4, 0x12], .and (.mem (.dir 0x12))),
      ([0xB5, 0x12], .bit (.mem (.dir 0x12))), ([0xB8, 0x12], .eor (.mem (.dir 0x12))),
      ([0xBA, 0x12], .ora (.mem (.dir 0x12))), ([0xC4, 0x34, 0x56], .and (.mem (.ext 0x3456))),
      ([0xC5, 0x34, 0x56], .bit (.mem (.ext 0x3456))), ([0xC8, 0x34, 0x56], .eor (.mem (.ext 0x3456))),
      ([0xCA, 0x34, 0x56], .ora (.mem (.ext 0x3456))), ([0xD4, 0x78, 0x9A], .and (.mem (.ix2 0x789A))),
      ([0xD5, 0x78, 0x9A], .bit (.mem (.ix2 0x789A))), ([0xD8, 0x78, 0x9A], .eor (.mem (.ix2 0x789A))),
      ([0xDA, 0x78, 0x9A], .ora (.mem (.ix2 0x789A))), ([0xE4, 0x9A], .and (.mem (.ix1 0x9A))),
      ([0xE5, 0x9A], .bit (.mem (.ix1 0x9A))), ([0xE8, 0x9A], .eor (.mem (.ix1 0x9A))),
      ([0xEA, 0x9A], .ora (.mem (.ix1 0x9A))), ([0xF4], .and (.mem .ix)), ([0xF5], .bit (.mem .ix)),
      ([0xF8], .eor (.mem .ix)) ] : List (List Byte × Instr)),
      decodeBytes p.1 = .ok p.2 p.1.length := by decide

/-- Words of rules R220 to R234, ASL, BHS and BLO words as LSL, BCC and BCS. -/
theorem test_decode_logic_part4 :
    ∀ p ∈ ([ ([0xFA], .ora (.mem .ix)), ([0x9E, 0x63, 0x9A], .com (.sp1 0x9A)),
      ([0x9E, 0x64, 0x9A], .lsr (.sp1 0x9A)), ([0x9E, 0x66, 0x9A], .ror (.sp1 0x9A)),
      ([0x9E, 0x67, 0x9A], .asr (.sp1 0x9A)), ([0x9E, 0x68, 0x9A], .lsl (.sp1 0x9A)),
      ([0x9E, 0x69, 0x9A], .rol (.sp1 0x9A)), ([0x9E, 0xD4, 0x78, 0x9A], .and (.mem (.sp2 0x789A))),
      ([0x9E, 0xD5, 0x78, 0x9A], .bit (.mem (.sp2 0x789A))), ([0x9E, 0xD8, 0x78, 0x9A], .eor (.mem (.sp2 0x789A))),
      ([0x9E, 0xDA, 0x78, 0x9A], .ora (.mem (.sp2 0x789A))), ([0x9E, 0xE4, 0x9A], .and (.mem (.sp1 0x9A))),
      ([0x9E, 0xE5, 0x9A], .bit (.mem (.sp1 0x9A))), ([0x9E, 0xE8, 0x9A], .eor (.mem (.sp1 0x9A))),
      ([0x9E, 0xEA, 0x9A], .ora (.mem (.sp1 0x9A))) ] : List (List Byte × Instr)),
      decodeBytes p.1 = .ok p.2 p.1.length := by decide

/-- Words of rules R180 to R195. -/
theorem test_decode_arithmetic_part1 :
    ∀ p ∈ ([ ([0x30, 0x12], .neg (.dir 0x12)), ([0x3A, 0x12], .dec (.dir 0x12)), ([0x3C, 0x12], .inc (.dir 0x12)),
      ([0x3D, 0x12], .tst (.dir 0x12)), ([0x40], .nega), ([0x42], .mul), ([0x4A], .deca), ([0x4C], .inca),
      ([0x4D], .tsta), ([0x50], .negx), ([0x52], .div), ([0x5A], .decx), ([0x5C], .incx), ([0x5D], .tstx),
      ([0x60, 0x9A], .neg (.ix1 0x9A)), ([0x65, 0xBC, 0xDE], .cphx (.imm 0xBCDE)), ([0x6A, 0x9A], .dec (.ix1 0x9A)),
      ([0x6C, 0x9A], .inc (.ix1 0x9A)), ([0x6D, 0x9A], .tst (.ix1 0x9A)), ([0x70], .neg .ix), ([0x72], .daa),
      ([0x75, 0x12], .cphx (.dir 0x12)), ([0x7A], .dec .ix), ([0x7C], .inc .ix) ] : List (List Byte × Instr)),
      decodeBytes p.1 = .ok p.2 p.1.length := by decide

/-- Words of rules R180 to R195. -/
theorem test_decode_arithmetic_part2 :
    ∀ p ∈ ([ ([0x7D], .tst .ix), ([0xA0, 0xA5], .sub (.imm 0xA5)), ([0xA1, 0xA5], .cmp (.imm 0xA5)),
      ([0xA2, 0xA5], .sbc (.imm 0xA5)), ([0xA3, 0xA5], .cpx (.imm 0xA5)), ([0xA7, 0xA5], .ais 0xA5),
      ([0xA9, 0xA5], .adc (.imm 0xA5)), ([0xAB, 0xA5], .add (.imm 0xA5)), ([0xAF, 0xA5], .aix 0xA5),
      ([0xB0, 0x12], .sub (.mem (.dir 0x12))), ([0xB1, 0x12], .cmp (.mem (.dir 0x12))),
      ([0xB2, 0x12], .sbc (.mem (.dir 0x12))), ([0xB3, 0x12], .cpx (.mem (.dir 0x12))),
      ([0xB9, 0x12], .adc (.mem (.dir 0x12))), ([0xBB, 0x12], .add (.mem (.dir 0x12))),
      ([0xC0, 0x34, 0x56], .sub (.mem (.ext 0x3456))), ([0xC1, 0x34, 0x56], .cmp (.mem (.ext 0x3456))),
      ([0xC2, 0x34, 0x56], .sbc (.mem (.ext 0x3456))), ([0xC3, 0x34, 0x56], .cpx (.mem (.ext 0x3456))),
      ([0xC9, 0x34, 0x56], .adc (.mem (.ext 0x3456))), ([0xCB, 0x34, 0x56], .add (.mem (.ext 0x3456))),
      ([0xD0, 0x78, 0x9A], .sub (.mem (.ix2 0x789A))), ([0xD1, 0x78, 0x9A], .cmp (.mem (.ix2 0x789A))),
      ([0xD2, 0x78, 0x9A], .sbc (.mem (.ix2 0x789A))) ] : List (List Byte × Instr)),
      decodeBytes p.1 = .ok p.2 p.1.length := by decide

/-- Words of rules R180 to R195. -/
theorem test_decode_arithmetic_part3 :
    ∀ p ∈ ([ ([0xD3, 0x78, 0x9A], .cpx (.mem (.ix2 0x789A))), ([0xD9, 0x78, 0x9A], .adc (.mem (.ix2 0x789A))),
      ([0xDB, 0x78, 0x9A], .add (.mem (.ix2 0x789A))), ([0xE0, 0x9A], .sub (.mem (.ix1 0x9A))),
      ([0xE1, 0x9A], .cmp (.mem (.ix1 0x9A))), ([0xE2, 0x9A], .sbc (.mem (.ix1 0x9A))),
      ([0xE3, 0x9A], .cpx (.mem (.ix1 0x9A))), ([0xE9, 0x9A], .adc (.mem (.ix1 0x9A))),
      ([0xEB, 0x9A], .add (.mem (.ix1 0x9A))), ([0xF0], .sub (.mem .ix)), ([0xF1], .cmp (.mem .ix)),
      ([0xF2], .sbc (.mem .ix)), ([0xF3], .cpx (.mem .ix)), ([0xF9], .adc (.mem .ix)), ([0xFB], .add (.mem .ix)),
      ([0x9E, 0x60, 0x9A], .neg (.sp1 0x9A)), ([0x9E, 0x6A, 0x9A], .dec (.sp1 0x9A)),
      ([0x9E, 0x6C, 0x9A], .inc (.sp1 0x9A)), ([0x9E, 0x6D, 0x9A], .tst (.sp1 0x9A)),
      ([0x9E, 0xD0, 0x78, 0x9A], .sub (.mem (.sp2 0x789A))), ([0x9E, 0xD1, 0x78, 0x9A], .cmp (.mem (.sp2 0x789A))),
      ([0x9E, 0xD2, 0x78, 0x9A], .sbc (.mem (.sp2 0x789A))), ([0x9E, 0xD3, 0x78, 0x9A], .cpx (.mem (.sp2 0x789A))),
      ([0x9E, 0xD9, 0x78, 0x9A], .adc (.mem (.sp2 0x789A))) ] : List (List Byte × Instr)),
      decodeBytes p.1 = .ok p.2 p.1.length := by decide

/-- Words of rules R180 to R195. -/
theorem test_decode_arithmetic_part4 :
    ∀ p ∈ ([ ([0x9E, 0xDB, 0x78, 0x9A], .add (.mem (.sp2 0x789A))), ([0x9E, 0xE0, 0x9A], .sub (.mem (.sp1 0x9A))),
      ([0x9E, 0xE1, 0x9A], .cmp (.mem (.sp1 0x9A))), ([0x9E, 0xE2, 0x9A], .sbc (.mem (.sp1 0x9A))),
      ([0x9E, 0xE3, 0x9A], .cpx (.mem (.sp1 0x9A))), ([0x9E, 0xE9, 0x9A], .adc (.mem (.sp1 0x9A))),
      ([0x9E, 0xEB, 0x9A], .add (.mem (.sp1 0x9A))) ] : List (List Byte × Instr)),
      decodeBytes p.1 = .ok p.2 p.1.length := by decide

/-- Words of rules R140 to R160. -/
theorem test_decode_transfers_part1 :
    ∀ p ∈ ([ ([0x35, 0x12], .sthx 0x12), ([0x3F, 0x12], .clr (.dir 0x12)), ([0x45, 0xBC, 0xDE], .ldhx (.imm 0xBCDE)),
      ([0x4E, 0x12, 0x13], .mov (.dd 0x12 0x13)), ([0x4F], .clra), ([0x55, 0x12], .ldhx (.dir 0x12)),
      ([0x5E, 0x12], .mov (.dixPlus 0x12)), ([0x5F], .clrx), ([0x6E, 0xA5, 0x12], .mov (.imd 0xA5 0x12)),
      ([0x6F, 0x9A], .clr (.ix1 0x9A)), ([0x7E, 0x12], .mov (.ixPlusD 0x12)), ([0x7F], .clr .ix), ([0x84], .tap),
      ([0x85], .tpa), ([0x86], .pula), ([0x87], .psha), ([0x88], .pulx), ([0x89], .pshx), ([0x8A], .pulh),
      ([0x8B], .pshh), ([0x8C], .clrh), ([0x94], .txs), ([0x95], .tsx), ([0x97], .tax) ] : List (List Byte × Instr)),
      decodeBytes p.1 = .ok p.2 p.1.length := by decide

/-- Words of rules R140 to R160. -/
theorem test_decode_transfers_part2 :
    ∀ p ∈ ([ ([0x9C], .rsp), ([0x9F], .txa), ([0xA6, 0xA5], .lda (.imm 0xA5)), ([0xAE, 0xA5], .ldx (.imm 0xA5)),
      ([0xB6, 0x12], .lda (.mem (.dir 0x12))), ([0xB7, 0x12], .sta (.dir 0x12)),
      ([0xBE, 0x12], .ldx (.mem (.dir 0x12))), ([0xBF, 0x12], .stx (.dir 0x12)),
      ([0xC6, 0x34, 0x56], .lda (.mem (.ext 0x3456))), ([0xC7, 0x34, 0x56], .sta (.ext 0x3456)),
      ([0xCE, 0x34, 0x56], .ldx (.mem (.ext 0x3456))), ([0xCF, 0x34, 0x56], .stx (.ext 0x3456)),
      ([0xD6, 0x78, 0x9A], .lda (.mem (.ix2 0x789A))), ([0xD7, 0x78, 0x9A], .sta (.ix2 0x789A)),
      ([0xDE, 0x78, 0x9A], .ldx (.mem (.ix2 0x789A))), ([0xDF, 0x78, 0x9A], .stx (.ix2 0x789A)),
      ([0xE6, 0x9A], .lda (.mem (.ix1 0x9A))), ([0xE7, 0x9A], .sta (.ix1 0x9A)),
      ([0xEE, 0x9A], .ldx (.mem (.ix1 0x9A))), ([0xEF, 0x9A], .stx (.ix1 0x9A)), ([0xF6], .lda (.mem .ix)),
      ([0xF7], .sta .ix), ([0xFE], .ldx (.mem .ix)), ([0xFF], .stx .ix) ] : List (List Byte × Instr)),
      decodeBytes p.1 = .ok p.2 p.1.length := by decide

/-- Words of rules R140 to R160. -/
theorem test_decode_transfers_part3 :
    ∀ p ∈ ([ ([0x9E, 0x6F, 0x9A], .clr (.sp1 0x9A)), ([0x9E, 0xD6, 0x78, 0x9A], .lda (.mem (.sp2 0x789A))),
      ([0x9E, 0xD7, 0x78, 0x9A], .sta (.sp2 0x789A)), ([0x9E, 0xDE, 0x78, 0x9A], .ldx (.mem (.sp2 0x789A))),
      ([0x9E, 0xDF, 0x78, 0x9A], .stx (.sp2 0x789A)), ([0x9E, 0xE6, 0x9A], .lda (.mem (.sp1 0x9A))),
      ([0x9E, 0xE7, 0x9A], .sta (.sp1 0x9A)), ([0x9E, 0xEE, 0x9A], .ldx (.mem (.sp1 0x9A))),
      ([0x9E, 0xEF, 0x9A], .stx (.sp1 0x9A)) ] : List (List Byte × Instr)),
      decodeBytes p.1 = .ok p.2 p.1.length := by decide

/-- Words of rules R310 to R316. -/
theorem test_decode_system :
    ∀ p ∈ ([ ([0x80], .rti), ([0x83], .swi), ([0x8E], .stop), ([0x8F], .wait), ([0x9A], .cli), ([0x9B], .sei),
      ([0x9D], .nop) ] : List (List Byte × Instr)),
      decodeBytes p.1 = .ok p.2 p.1.length := by decide

/-- Unassigned encodings are refused by name (rule R87). -/
theorem test_decode_unassigned :
    (∀ b ∈ ([0x32, 0x3E, 0x82, 0x8D, 0x96, 0xAC] : List Byte), decodeBytes [b] = .unassigned (b.setWidth 16)) ∧
      ∀ b ∈ ([0x62, 0x65, 0x6E, 0xDC, 0xDD, 0xEC, 0xED, 0x9E] : List Byte), decodeBytes [0x9E, b] = .unassigned (0x9E00 + b.setWidth 16) := by
  decide

/-- Table words: a one-byte row, and a page-2 row in the table's own numbering and in the order of the bytes. -/
theorem test_decodeTableWord :
    decodeTableWord 8 0x4C = some .inca ∧ decodeTableWord 16 0x9E60 = some (.neg (.sp1 0)) ∧
      decodeTableWord 16 0x609E = some (.neg (.sp1 0)) ∧ decodeTableWord 32 0x3412D69E = some (.lda (.mem (.sp2 0x1234))) ∧
      decodeTableWord 8 0x32 = none := by decide

/-! ### Part 3: single steps, values from the Example lines of the rules -/

/-- Flags written as numbers: V H I N Z C. -/
def flags (v h i n z c : Nat) : Ccr := ⟨v != 0, h != 0, i != 0, n != 0, z != 0, c != 0⟩

/-- A state at $8000 with all flags clear and empty memory. -/
def start : State := { State.reset with pc := 0x8000, ccr := flags 0 0 0 0 0 0 }

/-- What `f` reads after one step over the bytes `bs` placed at PC; none where the step stops. -/
def after {α : Type} (bs : List Byte) (s : State) (f : State → α) : Option α :=
  match step (s.withBytesAtPc bs) with
  | .next t => some (f t)
  | .fault _ => none
  | .refused _ => none

theorem test_lda :
    after [0xA6, 0x80] { start with ccr := flags 1 0 0 0 0 1 } (fun t => (t.a, t.ccr, t.pc)) = some (0x80, flags 0 0 0 1 0 1, 0x8002) := by decide

theorem test_lda_ix1 :
    after [0xE6, 0x10] { start with h := 0x01, x := 0xF8, mem := [(0x0208, 0x5A)] } (fun t => (t.a, t.ccr)) = some (0x5A, flags 0 0 0 0 0 0) := by decide

theorem test_ldx :
    after [0xCE, 0x12, 0x34] { start with x := 0x55 } (fun t => (t.x, t.ccr)) = some (0x00, flags 0 0 0 0 1 0) := by decide

theorem test_ldhx :
    after [0x55, 0x50] { start with mem := [(0x50, 0x80)] } (fun t => (t.h, t.x, t.ccr)) = some (0x80, 0x00, flags 0 0 0 1 0 0) := by decide

theorem test_sta :
    after [0xF7] { start with a := 0x9C, h := 0x02 } (fun t => (t.peek 0x0200, t.ccr)) = some (0x9C, flags 0 0 0 1 0 0) := by decide

theorem test_stx :
    after [0x9E, 0xDF, 0x01, 0x00] { start with x := 0x7F, sp := 0x00F0 } (fun t => (t.peek 0x01F0, t.ccr)) = some (0x7F, flags 0 0 0 0 0 0) := by decide

theorem test_sthx :
    after [0x35, 0x60] { start with h := 0xAB, x := 0xCD } (fun t => (t.peek 0x60, t.peek 0x61, t.ccr)) = some (0xAB, 0xCD, flags 0 0 0 1 0 0) := by decide

theorem test_mov_imd :
    after [0x6E, 0x55, 0x20] start (fun t => (t.peek 0x20, t.ccr)) = some (0x55, flags 0 0 0 0 0 0) := by decide

theorem test_mov_ixPlusD :
    after [0x7E, 0x30] { start with h := 0x01, x := 0xFF, mem := [(0x30, 0x11)] } (fun t => (t.peek 0x30, t.hx, t.ccr)) = some (0x00, 0x0200, flags 0 0 0 0 1 0) := by decide

theorem test_clr :
    after [0x3F, 0x10] { start with mem := [(0x10, 0xFF)], ccr := flags 1 0 0 1 0 1 } (fun t => (t.peek 0x10, t.ccr)) = some (0x00, flags 0 0 0 0 1 1) := by decide

theorem test_clrh :
    after [0x8C] { start with h := 0x55 } (fun t => (t.h, t.ccr)) = some (0x00, flags 0 0 0 0 1 0) := by decide

theorem test_tap :
    after [0x84] { start with a := 0xFF } (fun t => t.ccr) = some (flags 1 1 1 1 1 1) := by decide

theorem test_tpa :
    after [0x85] { start with ccr := flags 1 0 1 0 1 1 } (fun t => t.a) = some 0xEB := by decide

theorem test_tsx :
    after [0x95] start (fun t => (t.h, t.x)) = some (0x01, 0x00) := by decide

theorem test_txs :
    after [0x94] { start with h := 0x01 } (fun t => t.sp) = some 0x00FF := by decide

theorem test_rsp :
    after [0x9C] { start with sp := 0x1234 } (fun t => t.sp) = some 0x12FF := by decide

theorem test_psha :
    after [0x87] { start with a := 0x5A } (fun t => (t.peek 0x00FF, t.sp)) = some (0x5A, 0x00FE) := by decide

theorem test_pshh :
    after [0x8B] { start with h := 0x12, sp := 0x00FE } (fun t => (t.peek 0x00FE, t.sp)) = some (0x12, 0x00FD) := by decide

theorem test_pula :
    after [0x86] { start with sp := 0x00FE, mem := [(0x00FF, 0x80)], ccr := flags 0 0 0 0 1 0 } (fun t => (t.a, t.sp, t.ccr)) = some (0x80, 0x00FF, flags 0 0 0 0 1 0) := by decide

theorem test_pulx :
    after [0x88] { start with sp := 0xFFFF, mem := [(0x0000, 0x99)] } (fun t => (t.x, t.sp)) = some (0x99, 0x0000) := by decide

theorem test_adc :
    after [0xA9, 0x00] { start with a := 0x7F, ccr := flags 0 0 0 0 0 1 } (fun t => (t.a, t.ccr)) = some (0x80, flags 1 1 0 1 0 0) := by decide

theorem test_add :
    after [0xAB, 0x80] { start with a := 0x80 } (fun t => (t.a, t.ccr)) = some (0x00, flags 1 0 0 0 1 1) := by decide

theorem test_sub :
    after [0xA0, 0x01] { start with a := 0x80 } (fun t => (t.a, t.ccr)) = some (0x7F, flags 1 0 0 0 0 0) := by decide

theorem test_sbc :
    after [0xA2, 0x7F] { start with a := 0x80, ccr := flags 0 0 0 0 0 1 } (fun t => (t.a, t.ccr)) = some (0x00, flags 1 0 0 0 1 0) := by decide

theorem test_cmp :
    after [0xA1, 0x06] { start with a := 0x05 } (fun t => (t.a, t.ccr)) = some (0x05, flags 0 0 0 1 0 1) := by decide

theorem test_cpx :
    after [0xA3, 0xFF] start (fun t => (t.x, t.ccr)) = some (0x00, flags 0 0 0 0 0 1) := by decide

theorem test_cphx :
    after [0x65, 0x00, 0x01] start (fun t => (t.hx, t.ccr)) = some (0x0000, flags 0 0 0 1 0 1) := by decide

theorem test_ais :
    after [0xA7, 0x80] { start with sp := 0x0010 } (fun t => t.sp) = some 0xFF90 := by decide

theorem test_aix :
    after [0xAF, 0x80] { start with h := 0x12, x := 0x34 } (fun t => t.hx) = some 0x11B4 := by decide

theorem test_inca :
    after [0x4C] { start with a := 0x7F } (fun t => (t.a, t.ccr)) = some (0x80, flags 1 0 0 1 0 0) := by decide

theorem test_incx :
    after [0x5C] { start with h := 0x01, x := 0xFF } (fun t => (t.hx, t.ccr)) = some (0x0100, flags 0 0 0 0 1 0) := by decide

theorem test_deca :
    after [0x4A] { start with a := 0x80 } (fun t => (t.a, t.ccr)) = some (0x7F, flags 1 0 0 0 0 0) := by decide

theorem test_nega :
    after [0x40] { start with a := 0x01 } (fun t => (t.a, t.ccr)) = some (0xFF, flags 0 0 0 1 0 1) := by decide

theorem test_tsta :
    after [0x4D] { start with a := 0x80, ccr := flags 1 0 0 0 0 1 } (fun t => t.ccr) = some (flags 0 0 0 1 0 1) := by decide

theorem test_mul :
    after [0x42] { start with x := 0xFF, a := 0xFF, h := 0x12, ccr := flags 0 1 0 0 0 1 } (fun t => (t.x, t.a, t.h, t.ccr)) = some (0xFE, 0x01, 0x12, flags 0 0 0 0 0 0) := by decide

theorem test_div :
    after [0x52] { start with h := 0x12, a := 0x34, x := 0x56 } (fun t => (t.a, t.h, t.ccr)) = some (0x36, 0x10, flags 0 0 0 0 0 0) := by decide

theorem test_div_by_zero :
    after [0x52] { start with h := 0x01, a := 0x23, x := 0x00 } (fun t => (t.x, t.ccr.c, t.ccr.v, t.ccr.n)) = some (0x00, true, false, false) := by decide

theorem test_daa :
    after [0x72] { start with a := 0x61, ccr := flags 0 1 0 0 0 0 } (fun t => (t.a, t.ccr.n, t.ccr.z, t.ccr.c)) = some (0x67, false, false, false) := by decide

theorem test_daa_carry :
    after [0x72] { start with a := 0x9A } (fun t => (t.a, t.ccr.z, t.ccr.c)) = some (0x00, true, true) := by decide

theorem test_and :
    after [0xA4, 0xF0] { start with a := 0x9C } (fun t => (t.a, t.ccr)) = some (0x90, flags 0 0 0 1 0 0) := by decide

theorem test_ora :
    after [0xAA, 0x80] { start with a := 0x01, ccr := flags 1 0 0 0 0 0 } (fun t => (t.a, t.ccr)) = some (0x81, flags 0 0 0 1 0 0) := by decide

theorem test_eor :
    after [0xA8, 0x0F] { start with a := 0xF0, ccr := flags 0 0 0 0 0 1 } (fun t => (t.a, t.ccr)) = some (0xFF, flags 0 0 0 1 0 1) := by decide

theorem test_bit :
    after [0xA5, 0x0F] { start with a := 0xF0 } (fun t => (t.a, t.ccr)) = some (0xF0, flags 0 0 0 0 1 0) := by decide

theorem test_coma :
    after [0x43] { start with ccr := flags 1 0 0 0 0 0 } (fun t => (t.a, t.ccr)) = some (0xFF, flags 0 0 0 1 0 1) := by decide

theorem test_nsa :
    after [0x62] { start with a := 0xA5, ccr := flags 0 0 0 0 1 0 } (fun t => (t.a, t.ccr)) = some (0x5A, flags 0 0 0 0 1 0) := by decide

theorem test_lsla :
    after [0x48] { start with a := 0x80, ccr := flags 0 0 0 0 0 1 } (fun t => (t.a, t.ccr)) = some (0x00, flags 1 0 0 0 1 1) := by decide

theorem test_asra :
    after [0x47] { start with a := 0x81 } (fun t => (t.a, t.ccr)) = some (0xC0, flags 0 0 0 1 0 1) := by decide

theorem test_lsra :
    after [0x44] { start with a := 0x81, ccr := flags 0 0 0 1 0 0 } (fun t => (t.a, t.ccr)) = some (0x40, flags 1 0 0 0 0 1) := by decide

theorem test_rola :
    after [0x49] { start with a := 0x80, ccr := flags 0 0 0 0 0 1 } (fun t => (t.a, t.ccr)) = some (0x01, flags 1 0 0 0 0 1) := by decide

theorem test_rora :
    after [0x46] { start with a := 0x01, ccr := flags 0 0 0 0 0 1 } (fun t => (t.a, t.ccr)) = some (0x80, flags 0 0 0 1 0 1) := by decide

theorem test_bset :
    after [0x16, 0x20] { start with ccr := flags 0 0 0 0 1 0 } (fun t => (t.peek 0x20, t.ccr)) = some (0x08, flags 0 0 0 0 1 0) := by decide

theorem test_bclr :
    after [0x11, 0x20] { start with mem := [(0x20, 0xFF)] } (fun t => t.peek 0x20) = some 0xFE := by decide

theorem test_bra_back :
    after [0x20, 0x80] start (fun t => t.pc) = some 0x7F82 := by decide

theorem test_bra_wraps :
    after [0x20, 0x10] { start with pc := 0xFFF8 } (fun t => t.pc) = some 0x000A := by decide

theorem test_brn :
    after [0x21, 0x10] start (fun t => t.pc) = some 0x8002 := by decide

theorem test_bhi :
    after [0x22, 0x05] { start with ccr := flags 0 0 0 0 1 0 } (fun t => t.pc) = some 0x8002 := by decide

theorem test_bls :
    after [0x23, 0x05] { start with ccr := flags 0 0 0 0 1 0 } (fun t => t.pc) = some 0x8007 := by decide

theorem test_bge :
    after [0x90, 0x05] { start with ccr := flags 1 0 0 1 0 0 } (fun t => t.pc) = some 0x8007 := by decide

theorem test_ble :
    after [0x93, 0x05] { start with ccr := flags 1 0 0 0 0 0 } (fun t => t.pc) = some 0x8007 := by decide

theorem test_bil :
    after [0x2E, 0x05] { start with lines := { Lines.quiet with irqPin := false } } (fun t => t.pc) = some 0x8007 := by decide

theorem test_brset :
    after [0x06, 0x40, 0x10] { start with mem := [(0x40, 0x08)] } (fun t => (t.ccr, t.pc)) = some (flags 0 0 0 0 0 1, 0x8013) := by decide

theorem test_brclr :
    after [0x0F, 0x40, 0xFD] { start with mem := [(0x40, 0x7F)], ccr := flags 0 0 0 0 0 1 } (fun t => (t.ccr, t.pc)) = some (flags 0 0 0 0 0 0, 0x8000) := by decide

theorem test_cbeq_ix1Plus :
    after [0x61, 0x02, 0x10] { start with a := 0x20, h := 0x01, x := 0xFF, mem := [(0x0201, 0x21)] } (fun t => (t.pc, t.hx)) = some (0x8003, 0x0200) := by decide

theorem test_cbeqx :
    after [0x51, 0xFF, 0xFD] { start with x := 0xFF } (fun t => t.pc) = some 0x8000 := by decide

theorem test_dbnz :
    after [0x3B, 0x40, 0xFD] start (fun t => (t.peek 0x40, t.pc)) = some (0xFF, 0x8000) := by decide

theorem test_dbnzx :
    after [0x5B, 0xFE] { start with h := 0x05 } (fun t => (t.hx, t.pc)) = some (0x05FF, 0x8000) := by decide

theorem test_bsr :
    after [0xAD, 0x20] start (fun t => (t.peek 0xFF, t.peek 0xFE, t.sp, t.pc)) = some (0x02, 0x80, 0x00FD, 0x8022) := by decide

theorem test_jmp :
    after [0xDC, 0xFF, 0xFF] { start with h := 0x10 } (fun t => t.pc) = some 0x0FFF := by decide

theorem test_jsr :
    after [0xCD, 0x90, 0x00] start (fun t => (t.peek 0xFF, t.peek 0xFE, t.sp, t.pc)) = some (0x03, 0x80, 0x00FD, 0x9000) := by decide

theorem test_rts :
    after [0x81] { start with sp := 0xFFFF, mem := [(0x0000, 0x12), (0x0001, 0x34)] } (fun t => (t.pc, t.sp)) = some (0x1234, 0x0001) := by decide

theorem test_cli :
    after [0x9A] { start with ccr := flags 0 0 1 0 0 0 } (fun t => (t.ccr, t.cliShadow)) = some (flags 0 0 0 0 0 0, true) := by decide

theorem test_swi :
    after [0x83] { start with a := 0x12, x := 0x34, h := 0x56, ccr := flags 1 0 0 0 0 1, mem := [(0xFFFC, 0x90)] } (fun t => ([0xFF, 0xFE, 0xFD, 0xFC, 0xFB].map t.peek, t.sp, t.pc, t.ccr)) = some ([0x01, 0x80, 0x34, 0x12, 0xE1], 0x00FA, 0x9000, flags 1 0 1 0 0 1) := by decide

theorem test_swi_wraps :
    after [0x83] { start with a := 0x01, x := 0x02, sp := 0x0002, mem := [(0xFFFC, 0x12), (0xFFFD, 0x34)] } (fun t => ([0x0002, 0x0001, 0x0000, 0xFFFF, 0xFFFE].map t.peek, t.sp, t.pc)) = some ([0x01, 0x80, 0x02, 0x01, 0x60], 0xFFFD, 0x1234) := by decide

theorem test_rti :
    after [0x80] { start with sp := 0x00FA, h := 0x77, ccr := flags 0 0 1 0 0 0, mem := [(0xFB, 0xE1), (0xFC, 0x12), (0xFD, 0x34), (0xFE, 0x80), (0xFF, 0x01)] } (fun t => (t.ccr, t.a, t.x, t.pc, t.sp, t.h)) = some (flags 1 0 0 0 0 1, 0x12, 0x34, 0x8001, 0x00FF, 0x77) := by decide

theorem test_wait :
    after [0x8F] { start with ccr := flags 0 0 1 0 0 1 } (fun t => (t.ccr, t.pc, t.runState)) = some (flags 0 0 0 0 0 1, 0x8001, RunState.waiting) := by decide

theorem test_stop :
    after [0x8E] { start with ccr := flags 0 0 1 0 0 0 } (fun t => (t.ccr, t.pc, t.runState)) = some (flags 0 0 0 0 0 0, 0x8001, RunState.stopped) := by decide

/-- Waking from WAIT by IREQ[125] (the Example of rule R315): the entry through $FF00. -/
theorem test_wake_by_request :
    after [] { start with
        a := 0x11, x := 0x22, pc := 0x8001, ccr := flags 0 0 0 0 0 1, runState := .waiting, mem := [(0xFF00, 0xB0), (0xFF01, 0x10)],
        schedule := [{ Lines.quiet with pending := 1 <<< 125 }] }
      (fun t => ([0xFF, 0xFE, 0xFD, 0xFC, 0xFB].map t.peek, t.sp, t.pc, t.ccr.i, t.runState)) =
    some ([0x01, 0x80, 0x22, 0x11, 0x61], 0x00FA, 0xB010, true, RunState.running) := by decide

/-- The lowest request wins: IREQ[0] over IREQ[125], through $FFFA. -/
theorem test_lowest_request_first :
    after [] { start with lines := { Lines.quiet with pending := 1 ||| 1 <<< 125 }, mem := [(0xFFFA, 0xA0)] } (fun t => t.pc) =
      some 0xA000 := by decide

/-- The boundary after CLI takes no request with `cli_delay = one`: the NOP runs first. -/
theorem test_cli_shadow :
    after [0x9D] { start with cliShadow := true, lines := { Lines.quiet with pending := 1 } } (fun t => (t.pc, t.cliShadow)) =
      some (0x8001, false) := by decide

/-- The instruction after a store into its first byte is refused (rule R63). -/
theorem test_store_into_next :
    (match step { start.withBytesAtPc [0x9D] with stored := [0x8000] } with
      | .next _ => none
      | .fault _ => none
      | .refused r => some r) = some (.storeIntoNextInstruction 0x8000) := by decide

/-- `start` with one device register at $0000: it reads as $41 and takes a write of $42 to device state 9. -/
def withDevice : State :=
  { start with
    cfg := { Config.default with
      memmap := [⟨0, 1, .device⟩, ⟨1, 65535, .ram⟩], deviceReads := [⟨none, 0, 0x41⟩], deviceWrites := [⟨none, 0, some 0x42, 9⟩] } }

/-- A device register supplies its value to a load, and a read-modify-write writes it; memory keeps what it holds there. -/
theorem test_device_register :
    after [0xB6, 0x00] withDevice (fun t => (t.a, t.device)) = some (0x41, 0) ∧
      after [0x3C, 0x00] withDevice (fun t => (t.device, t.peek 0x0000, t.stored)) = some (9, 0x00, []) := by decide

/-- An instruction's byte in a device register is refused by name (decision D10). -/
theorem test_code_in_device :
    (match step { withDevice with pc := 0x0000 } with
      | .next _ => none
      | .fault _ => none
      | .refused r => some r) = some (.codeInDevice 0x0000) := by decide

/-- A table word placed for the fetch runs as the first instruction after reset. -/
theorem test_withFetchWord :
    (match step (State.reset.withFetchWord 8 0x4C) with
      | .next t => some (t.a, t.pc)
      | .fault _ => none
      | .refused _ => none) = some (0x01, 0x0001) := by decide

/-- An unassigned opcode faults by its name. -/
theorem test_illegal_opcode :
    (match step (start.withBytesAtPc [0x9E, 0x62]) with
      | .next _ => none
      | .fault f => some f
      | .refused _ => none) = some (.illegalOpcode 0x9E62) := by decide

/-! ### Part 4: witnesses of the hypotheses -/

/-- An outcome that goes on is a next state. -/
theorem next_of_goesOn {r : Res State} (h : goesOn r = true) : ∃ t, r = .next t := by
  cases r with
  | next t => exact ⟨t, rfl⟩
  | fault _ => cases h
  | refused _ => cases h

/-- Storing is possible where the memory is canonical and every address answers. -/
theorem storable {s : State} {l : List Word} (h : (s.mem.wf && l.all s.mapped) = true) : Storable s l := by
  rw [Bool.and_eq_true] at h
  exact ⟨h.1, List.all_eq_true.1 h.2⟩

/-- A memory map with all four kinds: device registers at $0000-$003F, RAM to $7FFF, nothing to $BFFF, ROM above. -/
def boardMap : List Region :=
  [⟨0x0000, 0x0040, .device⟩, ⟨0x0040, 0x7FC0, .ram⟩, ⟨0x8000, 0x4000, .unimplemented⟩, ⟨0xC000, 0x4000, .rom⟩]

/-- A state on that map: A = $38, H:X = $0080, SP = $00FF, PC = $0200, I set, a few bytes of memory. -/
def board : State :=
  { State.reset with
    a := 0x38
    x := 0x80
    pc := 0x0200
    mem := [(0x0080, 0x7F), (0x0081, 0xFF), (0x00FF, 0x29), (0x0100, 0x12), (0xFFFA, 0xC1), (0xFFFC, 0xC2), (0xFFFE, 0xC0)]
    cfg := { Config.default with memmap := boardMap } }

/-- The board's map with a stack or index register elsewhere. -/
def boardAt (hx sp : Word) : State := { board with h := hiByte hx, x := loByte hx, sp := sp }

theorem witness_DecodeInvertsEncode :
    ∀ i ∈ ([.lda (.imm 0xFF), .ror (.sp1 0xFF), .dbnz .ix 0x00, .jsr (.ix2 0xFFFF), .asl (.dir 0x00), .stop] : List Instr),
      i.wellFormed = true := by decide +kernel

theorem witness_DecodedInstructionsEncodeBack :
    decode 0x9E 0xEF 0xFF 0x00 = .ok (.stx (.sp1 0xFF)) 3 ∧ decode 0x00 0xFF 0x80 0x00 = .ok (.brset 0 0xFF 0x80) 3 := by decide +kernel

theorem witness_UnassignedEncodings :
    Unassigned 0x32 0x00 ∧ Unassigned 0xAC 0xFF ∧ Unassigned 0x9E 0x62 ∧ Unassigned 0x9E 0x9E ∧ ¬Unassigned 0x9E 0x60 ∧
      ¬Unassigned 0x9E 0xEF ∧ ¬Unassigned 0x00 0x62 ∧ ¬Unassigned 0xFF 0x00 := by
  unfold Unassigned; decide +kernel

theorem witness_LengthsAndCycles :
    decode 0x9E 0xD0 0xFF 0xFF = .ok (.sub (.mem (.sp2 0xFFFF))) 4 ∧ decode 0xFF 0x00 0x00 0x00 = .ok (.stx .ix) 1 := by decide +kernel

theorem witness_BitInstructionOpcodes : (0x00 : Byte).toNat < 0x20 ∧ (0x1F : Byte).toNat < 0x20 := by decide +kernel

/-- The board about to fetch a two-byte instruction whose second byte is at the unimplemented $8000. -/
def boardEdge : State := ({ board with pc := 0x7FFF } : State).withBytesAtPc [0xA6]

/-- The board with PC in its device registers. -/
def boardInDevice : State := { board with pc := 0x0000 }

theorem witness_AccessesOutsideMemoryStop :
    (∃ o, (accesses (.lda (.mem (.ext 0x8000))) board).findSome? (Access.stop board) = some o) ∧
      (accesses (.sthx 0x3F) board).findSome? (Access.stop board) = none ∧
      (∃ o, (accesses .pulx (boardAt 0 0xBFFE)).findSome? (Access.stop (boardAt 0 0xBFFE)) = some o) ∧
      (accesses .rti board).findSome? (Access.stop board) = none ∧
      ((0xFFFA : Word).toNat = 0xFFFA - 2 * 0 ∧ (0xFF00 : Word).toNat = 0xFFFA - 2 * 125) ∧
      (∃ o, (entryAccesses (boardAt 0 0x8003) 0xFFFA).findSome? (Access.stop (boardAt 0 0x8003)) = some o) ∧
      (entryAccesses (boardAt 0 0x003F) 0xFF00).findSome? (Access.stop (boardAt 0 0x003F)) = none ∧
      ([.code 0xFFFE, .code 0xFFFF] : List Access).findSome? (Access.stop board) = none ∧
      ReachesInstruction boardEdge.sample ∧ 1 < lengthAtPc boardEdge.sample ∧ Fetchable boardEdge.sample 1 ∧
      Access.stop boardEdge.sample (.code (boardEdge.sample.pc + BitVec.ofNat 16 1)) = some (.fault (.unimplementedAddress 0x8000)) ∧
      ReachesInstruction boardInDevice.sample ∧ 0 < lengthAtPc boardInDevice.sample ∧ Fetchable boardInDevice.sample 0 ∧
      Access.stop boardInDevice.sample (.code (boardInDevice.sample.pc + BitVec.ofNat 16 0)) = some (.refused (.codeInDevice 0x0000)) := by
  unfold ReachesInstruction Fetchable
  exact ⟨⟨_, rfl⟩, rfl, ⟨_, rfl⟩, rfl, by decide +kernel, ⟨_, rfl⟩, rfl, rfl, by decide +kernel, by decide +kernel, by decide +kernel, rfl,
    by decide +kernel, by decide +kernel, by decide +kernel, rfl⟩

/-- The board with entries for its registers at $0000 and $003F, the devices in state 4. -/
def boardDevices : State :=
  { board with
    device := 4
    cfg := { board.cfg with
      deviceReads := [⟨some 3, 0x0000, 0x11⟩, ⟨some 4, 0x0000, 0x7F⟩, ⟨none, 0x003F, 0x00⟩]
      deviceWrites := [⟨none, 0x0000, some 0x38, 5⟩, ⟨some 4, 0x0000, some 0x80, 6⟩, ⟨none, 0x003F, none, 7⟩] } }

theorem witness_DeviceRegisters :
    (0x0000 : Word) = effectiveAddress (.dir 0x00) boardDevices ∧ boardDevices.kindAt 0x0000 = .device ∧
      boardDevices.cfg.deviceReads = [⟨some 3, 0x0000, 0x11⟩] ++ ⟨some 4, 0x0000, 0x7F⟩ :: [⟨none, 0x003F, 0x00⟩] ∧
      (∀ q ∈ ([⟨some 3, 0x0000, 0x11⟩] : List DeviceRead), ¬ReadEntryFits boardDevices 0x0000 q) ∧
      ReadEntryFits boardDevices 0x0000 ⟨some 4, 0x0000, 0x7F⟩ ∧ (0x80 : Byte).toNat = ((0x7F : Byte).toNat + 1) % 256 ∧
      boardDevices.cfg.deviceWrites = [⟨none, 0x0000, some 0x38, 5⟩] ++ ⟨some 4, 0x0000, some 0x80, 6⟩ :: [⟨none, 0x003F, none, 7⟩] ∧
      (∀ q ∈ ([⟨none, 0x0000, some 0x38, 5⟩] : List DeviceWrite), ¬WriteEntryFits boardDevices 0x0000 0x80 q) ∧
      WriteEntryFits boardDevices 0x0000 0x80 ⟨some 4, 0x0000, some 0x80, 6⟩ ∧
      (0x003F : Word) = effectiveAddress (.ext 0x003F) boardDevices ∧ boardDevices.kindAt 0x003F = .device ∧
      ReadEntryFits boardDevices 0x003F ⟨none, 0x003F, 0x00⟩ ∧ WriteEntryFits boardDevices 0x003F boardDevices.a ⟨none, 0x003F, none, 7⟩ ∧
      ∀ q ∈ ([⟨none, 0x0000, some 0x38, 5⟩, ⟨some 4, 0x0000, some 0x80, 6⟩] : List DeviceWrite),
        ¬WriteEntryFits boardDevices 0x003F boardDevices.a q := by
  unfold ReadEntryFits WriteEntryFits; decide +kernel

theorem witness_LoadsAndTests :
    Operand8 (.imm 0x00) board 0x00 ∧ Operand8 (.mem .ix) board 0x7F ∧ Operand8 (.mem (.ext 0xFFFF)) board 0x00 ∧
      Operand16 (.imm 0xFFFF) board 0xFFFF ∧ Operand16 (.dir 0xFF) board 0x2912 ∧ Halves 0x29 0x12 0x2912 ∧
      board.mapped (effectiveAddress (.dir 0x40) board) = true :=
  ⟨rfl, ⟨by decide +kernel, by decide +kernel⟩, ⟨by decide +kernel, by decide +kernel⟩, rfl, ⟨by decide +kernel, by decide +kernel, by decide +kernel⟩, by unfold Halves; decide +kernel, by decide +kernel⟩

theorem witness_StoreInstructions :
    Storable board [effectiveAddress (.dir 0x40) board] ∧ Storable board [effectiveAddress (.ext 0xFFFF) board] ∧
      Storable board [directAddress 0xFF, directAddress 0xFF + 1] :=
  ⟨storable (by decide +kernel), storable (by decide +kernel), storable (by decide +kernel)⟩

theorem witness_MovInstruction :
    board.mapped (directAddress 0x80) = true ∧ Storable board [directAddress 0x40] ∧
      256 * (0x00 : Byte).toNat + (0x81 : Byte).toNat = (256 * board.h.toNat + board.x.toNat + 1) % 65536 ∧ Storable board [board.hx] ∧
      board.mapped board.hx = true ∧
      256 * (0x00 : Byte).toNat + (0x00 : Byte).toNat =
        (256 * (boardAt 0xFFFF 0xFF).h.toNat + (boardAt 0xFFFF 0xFF).x.toNat + 1) % 65536 ∧
      Storable (boardAt 0xFFFF 0xFF) [(boardAt 0xFFFF 0xFF).hx] :=
  ⟨by decide +kernel, storable (by decide +kernel), by decide +kernel, storable (by decide +kernel),
    by decide +kernel, by decide +kernel, storable (by decide +kernel)⟩

theorem witness_ClearInstructions :
    flags 0 0 1 0 1 0 = { board.ccr with v := false, n := false, z := true } ∧ Storable board [effectiveAddress (.ix1 0x7F) board] :=
  ⟨by decide +kernel, storable (by decide +kernel)⟩

theorem witness_RegisterTransfers : (0x12FF : Word).toNat = (boardAt 0 0x1234).sp.toNat / 256 * 256 + 0xFF := by decide +kernel

theorem witness_CcrTransfers : FlagsOf (flags 0 1 1 0 0 0) board.a ∧ StatusByte board 0x68 := by
  unfold FlagsOf StatusByte; decide +kernel

theorem witness_PushesAndPulls :
    ((0x00FE : Word).toNat + 1) % 65536 = board.sp.toNat ∧ Storable board [board.sp] ∧
      ((0xFFFE : Word).toNat + 1) % 65536 = (boardAt 0 0xFFFF).sp.toNat ∧ Storable (boardAt 0 0xFFFF) [(boardAt 0 0xFFFF).sp] ∧
      (0x0100 : Word).toNat = (board.sp.toNat + 1) % 65536 ∧ board.mapped 0x0100 = true :=
  ⟨by decide +kernel, storable (by decide +kernel), by decide +kernel, storable (by decide +kernel), by decide +kernel, by decide +kernel⟩

theorem witness_Additions :
    Operand8 (.mem .ix) board 0x7F ∧ IsSum board.ccr board.a 0x7F 0 0xB7 (flags 1 1 1 1 0 0) ∧
      Operand8 (.imm 0xC8) board 0xC8 ∧ IsSum board.ccr board.a 0xC8 (bit board.ccr.c) 0x00 (flags 0 1 1 0 1 1) := by
  refine ⟨⟨by decide +kernel, by decide +kernel⟩, ?_, rfl, ?_⟩ <;> (unfold IsSum; decide +kernel)

theorem witness_Subtractions :
    Operand8 (.mem (.ix1 0x01)) board 0xFF ∧ IsDifference board.ccr board.a 0xFF 0 0x39 (flags 0 0 1 0 0 1) ∧
      IsDifference board.ccr board.a 0xFF (bit board.ccr.c) 0x39 (flags 0 0 1 0 0 1) ∧
      Operand8 (.imm 0x80) board 0x80 ∧ IsDifference board.ccr board.x 0x80 0 0x00 (flags 0 0 1 0 1 0) := by
  refine ⟨⟨by decide +kernel, by decide +kernel⟩, ?_, ?_, rfl, ?_⟩ <;> (unfold IsDifference; decide +kernel)

theorem witness_CompareIndexRegister :
    Operand16 (.dir 0xFF) board 0x2912 ∧
      ((0xD76E : Word).toNat : Int) = ((256 * board.h.toNat + board.x.toNat : Nat) - ((0x2912 : Word).toNat : Int)) % 65536 :=
  ⟨⟨by decide +kernel, by decide +kernel, by decide +kernel⟩, by decide +kernel⟩

theorem witness_PointerArithmetic :
    256 * (0x01 : Byte).toNat + (0x00 : Byte).toNat = (board.sp.toNat + 1) % 65536 ∧
      ((0x007F : Word).toNat + 1) % 65536 = 256 * board.h.toNat + board.x.toNat ∧
      ((0xFFFF : Word).toNat + 1) % 65536 = 256 * (boardAt 0 0).h.toNat + (boardAt 0 0).x.toNat ∧
      ((0x007F : Word).toNat : Int) = ((board.sp.toNat : Int) + (0x80 : Byte).toInt) % 65536 ∧
      ((256 * (0xFF : Byte).toNat + (0xFF : Byte).toNat : Nat) : Int) =
        ((256 * (boardAt 0 0).h.toNat + (boardAt 0 0).x.toNat : Nat) + (0xFF : Byte).toInt) % 65536 := by
  decide +kernel

/-- The hypotheses of a `ReadModifyWrite` statement in its three forms, at the byte $7F at H:X, A = $38 and X = $80. -/
def RmwMet (Result : Ccr → Byte → Byte → Ccr → Prop) : Prop :=
  Storable board [effectiveAddress .ix board] ∧ (∃ r f, Result board.ccr (board.data (effectiveAddress .ix board)) r f) ∧
    (∃ r f, Result board.ccr board.a r f) ∧ ∃ r f, Result board.ccr board.x r f

theorem witness_IncrementsAndDecrements :
    RmwMet (fun old v r f => r.toNat = (v.toNat + 1) % 256 ∧ f = nz8 { old with v := outside8 (v.toInt + 1) } r) ∧
      RmwMet (fun old v r f => (r.toNat + 1) % 256 = v.toNat ∧ f = nz8 { old with v := outside8 (v.toInt - 1) } r) :=
  ⟨⟨storable (by decide +kernel), ⟨0x80, _, by decide +kernel, rfl⟩, ⟨0x39, _, by decide +kernel, rfl⟩, 0x81, _, by decide +kernel, rfl⟩,
    ⟨storable (by decide +kernel), ⟨0x7E, _, by decide +kernel, rfl⟩, ⟨0x37, _, by decide +kernel, rfl⟩, 0x7F, _, by decide +kernel, rfl⟩⟩

theorem witness_NegationsAndComplements :
    RmwMet (fun old v r f => (r.toNat + v.toNat) % 256 = 0 ∧
        f = nz8 { old with v := outside8 (-v.toInt), c := decide (v.toNat ≠ 0) } r) ∧
      RmwMet (fun old v r f => r.toNat = 255 - v.toNat ∧ f = nz8 { old with v := false, c := true } r) :=
  ⟨⟨storable (by decide +kernel), ⟨0x81, _, by decide +kernel, rfl⟩, ⟨0xC8, _, by decide +kernel, rfl⟩, 0x80, _, by decide +kernel, rfl⟩,
    ⟨storable (by decide +kernel), ⟨0x80, _, by decide +kernel, rfl⟩, ⟨0xC7, _, by decide +kernel, rfl⟩, 0x7F, _, by decide +kernel, rfl⟩⟩

theorem witness_Multiply : 256 * (0x1C : Byte).toNat + (0x00 : Byte).toNat = board.x.toNat * board.a.toNat := by decide +kernel

theorem witness_Divide :
    256 * board.h.toNat + board.a.toNat = (0x00 : Byte).toNat * board.x.toNat + (0x38 : Byte).toNat ∧ (0x38 : Byte).toNat < board.x.toNat ∧
      256 * (boardAt 0xFEFF 0xFF).h.toNat + 255 = (0xFF : Byte).toNat * (boardAt 0xFEFF 0xFF).x.toNat + (0xFE : Byte).toNat ∧
      (boardAt 0x0000 0xFF).x.toNat ≤ (boardAt 0x0000 0xFF).h.toNat ∧ (boardAt 0xFFFF 0xFF).x.toNat ≤ (boardAt 0xFFFF 0xFF).h.toNat := by
  decide +kernel

theorem witness_DecimalAdjust :
    (∃ before row after, start.cfg.daaFn = before ++ row :: after ∧ (∀ q ∈ before, ¬RowMatches { start with a := 0x9A } q) ∧
        RowMatches { start with a := 0x9A } row ∧ (0x00 : Byte).toNat = ((0x9A : Byte).toNat + row.add.toNat) % 256) ∧
      ∀ row ∈ start.cfg.daaFn, ¬RowMatches { start with a := 0x30, ccr := flags 0 0 0 0 0 1 } row :=
  ⟨⟨Config.daaTable.take 4, ⟨false, 9, 15, false, 10, 15, 0x66, true⟩, Config.daaTable.drop 5, by decide +kernel,
      by unfold RowMatches; decide +kernel, by unfold RowMatches; decide +kernel, by decide +kernel⟩,
    by unfold RowMatches; decide +kernel⟩

theorem witness_DecimalAddition :
    board.cfg.daaFn = daaRows ∧ Operand8 (.mem (.dir 0xFF)) board 0x29 ∧ Bcd board.a ∧ Bcd 0x29 ∧ Operand8 (.imm 0x99) board 0x99 ∧ Bcd 0x99 :=
  ⟨by decide +kernel, ⟨by decide +kernel, by decide +kernel⟩, by unfold Bcd; decide +kernel, by unfold Bcd; decide +kernel, rfl, by unfold Bcd; decide +kernel⟩

theorem witness_LogicalOperations :
    Operand8 (.mem .ix) board 0x7F ∧ (∀ k < 8, (0x38 : Byte).getLsbD k = (board.a.getLsbD k && (0x7F : Byte).getLsbD k)) ∧
      (∀ k < 8, (0x7F : Byte).getLsbD k = (board.a.getLsbD k || (0x7F : Byte).getLsbD k)) ∧
      ∀ k < 8, (0x47 : Byte).getLsbD k = (board.a.getLsbD k ^^ (0x7F : Byte).getLsbD k) :=
  ⟨⟨by decide +kernel, by decide +kernel⟩, by decide +kernel, by decide +kernel, by decide +kernel⟩

theorem witness_LeftShifts :
    RmwMet (fun old v r f => r.toNat = 2 * v.toNat % 256 ∧ f = nz8 { old with v := outside8 (2 * v.toInt), c := decide (128 ≤ v.toNat) } r) :=
  ⟨storable (by decide +kernel), ⟨0xFE, _, by decide +kernel, rfl⟩, ⟨0x70, _, by decide +kernel, rfl⟩, 0x00, _, by decide +kernel, rfl⟩

theorem witness_RightShifts :
    RmwMet (fun old v r f => r.toInt = v.toInt / 2 ∧
        f = nz8 { old with v := r.getLsbD 7 ^^ decide (v.toNat % 2 = 1), c := decide (v.toNat % 2 = 1) } r) ∧
      RmwMet (fun old v r f => r.toNat = v.toNat / 2 ∧
        f = { old with v := decide (v.toNat % 2 = 1), n := false, z := decide (r.toNat = 0), c := decide (v.toNat % 2 = 1) }) :=
  ⟨⟨storable (by decide +kernel), ⟨0x3F, _, by decide +kernel, rfl⟩, ⟨0x1C, _, by decide +kernel, rfl⟩, 0xC0, _, by decide +kernel, rfl⟩,
    ⟨storable (by decide +kernel), ⟨0x3F, _, by decide +kernel, rfl⟩, ⟨0x1C, _, by decide +kernel, rfl⟩, 0x40, _, by decide +kernel, rfl⟩⟩

theorem witness_Rotates :
    RmwMet (fun old v r f => r.toNat = (2 * v.toNat + bit old.c) % 256 ∧
        f = nz8 { old with v := r.getLsbD 7 ^^ decide (128 ≤ v.toNat), c := decide (128 ≤ v.toNat) } r) ∧
      RmwMet (fun old v r f => r.toNat = v.toNat / 2 + 128 * bit old.c ∧
        f = nz8 { old with v := r.getLsbD 7 ^^ decide (v.toNat % 2 = 1), c := decide (v.toNat % 2 = 1) } r) :=
  ⟨⟨storable (by decide +kernel), ⟨0xFE, _, by decide +kernel, rfl⟩, ⟨0x70, _, by decide +kernel, rfl⟩, 0x00, _, by decide +kernel, rfl⟩,
    ⟨storable (by decide +kernel), ⟨0x3F, _, by decide +kernel, rfl⟩, ⟨0x1C, _, by decide +kernel, rfl⟩, 0x40, _, by decide +kernel, rfl⟩⟩

theorem witness_BitSetAndClear :
    Storable board [directAddress 0x80] ∧
      (∀ k < 8, (0xFF : Byte).getLsbD k = (if k = (7 : BitVec 3).toNat then true else (board.data (directAddress 0x80)).getLsbD k)) ∧
      ∀ k < 8, (0x7E : Byte).getLsbD k = (if k = (0 : BitVec 3).toNat then false else (board.data (directAddress 0x80)).getLsbD k) :=
  ⟨storable (by decide +kernel), by decide +kernel, by decide +kernel⟩

theorem witness_InherentOperations : (0x83 : Byte).toNat = 16 * (board.a.toNat % 16) + board.a.toNat / 16 := by decide +kernel

theorem witness_FlagBranches :
    BranchTarget board 0x80 0x0180 ∧ BranchTarget board 0x7F 0x027F ∧ BranchTarget { board with pc := 0xFFFF } 0x01 0x0000 := by
  unfold BranchTarget; decide +kernel

theorem witness_PinAndBitBranches :
    BranchTarget board 0xFF 0x01FF ∧ board.mapped (directAddress 0x40) = true ∧ board.mapped (directAddress 0xFF) = true := by
  unfold BranchTarget; decide +kernel

theorem witness_CompareAndBranch :
    BranchTarget board 0x10 0x0210 ∧ board.mapped (cbeqAddress (.dir 0xFF) board) = true ∧
      board.mapped (cbeqAddress (.sp1 0xFF) board) = true ∧ board.mapped (cbeqAddress (.ix1Plus 0x01) board) = true ∧
      board.mapped (cbeqAddress .ixPlus board) = true ∧
      256 * (0x00 : Byte).toNat + (0x81 : Byte).toNat = (256 * board.h.toNat + board.x.toNat + 1) % 65536 := by
  unfold BranchTarget; decide +kernel

theorem witness_DecrementAndBranch :
    BranchTarget board 0xFE 0x01FE ∧ (0x01FE : Word) = (if (0x7E : Byte).toNat = 0 then board.pc else 0x01FE) ∧
      Storable board [effectiveAddress .ix board] ∧ ((0x7E : Byte).toNat + 1) % 256 = (board.data (effectiveAddress .ix board)).toNat ∧
      ((0x37 : Byte).toNat + 1) % 256 = board.a.toNat ∧ ((0xFF : Byte).toNat + 1) % 256 = (boardAt 0 0).x.toNat :=
  ⟨by unfold BranchTarget; decide +kernel, by decide +kernel, storable (by decide +kernel), by decide +kernel, by decide +kernel, by decide +kernel⟩

theorem witness_Calls :
    Storable board [board.sp, board.sp - 1] ∧ Halves 0x02 0x00 board.pc ∧ BranchTarget board 0x80 0x0180 ∧
      Storable start [(0x0000 : Word), 0x0000 - 1] :=
  ⟨storable (by decide +kernel), by unfold Halves; decide +kernel, by unfold BranchTarget; decide +kernel, storable (by decide +kernel)⟩

theorem witness_JumpAndReturn :
    board.mapped (board.sp + 1) = true ∧ board.mapped (board.sp + 2) = true ∧
      Halves (board.data (board.sp + 1)) (board.data (board.sp + 2)) 0x1200 := by
  unfold Halves; decide +kernel

theorem witness_Entry :
    Halves 0x02 0x00 board.pc ∧ StatusByte board 0x68 ∧
      Storable board [board.sp, board.sp - 1, board.sp - 2, board.sp - 3, board.sp - 4] ∧ board.holdsCode 0xFFFC = true ∧
      board.holdsCode (0xFFFC + 1) = true :=
  ⟨by unfold Halves; decide +kernel, by unfold StatusByte; decide +kernel, storable (by decide +kernel), by decide +kernel, by decide +kernel⟩

theorem witness_SoftwareInterrupt : board.runState = .running := rfl

theorem witness_InterruptEntry :
    (0xFFFA : Word).toNat = 0xFFFA - 2 * 0 ∧ (0xFF00 : Word).toNat = 0xFFFA - 2 * 125 ∧ board.holdsCode 0xFFFA = true ∧
      board.holdsCode (0xFF00 + 1) = true := by decide +kernel

theorem witness_ReturnFromInterrupt :
    (∀ k ∈ ([1, 2, 3, 4, 5] : List Word), board.mapped (board.sp + k) = true) ∧ FlagsOf (flags 0 1 0 0 1 0) (board.data (board.sp + 1)) ∧
      Halves (board.data (board.sp + 4)) (board.data (board.sp + 5)) 0x0000 :=
  ⟨by simp only [List.mem_cons, List.not_mem_nil, or_false, forall_eq_or_imp, forall_eq]; decide +kernel, by unfold FlagsOf; decide +kernel,
    by unfold Halves; decide +kernel⟩

theorem witness_HandlerReturnRestores :
    board.mem.wf = true ∧ (∀ k ∈ ([0, 1, 2, 3, 4] : List Word), board.kindAt (board.sp - k) = .ram) ∧
      (∃ t, exec .swi board = .next t) ∧ ∃ t, interruptEntry 125 board = .next t :=
  ⟨by decide +kernel, by simp only [List.mem_cons, List.not_mem_nil, or_false, forall_eq_or_imp, forall_eq]; decide +kernel,
    next_of_goesOn (by decide +kernel), next_of_goesOn (by decide +kernel)⟩

theorem witness_CallThenReturn :
    board.mem.wf = true ∧ board.kindAt board.sp = .ram ∧ board.kindAt (board.sp - 1) = .ram ∧ (∃ t, exec (.bsr 0x80) board = .next t) ∧
      ∃ t, exec (.jsr .ix) board = .next t :=
  ⟨by decide +kernel, by decide +kernel, by decide +kernel, next_of_goesOn (by decide +kernel),
    next_of_goesOn (by decide +kernel)⟩

theorem witness_BranchesAfterCompare :
    ∃ t, Operand8 (.imm 0x38) board 0x38 ∧ exec (.cmp (.imm 0x38)) board = .next t ∧ BranchTarget t 0x7F 0x027F :=
  ⟨_, rfl, rfl, by unfold BranchTarget; decide +kernel⟩

/-- The board about to run `LDA #$80` at $0200. -/
def boardLda : State := board.withBytesAtPc [0xA6, 0x80]

theorem witness_StepRunsDecodedInstruction :
    ReachesInstruction boardLda.sample ∧ decodedAtPc boardLda.sample = .ok (.lda (.imm 0x80)) 2 ∧ Fetchable boardLda.sample 2 ∧
      Unstored boardLda.sample 2 := by
  unfold ReachesInstruction Fetchable Unstored; decide +kernel

/-- The board about to meet the unassigned opcode $32. -/
def boardBad : State := board.withBytesAtPc [0x32]

/-- The board about to meet the unassigned encoding $9E $62. -/
def boardBad2 : State := board.withBytesAtPc [0x9E, 0x62]

theorem witness_UnassignedOpcodeStep :
    (ReachesInstruction boardBad.sample ∧ decodedAtPc boardBad.sample = .unassigned 0x32 ∧
        1 = (if boardBad.sample.peek boardBad.sample.pc = 0x9E then 2 else 1) ∧ Fetchable boardBad.sample 1 ∧
        Unstored boardBad.sample 1 ∧ boardBad.sample.cfg.illegalOpcode = .fault) ∧
      ReachesInstruction boardBad2.sample ∧ decodedAtPc boardBad2.sample = .unassigned 0x9E62 ∧
        2 = (if boardBad2.sample.peek boardBad2.sample.pc = 0x9E then 2 else 1) ∧ Fetchable boardBad2.sample 2 ∧
        Unstored boardBad2.sample 2 := by
  unfold ReachesInstruction Fetchable Unstored; decide +kernel

/-- `boardLda` after an instruction that stored the second byte of what comes next. -/
def boardStored : State := { boardLda with stored := [0x0201] }

/-- The board about to run `STA $0203`, which stores A into the instruction after it. -/
def boardSta (a : Byte) : State := ({ board with a := a } : State).withBytesAtPc [0xC7, 0x02, 0x03]

/-- The state after the STA of `boardSta`, at the next boundary. -/
def afterSta (a : Byte) : State :=
  match step (boardSta a) with
  | .next t => t.sample
  | .fault _ => board
  | .refused _ => board

theorem witness_StoreIntoNextInstructionIsRefused :
    (ReachesInstruction boardStored.sample ∧ Fetchable boardStored.sample (lengthAtPc boardStored.sample) ∧
        1 < lengthAtPc boardStored.sample ∧ boardStored.sample.pc + BitVec.ofNat 16 1 ∈ boardStored.sample.stored) ∧
      ∀ a ∈ ([0x38, 0x32, 0x9E] : List Byte),
        ReachesInstruction (boardSta a).sample ∧ decodedAtPc (boardSta a).sample = .ok (.sta (.ext 0x0203)) 3 ∧
          (goesOn (step (boardSta a)) = true ∧ ReachesInstruction (afterSta a) ∧ Fetchable (afterSta a) (lengthAtPc (afterSta a)) ∧
            0 < lengthAtPc (afterSta a) ∧
            (afterSta a).pc + BitVec.ofNat 16 0 ∈ storeAddresses (.sta (.ext 0x0203)) (boardSta a).sample ∧
            (afterSta a).kindAt ((afterSta a).pc + BitVec.ofNat 16 0) = .ram) := by
  unfold ReachesInstruction Fetchable
  simp only [List.forall_mem_cons, List.not_mem_nil, false_imp_iff, implies_true, and_true]
  decide +kernel

theorem witness_ResetEvent :
    ({ board with lines := { Lines.quiet with reset := true } } : State).lines.reset = true ∧ board.holdsCode 0xFFFE = true ∧
      board.holdsCode 0xFFFF = true := by decide +kernel

theorem witness_RequestsAtABoundary :
    Asserted { start with lines := { Lines.quiet with pending := 1 <<< 125 } } 125 ∧
      (∀ m < 125, ¬Asserted { start with lines := { Lines.quiet with pending := 1 <<< 125 } } m) ∧ start.ccr.i = false ∧
      start.cliShadow = false ∧ ∀ n, ¬Asserted { start with runState := .waiting } n :=
  ⟨by unfold Asserted; decide +kernel, by unfold Asserted; decide +kernel, rfl, rfl, fun n h => by simp [Asserted, start, State.reset, Lines.quiet] at h⟩

theorem witness_MaskedRequestsAreInvisible :
    board.schedule = [] ∧ board.runState = .running ∧ board.ccr.i = true ∧ start.runState = .running ∧
      ({ start with cliShadow := true } : State).cliShadow = true := by decide +kernel

theorem witness_StepKeepsInvariant : BoundaryInv boardLda ∧ ∃ t, step boardLda = .next t := 
  ⟨by unfold BoundaryInv; decide +kernel, next_of_goesOn (by decide +kernel)⟩

theorem witness_OnlyRamChanges :
    (∃ t, step boardLda = .next t) ∧ boardLda.kindAt 0xFFFF ≠ .ram ∧ boardLda.kindAt 0x0000 ≠ .ram :=
  ⟨next_of_goesOn (by decide +kernel), by decide +kernel, by decide +kernel⟩

theorem witness_EnvironmentIsOnlyRead :
    (∃ t, step boardLda = .next t) ∧ boardLda.schedule = [] ∧ ∃ t, step { boardLda with schedule := [Lines.quiet] } = .next t :=
  ⟨next_of_goesOn (by decide +kernel), rfl, next_of_goesOn (by decide +kernel)⟩

theorem witness_InstructionFrames :
    (∃ t, exec (.sta .ix) board = .next t) ∧ (0x0081 : Word) ∉ storeAddresses (.sta .ix) board ∧ (∃ t, exec .swi board = .next t) ∧
      board.sp - 5 ∉ storeAddresses .swi board ∧ board.sp + 1 ∉ storeAddresses .swi board ∧
      (storeAddresses .swi board).all (fun a => decide (board.kindAt a ≠ .device)) = true :=
  ⟨next_of_goesOn (by decide +kernel), by decide +kernel, next_of_goesOn (by decide +kernel), by decide +kernel, by decide +kernel,
    by decide +kernel⟩

end Sys2Proof.Tests
end

/-!
PROOFS. Device registers (parameter `memmap`, decision D10): the model's flags in the words of the statements, what a data read
and a store of a device register do where an entry is the first that fits, and the obligation O9 from these.
-/

namespace Sys2Proof.Proofs

open Sys2Proof Sys2Proof.Machine Sys2Proof.Claims

/-! ### The flags of the model and of the statements -/

/-- N and Z of an 8-bit result (rule R121). -/
theorem setNZ8_eq_nz8 (f : Ccr) (r : Byte) : setNZ8 f r = nz8 f r := by
  have hn : r.msb = r.getLsbD 7 := BitVec.msb_eq_getLsbD_last r
  have hz : decide (r = 0) = decide (r.toNat = 0) := decide_eq_decide.2 BitVec.toNat_inj.symm
  rw [setNZ8, nz8, hn, hz]

/-- The flags of loads, stores, moves and logic (rule R127). -/
theorem logicFlags_eq_plain (f : Ccr) (r : Byte) : logicFlags f r = plain f r := setNZ8_eq_nz8 _ r

/-- Adding 1 leaves the signed bytes exactly at $7F (rule R125). -/
theorem outside8_add_one (v : Byte) : outside8 (v.toInt + 1) = decide (v = 0x7F) := by
  have hedge : v = 0x7F ↔ v.toInt = 127 := BitVec.toInt_inj.symm
  have hlow : -128 ≤ v.toInt := BitVec.le_toInt v
  have hhigh : v.toInt < 128 := BitVec.toInt_lt
  rw [outside8, ← Bool.decide_or, decide_eq_decide, hedge]
  omega

/-- INC's result and flags, from the result as a number (rules R125, R189). -/
theorem incOp_eq {f : Ccr} {v r : Byte} (hr : r.toNat = (v.toNat + 1) % 256) :
    incOp f v = (r, nz8 { f with v := outside8 (v.toInt + 1) } r) := by
  have hsum : v + 1 = r := BitVec.eq_of_toNat_eq (by rw [hr, BitVec.toNat_add]; rfl)
  rw [incOp, hsum, setNZ8_eq_nz8, outside8_add_one]

/-! ### Instructions with an operand in memory -/

/-- LDA with a readable operand (rule R140). -/
theorem exec_lda_of_load8 {o : Opnd8} {s : State} {m : Byte} (h : load8 o s = .next m) :
    exec (.lda o) s = .next { s with a := m, ccr := plain s.ccr m } := by
  rw [exec, execLda, h, Res.bind_next, logicFlags_eq_plain]

/-- CMP sees of its operand only the value: it does what CMP with that immediate does (rule R184). -/
theorem exec_cmp_of_load8 {o : Opnd8} {s : State} {m : Byte} (h : load8 o s = .next m) :
    exec (.cmp o) s = exec (.cmp (.imm m)) s := by
  rw [exec, exec, execCmp, execCmp, h, load8_imm]

/-- INC of a byte in memory: one read, one store to the same address, then the flags (rules R129, R189). -/
theorem exec_inc_of_mapped {e : Ea} {s : State} {r : Byte} (h : s.mapped (effectiveAddress e s) = true)
    (hr : r.toNat = ((s.data (effectiveAddress e s)).toNat + 1) % 256) :
    exec (.inc e) s = .next { s.poke (effectiveAddress e s) r with
      ccr := nz8 { s.ccr with v := outside8 ((s.data (effectiveAddress e s)).toInt + 1) } r } := by
  rw [exec, execInc, rmwMem_eq_next.2 ⟨h, rfl⟩, incOp_eq hr]

/-- STA to an address with a result (rule R143). -/
theorem exec_sta_of_mapped {e : Ea} {s : State} (h : s.mapped (effectiveAddress e s) = true) :
    exec (.sta e) s = .next { s.poke (effectiveAddress e s) s.a with ccr := plain s.ccr s.a } := by
  rw [exec, execSta, storeByte_eq_next.2 ⟨h, rfl⟩, logicFlags_eq_plain]

/-! ### Device registers -/

/-- A data access to a device register has a result. -/
theorem mapped_of_device {s : State} {a : Word} (h : s.kindAt a = .device) : s.mapped a = true :=
  State.mapped_iff.2 (by simp [h])

/-- A read of a device register gives the value of the first entry that fits (rule R64). -/
theorem data_of_first_readEntry {s : State} {a : Word} {before after : List DeviceRead} {r : DeviceRead}
    (hd : s.kindAt a = .device) (he : s.cfg.deviceReads = before ++ r :: after) (hb : ∀ q ∈ before, ¬ReadEntryFits s a q)
    (hr : ReadEntryFits s a r) : s.data a = r.value := by
  rw [State.data, if_pos hd]
  exact deviceRead_of_first he hb hr

/-- A store to a device register moves the devices to the state of the first entry that fits, and does nothing else: memory and
the record of RAM stores stay (rule R60). -/
theorem poke_of_first_writeEntry {s : State} {a : Word} {v : Byte} {before after : List DeviceWrite} {w : DeviceWrite}
    (hd : s.kindAt a = .device) (he : s.cfg.deviceWrites = before ++ w :: after)
    (hb : ∀ q ∈ before, ¬WriteEntryFits s a v q) (hw : WriteEntryFits s a v w) : s.poke a v = { s with device := w.next } := by
  have hnext : deviceWrite s.cfg s.draws s.device a v = w.next := deviceWrite_of_first he hb hw
  simp [State.poke, hd, hnext]

/-- Settles O9: an access to the register is a data access with a result, and the first entry that fits says what it gives. -/
theorem deviceRegisters : Obligations.DeviceRegisters := by
  rintro s e a rfl hd
  have hm := mapped_of_device hd
  constructor
  · intro before r after he hb hr
    have hdata : s.data (effectiveAddress e s) = r.value := data_of_first_readEntry hd he hb hr
    have hload : load8 (.mem e) s = .next r.value := load8_mem_eq_next.2 ⟨hm, hdata.symm⟩
    refine ⟨exec_lda_of_load8 hload, exec_cmp_of_load8 hload, ?_⟩
    intro v before2 w after2 hv he2 hb2 hw
    rw [exec_inc_of_mapped hm (hdata ▸ hv), poke_of_first_writeEntry hd he2 hb2 hw, hdata]
  · intro before w after he hb hw
    rw [exec_sta_of_mapped hm, poke_of_first_writeEntry hd he hb hw]

end Sys2Proof.Proofs

/-!
PROOFS. What an instruction, and then a step, can change. `exec_effect` says once for all instructions what they write and where
they store; the obligations O57 and O58 read it field by field. `step_cases` says what a step can be; O56 and O53 go through its
cases.
-/

namespace Sys2Proof.Proofs

open Sys2Proof Sys2Proof.Machine Sys2Proof.Claims

/-! ### A list of stores -/

/-- The state after the listed cells were stored in this order. -/
def pokes (s : State) (cells : List (Word × Byte)) : State := cells.foldl (fun u c => u.poke c.1 c.2) s

/-- Stores keep the memory's canonical form. -/
theorem pokes_wf {cells : List (Word × Byte)} {s : State} (hw : s.mem.wf = true) : (pokes s cells).mem.wf = true := by
  induction cells generalizing s with
  | nil => exact hw
  | cons c cells ih => exact ih (State.wf_poke c.1 c.2 hw)

/-- Each store adds at most one address to the record of stores. -/
theorem pokes_stored_length_le (cells : List (Word × Byte)) (s : State) :
    (pokes s cells).stored.length ≤ cells.length + s.stored.length := by
  induction cells generalizing s with
  | nil => simp [pokes]
  | cons c cells ih =>
    have hone : (s.poke c.1 c.2).stored.length ≤ s.stored.length + 1 := by
      rw [State.poke_stored]
      split <;> simp
    have hrest := ih (s.poke c.1 c.2)
    simp only [pokes, List.foldl_cons, List.length_cons] at hrest ⊢
    omega

/-- The two states have the same memory, record of stores and devices. -/
def SameMemory (s t : State) : Prop := t.mem = s.mem ∧ t.stored = s.stored ∧ t.device = s.device

/-- Stores do not look at SP. -/
theorem pokes_withSp (cells : List (Word × Byte)) (s : State) (p : Word) :
    pokes { s with sp := p } cells = { pokes s cells with sp := p } := by
  induction cells generalizing s with
  | nil => rfl
  | cons c cells ih => exact ih (s.poke c.1 c.2)

/-- Pushing bytes is storing them from SP downward. -/
theorem pushBytes_pokes {vs : List Byte} {s t : State} (h : pushBytes vs s = .next t) :
    SameMemory (pokes s (pushCells s.sp vs)) t := by
  induction vs generalizing s with
  | nil =>
    cases h
    exact ⟨rfl, rfl, rfl⟩
  | cons v vs ih =>
    obtain ⟨u, hu, h⟩ := Res.bind_eq_next.1 h
    obtain ⟨-, rfl⟩ := push8_eq_next.1 hu
    have hrest := ih h
    rwa [pokes_withSp] at hrest

/-- The five pushes of an exception store from SP down to SP - 4 (rules R313, R337). -/
theorem takeException_pokes {s t : State} {vector : Word} (h : takeException vector s = .next t) :
    ∃ cells : List (Word × Byte), cells.map Prod.fst = [s.sp, s.sp - 1, s.sp - 2, s.sp - 3, s.sp - 4] ∧
      SameMemory (pokes s cells) t := by
  obtain ⟨u, hu, -, -, rfl⟩ := takeException_eq_next.1 h
  have h2 : s.sp - 1 - 1 = s.sp - 2 := BitVec.sub_sub _ 1 1
  have h3 : s.sp - 2 - 1 = s.sp - 3 := BitVec.sub_sub _ 2 1
  have h4 : s.sp - 3 - 1 = s.sp - 4 := BitVec.sub_sub _ 3 1
  have hmem := pushBytes_pokes hu
  refine ⟨_, ?_, hmem⟩
  simp only [pushCells, List.map_cons, List.map_nil, h2, h3, h4]

/-! ### What an instruction can do to the state -/

/-- The state `t` with everything that `i` is not listed as writing put back as in `s`: the registers by the lists of rules R21,
R22, R24 and R25, the run state, `cli_shadow` and the counter of free values by the two instructions each, the environment, the
parameters and the cycle counter always. The flags, the memory and the devices are those of `t`. -/
def restored (i : Instr) (s t : State) : State :=
  { t with
    a := if writesA i then t.a else s.a
    x := if writesPair i || writesXAlone i then t.x else s.x
    h := if writesPair i || writesHAlone i then t.h else s.h
    sp := if writesSp i then t.sp else s.sp
    pc := if writesPc i then t.pc else s.pc
    runState := if i = .wait ∨ i = .stop then t.runState else s.runState
    cliShadow := if i = .cli ∨ i = .tap then t.cliShadow else s.cliShadow
    draws := if i = .div ∨ i = .daa then t.draws else s.draws
    lines := s.lines
    schedule := s.schedule
    cfg := s.cfg
    cycles := s.cycles }

/-- What an instruction that goes on can do: it writes only what it is listed as writing, and it stores to its addresses in their
order. -/
theorem exec_effect {i : Instr} {s t : State} (h : exec i s = .next t) :
    t = restored i s t ∧ ∃ cells : List (Word × Byte), cells.map Prod.fst = storeAddresses i s ∧ SameMemory (pokes s cells) t := by
  cases i with
  | lda _ | ldx _ | ldhx _ | adc _ | add _ | sub _ | sbc _ | cmp _ | cpx _ | cphx _ | and _ | ora _ | eor _ | bit _ | tst _ =>
    obtain ⟨m, -, ⟨⟩⟩ := Res.bind_eq_next.1 h
    exact ⟨rfl, [], rfl, rfl, rfl, rfl⟩
  | cbeq o _ =>
    obtain ⟨m, -, ⟨⟩⟩ := Res.bind_eq_next.1 h
    cases o <;> exact ⟨rfl, [], rfl, rfl, rfl, rfl⟩
  | brset _ _ _ | brclr _ _ _ =>
    obtain ⟨-, rfl⟩ := branchOnBit_eq_next.1 h
    exact ⟨rfl, [], rfl, rfl, rfl, rfl⟩
  | sta _ | stx _ =>
    obtain ⟨-, rfl⟩ := storeByte_eq_next.1 h
    exact ⟨rfl, [(_, _)], rfl, rfl, rfl, rfl⟩
  | inc _ | dec _ | neg _ | com _ | lsl _ | asl _ | asr _ | lsr _ | rol _ | ror _ =>
    obtain ⟨-, rfl⟩ := rmwMem_eq_next.1 h
    exact ⟨rfl, [(_, _)], rfl, rfl, rfl, rfl⟩
  | bset _ _ | bclr _ _ =>
    obtain ⟨-, rfl⟩ := writeBit_eq_next.1 h
    exact ⟨rfl, [(_, _)], rfl, rfl, rfl, rfl⟩
  | clr _ =>
    obtain ⟨u, hu, ⟨⟩⟩ := Res.bind_eq_next.1 h
    obtain ⟨-, rfl⟩ := write8_eq_next.1 hu
    exact ⟨rfl, [(_, _)], rfl, rfl, rfl, rfl⟩
  | dbnz _ _ =>
    obtain ⟨m, -, h⟩ := Res.bind_eq_next.1 h
    obtain ⟨u, hu, ⟨⟩⟩ := Res.bind_eq_next.1 h
    obtain ⟨-, rfl⟩ := write8_eq_next.1 hu
    exact ⟨rfl, [(_, _)], rfl, rfl, rfl, rfl⟩
  | sthx _ =>
    obtain ⟨u, hu, ⟨⟩⟩ := Res.bind_eq_next.1 h
    obtain ⟨-, -, rfl⟩ := write16_eq_next.1 hu
    exact ⟨rfl, [(_, _), (_, _)], rfl, rfl, rfl, rfl⟩
  | mov o =>
    cases o with
    | imd _ _ =>
      obtain ⟨u, hu, ⟨⟩⟩ := Res.bind_eq_next.1 h
      obtain ⟨-, rfl⟩ := write8_eq_next.1 hu
      exact ⟨rfl, [(_, _)], rfl, rfl, rfl, rfl⟩
    | dd _ _ | dixPlus _ | ixPlusD _ =>
      obtain ⟨m, -, h⟩ := Res.bind_eq_next.1 h
      obtain ⟨u, hu, ⟨⟩⟩ := Res.bind_eq_next.1 h
      obtain ⟨-, rfl⟩ := write8_eq_next.1 hu
      exact ⟨rfl, [(_, _)], rfl, rfl, rfl, rfl⟩
  | psha | pshh | pshx =>
    obtain ⟨-, rfl⟩ := push8_eq_next.1 h
    exact ⟨rfl, [(_, _)], rfl, rfl, rfl, rfl⟩
  | pula | pulh | pulx =>
    obtain ⟨p, hp, ⟨⟩⟩ := Res.bind_eq_next.1 h
    obtain ⟨-, rfl⟩ := pull8_eq_next.1 hp
    exact ⟨rfl, [], rfl, rfl, rfl, rfl⟩
  | rts =>
    obtain ⟨p, hp, h⟩ := Res.bind_eq_next.1 h
    obtain ⟨-, rfl⟩ := pull8_eq_next.1 hp
    obtain ⟨q, hq, ⟨⟩⟩ := Res.bind_eq_next.1 h
    obtain ⟨-, rfl⟩ := pull8_eq_next.1 hq
    exact ⟨rfl, [], rfl, rfl, rfl, rfl⟩
  | rti =>
    obtain ⟨-, rfl⟩ := returnFromException_eq_next.1 h
    exact ⟨rfl, [], rfl, rfl, rfl, rfl⟩
  | bsr _ | jsr _ =>
    obtain ⟨u, hu, ⟨⟩⟩ := Res.bind_eq_next.1 h
    obtain ⟨-, -, rfl⟩ := pushReturn_eq_next.1 hu
    exact ⟨rfl, [(_, _), (_, _)], rfl, rfl, rfl, rfl⟩
  | swi =>
    have hframe := takeException_frame h
    exact ⟨by rw [hframe]; rfl, takeException_pokes h⟩
  | div =>
    simp only [exec, execDiv] at h
    split at h <;> cases h <;> exact ⟨rfl, [], rfl, rfl, rfl, rfl⟩
  | daa =>
    simp only [exec, execDaa] at h
    split at h <;> cases h <;> exact ⟨rfl, [], rfl, rfl, rfl, rfl⟩
  | clra | clrx | clrh | tax | txa | tap | tpa | tsx | txs | rsp | ais _ | aix _ | inca | incx | deca | decx | nega | negx | tsta
  | tstx | mul | coma | comx | nsa | lsla | lslx | asla | aslx | asra | asrx | lsra | lsrx | rola | rolx | rora | rorx | clc | sec
  | bra _ | brn _ | bhi _ | bls _ | bcc _ | bhs _ | bcs _ | blo _ | bne _ | beq _ | bhcc _ | bhcs _ | bpl _ | bmi _ | bmc _
  | bms _ | bil _ | bih _ | bge _ | blt _ | bgt _ | ble _ | cbeqa _ _ | cbeqx _ _ | dbnza _ | dbnzx _ | jmp _ | nop | sei
  | cli | wait | stop =>
    cases h
    exact ⟨rfl, [], rfl, rfl, rfl, rfl⟩

/-- Only WAIT and STOP change the run state (rule R38). -/
theorem exec_runState {i : Instr} {s t : State} (h : exec i s = .next t) (hw : i ≠ .wait) (hs : i ≠ .stop) :
    t.runState = s.runState := by
  rw [(exec_effect h).1]
  exact if_neg (not_or_intro hw hs)

/-- Only CLI and TAP change `cli_shadow` (rule R348). -/
theorem exec_cliShadow {i : Instr} {s t : State} (h : exec i s = .next t) (hc : i ≠ .cli) (ht : i ≠ .tap) :
    t.cliShadow = s.cliShadow := by
  rw [(exec_effect h).1]
  exact if_neg (not_or_intro hc ht)

/-- Only DIV and DAA draw free values (rules R194, R195). -/
theorem exec_draws {i : Instr} {s t : State} (h : exec i s = .next t) (hd : i ≠ .div) (ha : i ≠ .daa) :
    t.draws = s.draws := by
  rw [(exec_effect h).1]
  exact if_neg (not_or_intro hd ha)

theorem storeAddresses_length_le (i : Instr) (s : State) : (storeAddresses i s).length ≤ 5 := by
  cases i with
  | mov o => cases o <;> exact Nat.le_of_ble_eq_true rfl
  | _ => exact Nat.le_of_ble_eq_true rfl

/-- Settles O57, field by field from what `exec_effect` restores. -/
theorem onlyListedInstructionsWriteRegisters : Obligations.OnlyListedInstructionsWriteRegisters := by
  intro i s t h
  rw [(exec_effect h).1, restored]
  refine ⟨fun hA => ?_, fun hP hX => ?_, fun hP hH => ?_, fun hS => ?_⟩
  · simp [hA]
  · simp [hP, hX]
  · simp [hP, hH]
  · simp [hS]

/-- Settles O58, field by field from what `exec_effect` restores. -/
theorem onlyListedInstructionsChangeControl : Obligations.OnlyListedInstructionsChangeControl := by
  intro i s t h
  refine ⟨fun hpc => ?_, exec_runState h, exec_cliShadow h, exec_draws h, ?_⟩
  · rw [(exec_effect h).1]
    simp [restored, hpc]
  · rw [(exec_effect h).1]
    exact ⟨rfl, rfl, rfl, rfl⟩

/-! ### What a step can do -/

/-- A step is a reset event, the entry of the request taken, one instruction, or nothing while halted (rules R335, R344 to R349). -/
theorem step_cases {s t : State} (h : step s = .next t) :
    enterReset s.sample = .next t ∨
      (∃ n, s.sample.taken = some n ∧ interruptEntry n s.sample = .next t) ∨
      (∃ i n, s.runState = .running ∧ exec i (s.sample.begin n (instrCycles i)) = .next t) ∨
      t = s.sample := by
  rw [step_eq] at h
  rcases atBoundary_eq_next.1 h with ⟨-, h⟩ | ⟨-, ⟨n, hn, h⟩ | ⟨-, hr, h⟩ | ⟨-, -, h⟩⟩
  · exact .inl h
  · exact .inr (.inl ⟨n, hn, h⟩)
  · rcases runInstruction_eq_next.1 h with ⟨i, n, -, -, h⟩ | ⟨op, -, -, -, h⟩
    · exact .inr (.inr (.inl ⟨i, n, by simpa using hr, h⟩))
    · exact .inl h
  · exact .inr (.inr (.inr h))

/-- The environment and the parameters of the two states are the same. -/
def SameEnvironment (s t : State) : Prop := t.lines = s.lines ∧ t.schedule = s.schedule ∧ t.cfg = s.cfg

theorem exec_sameEnvironment {i : Instr} {s t : State} (h : exec i s = .next t) : SameEnvironment s t := by
  rw [(exec_effect h).1]
  exact ⟨rfl, rfl, rfl⟩

theorem enterReset_sameEnvironment {s t : State} (h : enterReset s = .next t) : SameEnvironment s t := by
  obtain ⟨-, -, rfl⟩ := enterReset_eq_next.1 h
  exact ⟨rfl, rfl, rfl⟩

theorem interruptEntry_sameEnvironment {n : Nat} {s t : State} (h : interruptEntry n s = .next t) : SameEnvironment s t := by
  rw [interruptEntry_frame h]
  exact ⟨rfl, rfl, rfl⟩

/-- After a step the environment is the one presented at its boundary. -/
theorem step_sameEnvironment {s t : State} (h : step s = .next t) : SameEnvironment s.sample t := by
  rcases step_cases h with h | ⟨n, -, h⟩ | ⟨i, n, -, h⟩ | rfl
  · exact enterReset_sameEnvironment h
  · exact interruptEntry_sameEnvironment h
  · have henv := exec_sameEnvironment h
    exact henv
  · exact ⟨rfl, rfl, rfl⟩

/-- Settles O56: only the presenting of the boundary's lines touches the environment. -/
theorem environmentIsOnlyRead : Obligations.EnvironmentIsOnlyRead := by
  intro s t h
  obtain ⟨hl, hs, hc⟩ := step_sameEnvironment h
  rw [hl, hs, hc]
  refine ⟨State.sample_cfg s, fun hnil => ?_, fun l rest hcons => ?_⟩
  · rw [State.sample_of_schedule_nil hnil]
    exact ⟨rfl, hnil⟩
  · rw [State.sample_of_schedule_cons hcons]
    exact ⟨rfl, rfl⟩

/-! ### The invariant of the boundaries -/

theorem sample_keepsInv {s : State} (h : BoundaryInv s) : BoundaryInv s.sample := by
  simpa [BoundaryInv] using h

theorem enterReset_inv {s t : State} (hw : s.mem.wf = true) (h : enterReset s = .next t) : BoundaryInv t := by
  obtain ⟨-, -, rfl⟩ := enterReset_eq_next.1 h
  simp [BoundaryInv, hw]

/-- Memory stays canonical across an exception. -/
theorem takeException_wf {s t : State} {vector : Word} (hw : s.mem.wf = true) (h : takeException vector s = .next t) :
    t.mem.wf = true := by
  obtain ⟨cells, -, hmem, -, -⟩ := takeException_pokes h
  rw [hmem]
  exact pokes_wf hw

/-- A running CPU takes no request with I = 1 or under `cli_shadow` (rule R335). -/
theorem taken_of_masked {s : State} (hr : s.runState = .running) (hm : s.ccr.i = true ∨ s.cliShadow = true) :
    s.taken = none := by
  simp only [State.taken, hr]
  exact if_pos (by simpa using hm)

/-- A request is taken with `cli_shadow` clear only. -/
theorem cliShadow_of_taken {s : State} {n : Nat} (hinv : BoundaryInv s) (h : s.taken = some n) : s.cliShadow = false := by
  obtain ⟨-, -, hshadow, -, -⟩ := hinv
  cases hset : s.cliShadow with
  | false => rfl
  | true => simp [taken_of_masked (hshadow hset).2 (.inr hset)] at h

theorem interruptEntry_wf {n : Nat} {s t : State} (hw : s.mem.wf = true) (h : interruptEntry n s = .next t) :
    t.mem.wf = true := by
  obtain ⟨u, hu, rfl⟩ := interruptEntry_eq_next.1 h
  have hkept : u.mem.wf = true := takeException_wf (s := { s with runState := .running }) hw hu
  exact hkept

/-- Interrupt entry ends running with I set, and adds nothing to the record of stores. -/
theorem interruptEntry_keepsInv {n : Nat} {s t : State} (hinv : BoundaryInv s) (hn : s.taken = some n)
    (h : interruptEntry n s = .next t) : BoundaryInv t := by
  have hclear := cliShadow_of_taken hinv hn
  obtain ⟨hwf, -, -, -, hstored⟩ := hinv
  have hkept := interruptEntry_wf hwf h
  rw [interruptEntry_frame h]
  simp [BoundaryInv, hkept, hclear, hstored]

/-- `cli_shadow` is set by CLI and TAP alone, with `cli_delay = one` and where they clear I (rule R348). -/
theorem exec_sets_cliShadow {i : Instr} {s t : State} (hs : s.cliShadow = false) (h : exec i s = .next t)
    (ht : t.cliShadow = true) : t.cfg.cliDelay = .one ∧ t.ccr.i = false ∧ t.runState = s.runState := by
  have hshadowing : ∀ f : Ccr, t = s.setCcrShadowing f → t.cfg.cliDelay = .one ∧ t.ccr.i = false ∧ t.runState = s.runState := by
    rintro f rfl
    simp only [State.setCcrShadowing_cliShadow, Bool.and_eq_true, decide_eq_true_eq, Bool.not_eq_true'] at ht
    obtain ⟨⟨hone, -⟩, hi⟩ := ht
    exact ⟨hone, hi, rfl⟩
  by_cases hc : i = .cli
  · subst hc
    exact hshadowing _ (Host.Outcome.next.inj h).symm
  by_cases hp : i = .tap
  · subst hp
    exact hshadowing _ (Host.Outcome.next.inj h).symm
  rw [exec_cliShadow h hc hp, hs] at ht
  cases ht

/-- A running CPU is halted by WAIT and STOP alone, which clear I (rules R315, R316). -/
theorem exec_halts {i : Instr} {s t : State} (hs : s.runState = .running) (h : exec i s = .next t)
    (ht : t.runState ≠ .running) : t.ccr.i = false := by
  by_cases hw : i = .wait
  · subst hw
    cases h
    rfl
  by_cases hp : i = .stop
  · subst hp
    cases h
    rfl
  exact absurd ((exec_runState h hw hp).trans hs) ht

/-- An instruction stores at most five bytes and keeps memory canonical. -/
theorem exec_stores {i : Instr} {s t : State} (h : exec i s = .next t) :
    (s.mem.wf = true → t.mem.wf = true) ∧ t.stored.length ≤ 5 + s.stored.length := by
  obtain ⟨-, cells, haddr, hmem, hstored, -⟩ := exec_effect h
  have hfive : cells.length ≤ 5 := by
    rw [← List.length_map (f := Prod.fst), haddr]
    exact storeAddresses_length_le i s
  refine ⟨fun hw => hmem ▸ pokes_wf hw, ?_⟩
  have hlength := pokes_stored_length_le cells s
  rw [hstored]
  omega

/-- An instruction of a running CPU, started as `State.begin` starts it, ends in the invariant. -/
theorem exec_inv {i : Instr} {s t : State} (hw : s.mem.wf = true) (hr : s.runState = .running) (hc : s.cliShadow = false)
    (hs : s.stored = []) (h : exec i s = .next t) : BoundaryInv t := by
  obtain ⟨hwf, hstored⟩ := exec_stores h
  refine ⟨hwf hw, fun hnone => ?_, fun hset => ?_, exec_halts hr h, by simpa [hs] using hstored⟩
  · cases hset : t.cliShadow with
    | false => rfl
    | true =>
      obtain ⟨hone, -, -⟩ := exec_sets_cliShadow hc h hset
      simp [hnone] at hone
  · obtain ⟨-, hi, hrun⟩ := exec_sets_cliShadow hc h hset
    exact ⟨hi, hrun.trans hr⟩

/-- Settles O53, by the four things a step can be. -/
theorem stepKeepsInvariant : Obligations.StepKeepsInvariant := by
  intro s t hinv h
  have hsample := sample_keepsInv hinv
  have hwf := hsample.1
  rcases step_cases h with h | ⟨n, hn, h⟩ | ⟨i, n, hrun, h⟩ | rfl
  · exact enterReset_inv hwf h
  · exact interruptEntry_keepsInv hsample hn h
  · exact exec_inv (s := s.sample.begin n (instrCycles i)) hwf (by simpa using hrun) rfl rfl h
  · exact hsample

end Sys2Proof.Proofs

/-!
PROOFS. The request levels are read by the choice at a boundary alone: every operation, instruction and event commutes with
`withPending`, and while requests are masked a boundary makes no choice. The obligation O52 follows.
-/

namespace Sys2Proof.Proofs

open Sys2Proof Sys2Proof.Machine Sys2Proof.Claims

section Requests

variable {p : BitVec 126}

/-- Going on from a value that does not depend on the request levels. -/
theorem bind_withPending_value {α : Type} {r r' : Res α} {k k' : α → Res State} (hr : r' = r)
    (hk : ∀ v, k' v = mapNext (withPending p) (k v)) : Res.bind r' k' = mapNext (withPending p) (Res.bind r k) := by
  subst hr
  cases r' with
  | next v => exact hk v
  | fault _ => rfl
  | refused _ => rfl

/-- Going on from a state that differs in the request levels only. -/
theorem bind_withPending_state {r r' : Res State} {k k' : State → Res State} (hr : r' = mapNext (withPending p) r)
    (hk : ∀ t, k' (withPending p t) = mapNext (withPending p) (k t)) :
    Res.bind r' k' = mapNext (withPending p) (Res.bind r k) := by
  subst hr
  cases r with
  | next t => exact hk t
  | fault _ => rfl
  | refused _ => rfl

theorem load8_withPending (o : Opnd8) (s : State) : load8 o (withPending p s) = load8 o s := by
  cases o <;> rfl

theorem load16_withPending (o : Opnd16) (s : State) : load16 o (withPending p s) = load16 o s := by
  cases o <;> rfl

theorem write8_withPending (s : State) (a : Word) (v : Byte) :
    write8 (withPending p s) a v = mapNext (withPending p) (write8 s a v) := by
  have hkind : (withPending p s).kindAt a = s.kindAt a := rfl
  rw [write8, write8, hkind]
  cases s.kindAt a <;> rfl

theorem push8_withPending (v : Byte) (s : State) : push8 v (withPending p s) = mapNext (withPending p) (push8 v s) :=
  bind_withPending_state (write8_withPending s s.sp v) fun _ => rfl

theorem pushBytes_withPending (vs : List Byte) (s : State) :
    pushBytes vs (withPending p s) = mapNext (withPending p) (pushBytes vs s) := by
  induction vs generalizing s with
  | nil => rfl
  | cons v vs ih => exact bind_withPending_state (push8_withPending v s) ih

/-- Going on from a pulled byte. -/
theorem bind_pull8_withPending {s : State} {k k' : Byte × State → Res State}
    (hk : ∀ v t, k' (v, withPending p t) = mapNext (withPending p) (k (v, t))) :
    Res.bind (pull8 (withPending p s)) k' = mapNext (withPending p) (Res.bind (pull8 s) k) := by
  have hread : read8 (withPending p s) ((withPending p s).sp + 1) = read8 s (s.sp + 1) := rfl
  rw [pull8, pull8, hread]
  cases read8 s (s.sp + 1) with
  | next v => exact hk v { s with sp := s.sp + 1 }
  | fault _ => rfl
  | refused _ => rfl

theorem takeException_withPending (vector : Word) (s : State) :
    takeException vector (withPending p s) = mapNext (withPending p) (takeException vector s) :=
  bind_withPending_state (pushBytes_withPending _ s) fun _ => bind_withPending_value rfl fun _ => rfl

theorem returnFromException_withPending (s : State) :
    returnFromException (withPending p s) = mapNext (withPending p) (returnFromException s) :=
  bind_pull8_withPending fun _ _ => bind_pull8_withPending fun _ _ => bind_pull8_withPending fun _ _ =>
    bind_pull8_withPending fun _ _ => bind_pull8_withPending fun _ _ => rfl

theorem rmwMem_withPending (f : UnaryOp) (e : Ea) (s : State) :
    rmwMem f e (withPending p s) = mapNext (withPending p) (rmwMem f e s) :=
  bind_withPending_value rfl fun _ => bind_withPending_state (write8_withPending s _ _) fun _ => rfl

theorem execDiv_withPending (s : State) : execDiv (withPending p s) = mapNext (withPending p) (execDiv s) := by
  rw [execDiv, execDiv, apply_ite (mapNext (withPending p))]
  rfl

theorem execDaa_withPending (s : State) : execDaa (withPending p s) = mapNext (withPending p) (execDaa s) := by
  have hrow : daaAdjust (withPending p s).cfg.daaFn (withPending p s).ccr.c (withPending p s).ccr.h (withPending p s).a =
      daaAdjust s.cfg.daaFn s.ccr.c s.ccr.h s.a := rfl
  rw [execDaa, execDaa, hrow]
  cases daaAdjust s.cfg.daaFn s.ccr.c s.ccr.h s.a <;> rfl

theorem exec_withPending (i : Instr) (s : State) : exec i (withPending p s) = mapNext (withPending p) (exec i s) := by
  cases i with
  | lda _ | ldx _ | adc _ | add _ | sub _ | sbc _ | cmp _ | cpx _ | and _ | ora _ | eor _ | bit _ =>
    exact bind_withPending_value (load8_withPending _ s) fun _ => rfl
  | ldhx _ | cphx _ => exact bind_withPending_value (load16_withPending _ s) fun _ => rfl
  | tst _ => exact bind_withPending_value rfl fun _ => rfl
  | cbeq o _ => 
    cases o <;> exact bind_withPending_value rfl fun _ => rfl
  | brset _ _ _ | brclr _ _ _ => exact bind_withPending_value rfl fun _ => rfl
  | sta _ | stx _ | clr _ => exact bind_withPending_state (write8_withPending s _ _) fun _ => rfl
  | inc e | dec e | neg e | com e | lsl e | asl e | asr e | lsr e | rol e | ror e => exact rmwMem_withPending _ e s
  | bset _ _ | bclr _ _ => exact bind_withPending_value rfl fun _ => write8_withPending s _ _
  | dbnz _ _ => exact bind_withPending_value rfl fun _ => bind_withPending_state (write8_withPending s _ _) fun _ => rfl
  | sthx _ =>
    exact bind_withPending_state (bind_withPending_state (write8_withPending s _ _) fun t => write8_withPending t _ _) fun _ => rfl
  | mov o =>
    cases o with
    | imd _ _ => exact bind_withPending_state (write8_withPending s _ _) fun _ => rfl
    | dd _ _ | dixPlus _ | ixPlusD _ =>
      exact bind_withPending_value rfl fun _ => bind_withPending_state (write8_withPending s _ _) fun _ => rfl
  | psha | pshh | pshx => exact push8_withPending _ s
  | pula | pulh | pulx => exact bind_pull8_withPending fun _ _ => rfl
  | rts => exact bind_pull8_withPending fun _ _ => bind_pull8_withPending fun _ _ => rfl
  | rti => exact returnFromException_withPending s
  | bsr _ | jsr _ => exact bind_withPending_state (pushBytes_withPending _ s) fun _ => rfl
  | swi => exact takeException_withPending _ s
  | div => exact execDiv_withPending s
  | daa => exact execDaa_withPending s
  | clra | clrx | clrh | tax | txa | tap | tpa | tsx | txs | rsp | ais _ | aix _ | inca | incx | deca | decx | nega | negx | tsta
  | tstx | mul | coma | comx | nsa | lsla | lslx | asla | aslx | asra | asrx | lsra | lsrx | rola | rolx | rora | rorx | clc | sec
  | bra _ | brn _ | bhi _ | bls _ | bcc _ | bhs _ | bcs _ | blo _ | bne _ | beq _ | bhcc _ | bhcs _ | bpl _ | bmi _ | bmc _
  | bms _ | bil _ | bih _ | bge _ | blt _ | bgt _ | ble _ | cbeqa _ _ | cbeqx _ _ | dbnza _ | dbnzx _ | jmp _ | nop | sei
  | cli | wait | stop => rfl

theorem fetch_withPending (s : State) : fetch (withPending p s) = fetch s := rfl

theorem enterReset_withPending (s : State) : enterReset (withPending p s) = mapNext (withPending p) (enterReset s) :=
  bind_withPending_value rfl fun _ => rfl

theorem runInstruction_withPending (s : State) :
    runInstruction (withPending p s) = mapNext (withPending p) (runInstruction s) := by
  refine bind_withPending_value (fetch_withPending s) fun d => ?_
  cases d with
  | ok i n =>
    have hstored : (withPending p s).storedInto n = s.storedInto n := rfl
    have hexec := exec_withPending (p := p) i (s.begin n (instrCycles i))
    simp only [hstored]
    cases s.storedInto n with
    | true => rfl
    | false => exact hexec
  | unassigned op =>
    have hstored : (withPending p s).storedInto (unassignedLength op) = s.storedInto (unassignedLength op) := rfl
    have hcfg : (withPending p s).cfg = s.cfg := rfl
    simp only [hstored, hcfg]
    cases s.storedInto (unassignedLength op) with
    | true => rfl
    | false =>
      cases s.cfg.illegalOpcode with
      | fault => rfl
      | reset => exact enterReset_withPending s

end Requests

/-- While running with I = 1 or under `cli_shadow`, a boundary is reset or the next instruction (rule R335). -/
theorem atBoundary_of_masked {s : State} (hr : s.runState = .running) (hm : s.ccr.i = true ∨ s.cliShadow = true) :
    atBoundary s = if s.lines.reset then enterReset s else runInstruction s := by
  rw [atBoundary, taken_of_masked hr hm, hr]

/-- Settles O52: masked, the boundary is reset or an instruction, and both commute with `withPending`. -/
theorem maskedRequestsAreInvisible : Obligations.MaskedRequestsAreInvisible := by
  intro s p hnil hr hm
  have hm' : s.sample.ccr.i = true ∨ s.sample.cliShadow = true := by simpa using hm
  have hr' : s.sample.runState = .running := by simpa using hr
  have hsample : (withPending p s).sample = withPending p s.sample := by
    rw [State.sample_of_schedule_nil hnil, State.sample_of_schedule_nil (s := withPending p s) hnil]
    rfl
  have hreset : (withPending p s.sample).lines.reset = s.sample.lines.reset := rfl
  rw [step_eq, step_eq, hsample, atBoundary_of_masked hr' hm', atBoundary_of_masked (s := withPending p s.sample) hr' hm', hreset]
  cases s.sample.lines.reset with
  | true => exact enterReset_withPending s.sample
  | false => exact runInstruction_withPending s.sample

end Sys2Proof.Proofs

/-!
PROOFS. Where memory changes. A list of stores changes bytes only at its RAM addresses, and records exactly those; by
`exec_effect` and `step_cases` that is what instructions and steps do to memory. The obligations O44, O55 and O59 follow.
-/

namespace Sys2Proof.Proofs

open Sys2Proof Sys2Proof.Machine Sys2Proof.Claims

/-! ### A list of stores, address by address -/

/-- A list of stores changes no byte at an address it does not name. -/
theorem pokes_peek_of_not_mem {cells : List (Word × Byte)} {s : State} {b : Word} (hb : b ∉ cells.map Prod.fst) :
    (pokes s cells).peek b = s.peek b := by
  induction cells generalizing s with
  | nil => rfl
  | cons c cells ih =>
    rw [List.map_cons, List.mem_cons, not_or] at hb
    obtain ⟨hne, hrest⟩ := hb
    exact (ih hrest).trans (State.peek_poke_of_ne s c.2 hne)

/-- A store changes no byte outside RAM (rule R60). -/
theorem peek_poke_outside_ram {s : State} {a b : Word} (v : Byte) (hb : s.kindAt b ≠ .ram) : (s.poke a v).peek b = s.peek b := by
  by_cases hab : b = a
  · subst hab
    exact State.peek_poke_of_not_ram v hb
  · exact State.peek_poke_of_ne s v hab

/-- A list of stores changes no byte outside RAM (rule R60). -/
theorem pokes_peek_outside_ram {cells : List (Word × Byte)} {s : State} {b : Word} (hb : s.kindAt b ≠ .ram) :
    (pokes s cells).peek b = s.peek b := by
  induction cells generalizing s with
  | nil => rfl
  | cons c cells ih => exact (ih (s := s.poke c.1 c.2) hb).trans (peek_poke_outside_ram c.2 hb)

/-- A list of stores records its RAM addresses, the latest first (rule R63). -/
theorem pokes_stored (cells : List (Word × Byte)) (s : State) :
    (pokes s cells).stored = ramStores s (cells.map Prod.fst) ++ s.stored := by
  induction cells generalizing s with
  | nil => rfl
  | cons c cells ih =>
    refine (ih (s.poke c.1 c.2)).trans ?_
    by_cases hram : s.kindAt c.1 = .ram <;> simp [ramStores, hram]

/-- The devices stay in their state where no store is to a device register (rule R60). -/
theorem pokes_device_of_no_device {cells : List (Word × Byte)} {s : State}
    (hc : ∀ a ∈ cells.map Prod.fst, s.kindAt a ≠ .device) : (pokes s cells).device = s.device := by
  induction cells generalizing s with
  | nil => rfl
  | cons c cells ih =>
    rw [List.map_cons, List.forall_mem_cons] at hc
    obtain ⟨hfirst, hrest⟩ := hc
    exact (ih (s := s.poke c.1 c.2) hrest).trans (if_neg hfirst)

/-- Settles O59: the effect of an instruction on memory is that of its list of stores. -/
theorem memoryChangesOnlyWhereStored : Obligations.MemoryChangesOnlyWhereStored := by
  intro i s t h
  obtain ⟨-, cells, haddr, hmem, hstored, hdevice⟩ := exec_effect h
  rw [← haddr, hstored, hdevice]
  exact ⟨fun b hb => (State.peek_congr hmem b).trans (pokes_peek_of_not_mem hb), pokes_stored cells s, pokes_device_of_no_device⟩

/-! ### Bytes outside RAM -/

theorem exec_peek_outside_ram {i : Instr} {s t : State} {a : Word} (h : exec i s = .next t) (ha : s.kindAt a ≠ .ram) :
    t.peek a = s.peek a := by
  obtain ⟨-, cells, -, hmem, -, -⟩ := exec_effect h
  exact (State.peek_congr hmem a).trans (pokes_peek_outside_ram ha)

theorem takeException_peek_outside_ram {vector : Word} {s t : State} {a : Word} (h : takeException vector s = .next t)
    (ha : s.kindAt a ≠ .ram) : t.peek a = s.peek a := by
  obtain ⟨cells, -, hmem, -, -⟩ := takeException_pokes h
  exact (State.peek_congr hmem a).trans (pokes_peek_outside_ram ha)

theorem interruptEntry_peek_outside_ram {n : Nat} {s t : State} {a : Word} (h : interruptEntry n s = .next t)
    (ha : s.kindAt a ≠ .ram) : t.peek a = s.peek a := by
  obtain ⟨u, hu, rfl⟩ := interruptEntry_eq_next.1 h
  have hkept : u.peek a = s.peek a := takeException_peek_outside_ram (s := { s with runState := .running }) hu ha
  exact hkept

/-- The reset event writes no memory (rule R370). -/
theorem enterReset_peek {s t : State} (a : Word) (h : enterReset s = .next t) : t.peek a = s.peek a := by
  obtain ⟨-, -, rfl⟩ := enterReset_eq_next.1 h
  rfl

/-- Settles O55, by the four things a step can be. -/
theorem onlyRamChanges : Obligations.OnlyRamChanges := by
  intro s t a h ha
  have hsample : s.sample.peek a = s.peek a := State.peek_congr (State.sample_mem s) a
  have ha' : s.sample.kindAt a ≠ .ram := by rwa [State.kindAt_congr (State.sample_cfg s)]
  rw [← hsample]
  rcases step_cases h with h | ⟨n, -, h⟩ | ⟨i, n, -, h⟩ | rfl
  · exact enterReset_peek a h
  · exact interruptEntry_peek_outside_ram h ha'
  · exact exec_peek_outside_ram (s := s.sample.begin n (instrCycles i)) h ha'
  · rfl

/-! ### Calls and returns -/

/-- The two bytes of a word give the word back (rule R7). -/
theorem joinBytes_hiByte_loByte (v : Word) : joinBytes (hiByte v) (loByte v) = v :=
  (BitVec.extractLsb'_append_extractLsb'_eq_extractLsb' rfl).trans BitVec.extractLsb'_eq_self

/-- BSR and JSR push the return address and set PC, nothing else (rules R285, R287). -/
theorem call_pushes {s t : State} (h : (∃ rr, exec (.bsr rr) s = .next t) ∨ ∃ e, exec (.jsr e) s = .next t) :
    t = { (s.poke s.sp (loByte s.pc)).poke (s.sp - 1) (hiByte s.pc) with sp := s.sp - 1 - 1, pc := t.pc } := by
  rcases h with ⟨_, h⟩ | ⟨_, h⟩ <;>
  · obtain ⟨u, hu, ⟨⟩⟩ := Res.bind_eq_next.1 h
    obtain ⟨-, -, rfl⟩ := pushReturn_eq_next.1 hu
    rfl

/-- A pull from RAM gives the byte of memory above SP. -/
theorem pull8_of_ram {s : State} (h : s.kindAt (s.sp + 1) = .ram) :
    pull8 s = .next (s.peek (s.sp + 1), { s with sp := s.sp + 1 }) :=
  pull8_eq_next.2 ⟨State.mapped_iff.2 (by rw [h]; nofun), by rw [State.data_of_ram h]⟩

/-- RTS with the return address in RAM: PC is the word above SP, high byte first (rules R53, R288). -/
theorem exec_rts_of_ram {s : State} (hhi : s.kindAt (s.sp + 1) = .ram) (hlo : s.kindAt (s.sp + 1 + 1) = .ram) :
    exec .rts s = .next { s with pc := joinBytes (s.peek (s.sp + 1)) (s.peek (s.sp + 1 + 1)), sp := s.sp + 1 + 1 } :=
  Res.bind_eq_next.2 ⟨_, pull8_of_ram hhi, Res.bind_eq_next.2 ⟨_, pull8_of_ram (s := { s with sp := s.sp + 1 }) hlo, rfl⟩⟩

/-- Settles O44: the call leaves the low byte of the return address at the old SP and the high byte below it, where RTS looks
for them. -/
theorem callThenReturn : Obligations.CallThenReturn := by
  intro s t u hw hram hram' hcall hsp hmem hcfg
  have hpushes := call_pushes hcall
  have hne : s.sp ≠ s.sp - 1 := by bv_omega
  have hup : s.sp - 1 - 1 + 1 = s.sp - 1 := BitVec.sub_add_cancel _ _
  have hup' : s.sp - 1 + 1 = s.sp := BitVec.sub_add_cancel _ _
  have hkind (a : Word) : u.kindAt a = s.kindAt a := State.kindAt_congr (by rw [hcfg, hpushes]; rfl) a
  have hpeek (a : Word) : u.peek a = ((s.poke s.sp (loByte s.pc)).poke (s.sp - 1) (hiByte s.pc)).peek a :=
    State.peek_congr (by rw [hmem, hpushes]) a
  have hsp' : u.sp = s.sp - 1 - 1 := by rw [hsp, hpushes]
  have hlo : u.peek s.sp = loByte s.pc := by
    rw [hpeek, State.peek_poke_of_ne _ _ hne, State.peek_poke_self _ hw hram]
  have hhi : u.peek (s.sp - 1) = hiByte s.pc := by
    rw [hpeek, State.peek_poke_self _ (State.wf_poke _ _ hw) (by simpa using hram')]
  rw [exec_rts_of_ram (by rwa [hkind, hsp', hup]) (by rwa [hkind, hsp', hup, hup']), hsp', hup, hup', hhi, hlo,
    joinBytes_hiByte_loByte]

end Sys2Proof.Proofs

/-!
PROOFS. The accesses of an instruction, an event and the fetch. `GoesThrough r s l` says that the outcome `r` stops exactly as
the first access of `l` that has no result does; every operation gets one lemma that names its accesses, and `bind` joins them.
The obligation O8 follows, and with the fetch's own lemmas O48.
-/

namespace Sys2Proof.Proofs

open Sys2Proof Sys2Proof.Machine Sys2Proof.Claims

/-! ### Outcomes and lists of accesses -/

/-- How an outcome stops, if it does. -/
def stopped {α : Type} : Res α → Option (Res State)
  | .next _ => none
  | .fault f => some (.fault f)
  | .refused r => some (.refused r)

/-- The outcome `r` stops exactly where the accesses `l`, made in this order in the memory map of `s`, first have no result. -/
def GoesThrough {α : Type} (r : Res α) (s : State) (l : List Access) : Prop := stopped r = l.findSome? (Access.stop s)

theorem stopped_eq_none {α : Type} {r : Res α} : stopped r = none ↔ ∃ v, r = .next v := by
  cases r <;> simp [stopped]

/-- What comes after a stop does not matter. -/
theorem bind_of_stopped {α : Type} {r : Res α} {o : Res State} (h : stopped r = some o) (k : α → Res State) :
    Res.bind r k = o := by
  cases r with
  | next v => cases h
  | fault _ | refused _ => exact Option.some.inj h

theorem eq_of_stopped {r o : Res State} (h : stopped r = some o) : r = o := by
  cases r with
  | next v => cases h
  | fault _ | refused _ => exact Option.some.inj h

/-- The statements' reading of a list of accesses. -/
theorem decidedBy_of_goesThrough {r : Res State} {s : State} {l : List Access} (h : GoesThrough r s l) : DecidedBy r s l :=
  ⟨fun _ ho => eq_of_stopped (h.trans ho), fun hn => stopped_eq_none.1 (h.trans hn)⟩

/-- Only the memory map decides where an access stops. -/
theorem goesThrough_congr {α : Type} {r : Res α} {s t : State} {l : List Access} (hc : t.cfg = s.cfg) :
    GoesThrough r t l ↔ GoesThrough r s l := by
  have hstop : Access.stop t = Access.stop s := by
    funext a
    cases a <;> simp [Access.stop, State.kindAt_congr hc]
  rw [GoesThrough, GoesThrough, hstop]

theorem goesThrough_next {α : Type} (v : α) (s : State) : GoesThrough (.next v : Res α) s [] := rfl

/-- One operation after another: the accesses of both, in their order. -/
theorem goesThrough_bind {α β : Type} {r : Res α} {k : α → Res β} {s : State} {l l' : List Access}
    (hr : GoesThrough r s l) (hk : ∀ v, r = .next v → GoesThrough (k v) s l') : GoesThrough (Res.bind r k) s (l ++ l') := by
  rw [GoesThrough, List.findSome?_append, ← hr]
  cases r with
  | next v => exact hk v rfl
  | fault f => rfl
  | refused f => rfl

/-- An operation and then something without an access. -/
theorem goesThrough_bind_next {α β : Type} {r : Res α} {f : α → β} {s : State} {l : List Access} (hr : GoesThrough r s l) :
    GoesThrough (Res.bind r fun v => .next (f v)) s l := by
  rw [← List.append_nil l]
  exact goesThrough_bind hr fun v _ => goesThrough_next (f v) s

/-! ### One byte and two bytes -/

theorem read8_goesThrough (s : State) (a : Word) : GoesThrough (read8 s a) s [.data a] := by
  rw [GoesThrough, List.findSome?_singleton, Access.stop, read8]
  cases s.kindAt a <;> rfl

theorem write8_goesThrough (s : State) (a : Word) (v : Byte) : GoesThrough (write8 s a v) s [.data a] := by
  rw [GoesThrough, List.findSome?_singleton, Access.stop, write8]
  cases s.kindAt a <;> rfl

theorem readCode_goesThrough (s : State) (a : Word) : GoesThrough (readCode s a) s [.code a] := by
  rw [GoesThrough, List.findSome?_singleton, Access.stop, readCode]
  cases s.kindAt a <;> rfl

/-- A store to the address just read cannot stop: a read-modify-write accesses one address (rule R59). -/
theorem write8_goesThrough_of_read8 {s : State} {a : Word} {v : Byte} (w : Byte) (h : read8 s a = .next v) :
    GoesThrough (write8 s a w) s [] := by
  rw [write8_of_mapped w (read8_eq_next.1 h).1]
  exact goesThrough_next _ s

theorem read16_goesThrough (s : State) (a : Word) : GoesThrough (read16 s a) s [.data a, .data (a + 1)] :=
  goesThrough_bind (read8_goesThrough s a) fun _ _ => goesThrough_bind_next (read8_goesThrough s (a + 1))

theorem readVector_goesThrough (s : State) (a : Word) : GoesThrough (readVector s a) s [.code a, .code (a + 1)] :=
  goesThrough_bind (readCode_goesThrough s a) fun _ _ => goesThrough_bind_next (readCode_goesThrough s (a + 1))

theorem write16_goesThrough (s : State) (a v : Word) : GoesThrough (write16 s a v) s [.data a, .data (a + 1)] := by
  refine goesThrough_bind (write8_goesThrough s a _) fun t ht => ?_
  obtain ⟨-, rfl⟩ := write8_eq_next.1 ht
  exact (goesThrough_congr rfl).1 (write8_goesThrough _ (a + 1) _)

theorem rmwMem_goesThrough (f : UnaryOp) (e : Ea) (s : State) : GoesThrough (rmwMem f e s) s [.data (effectiveAddress e s)] :=
  goesThrough_bind (read8_goesThrough s _) fun _ hv => goesThrough_bind_next (write8_goesThrough_of_read8 _ hv)

/-! ### The stack -/

theorem push8_goesThrough (v : Byte) (s : State) : GoesThrough (push8 v s) s [.data s.sp] :=
  goesThrough_bind_next (write8_goesThrough s s.sp v)

theorem pushBytes_goesThrough (vs : List Byte) (s : State) :
    GoesThrough (pushBytes vs s) s ((pushCells s.sp vs).map fun c => .data c.1) := by
  induction vs generalizing s with
  | nil => exact goesThrough_next s s
  | cons v vs ih =>
    refine goesThrough_bind (push8_goesThrough v s) fun t ht => ?_
    obtain ⟨-, rfl⟩ := push8_eq_next.1 ht
    exact (goesThrough_congr rfl).1 (ih { s.poke s.sp v with sp := s.sp - 1 })

theorem pushReturn_goesThrough (s : State) : GoesThrough (pushReturn s) s [.data s.sp, .data (s.sp - 1)] :=
  pushBytes_goesThrough _ s

/-- A pull and what follows it in the state that it leaves. -/
theorem goesThrough_bind_pull8 {α : Type} {s : State} {k : Byte × State → Res α} {l : List Access}
    (hk : ∀ v, GoesThrough (k (v, { s with sp := s.sp + 1 })) { s with sp := s.sp + 1 } l) :
    GoesThrough (Res.bind (pull8 s) k) s (.data (s.sp + 1) :: l) := by
  refine goesThrough_bind (l := [.data (s.sp + 1)]) (goesThrough_bind_next (read8_goesThrough s (s.sp + 1))) fun p hp => ?_
  obtain ⟨-, rfl⟩ := pull8_eq_next.1 hp
  exact (goesThrough_congr rfl).1 (hk (s.data (s.sp + 1)))

theorem execRts_goesThrough (s : State) : GoesThrough (execRts s) s [.data (s.sp + 1), .data (s.sp + 2)] := by
  have h2 : s.sp + 1 + 1 = s.sp + 2 := BitVec.add_assoc _ 1 1
  rw [← h2]
  exact goesThrough_bind_pull8 fun _ => goesThrough_bind_pull8 fun _ => goesThrough_next _ _

theorem returnFromException_goesThrough (s : State) :
    GoesThrough (returnFromException s) s
      [.data (s.sp + 1), .data (s.sp + 2), .data (s.sp + 3), .data (s.sp + 4), .data (s.sp + 5)] := by
  have h2 : s.sp + 1 + 1 = s.sp + 2 := BitVec.add_assoc _ 1 1
  have h3 : s.sp + 2 + 1 = s.sp + 3 := BitVec.add_assoc _ 2 1
  have h4 : s.sp + 3 + 1 = s.sp + 4 := BitVec.add_assoc _ 3 1
  have h5 : s.sp + 4 + 1 = s.sp + 5 := BitVec.add_assoc _ 4 1
  rw [← h5, ← h4, ← h3, ← h2]
  exact goesThrough_bind_pull8 fun _ => goesThrough_bind_pull8 fun _ => goesThrough_bind_pull8 fun _ =>
    goesThrough_bind_pull8 fun _ => goesThrough_bind_pull8 fun _ => goesThrough_next _ _

/-! ### Exceptions and reset -/

theorem takeException_goesThrough (vector : Word) (s : State) : GoesThrough (takeException vector s) s (entryAccesses s vector) := by
  have h2 : s.sp - 1 - 1 = s.sp - 2 := BitVec.sub_sub _ 1 1
  have h3 : s.sp - 2 - 1 = s.sp - 3 := BitVec.sub_sub _ 2 1
  have h4 : s.sp - 3 - 1 = s.sp - 4 := BitVec.sub_sub _ 3 1
  rw [entryAccesses, ← h4, ← h3, ← h2]
  refine goesThrough_bind (pushBytes_goesThrough _ s) fun t ht => ?_
  have hcfg : t.cfg = s.cfg := by rw [(pushBytes_frame ht).1]
  exact goesThrough_bind_next ((goesThrough_congr hcfg).1 (readVector_goesThrough t vector))

theorem interruptEntry_goesThrough (n : Nat) (s : State) :
    GoesThrough (interruptEntry n s) s (entryAccesses s (requestVector n)) :=
  goesThrough_bind_next ((goesThrough_congr rfl).1 (takeException_goesThrough (requestVector n) { s with runState := .running }))

theorem enterReset_goesThrough (s : State) : GoesThrough (enterReset s) s [.code 0xFFFE, .code 0xFFFF] :=
  goesThrough_bind_next ((goesThrough_congr rfl).1 (readVector_goesThrough s.resetRegisters resetVector))

/-- The vector of request n as a number (rule R331). -/
theorem requestVector_toNat {n : Nat} (h : n < 126) : (requestVector n).toNat = 0xFFFA - 2 * n := by
  rw [requestVector]
  bv_omega

/-! ### Instructions -/

/-- Every instruction makes the accesses listed for it, after its own bytes (rules R56, R58). -/
theorem exec_goesThrough (i : Instr) (s : State) : GoesThrough (exec i s) s (accesses i s) := by
  cases i with
  | lda o | ldx o | adc o | add o | sub o | sbc o | cmp o | cpx o | and o | ora o | eor o | bit o =>
    cases o with
    | imm _ => exact goesThrough_next _ s
    | mem _ => exact goesThrough_bind_next (read8_goesThrough s _)
  | ldhx o | cphx o =>
    cases o with
    | imm _ => exact goesThrough_next _ s
    | dir _ => exact goesThrough_bind_next (read16_goesThrough s _)
  | tst _ | cbeq _ _ | brset _ _ _ | brclr _ _ _ => exact goesThrough_bind_next (read8_goesThrough s _)
  | sta _ | stx _ | clr _ => exact goesThrough_bind_next (write8_goesThrough s _ _)
  | inc e | dec e | neg e | com e | lsl e | asl e | asr e | lsr e | rol e | ror e => exact rmwMem_goesThrough _ e s
  | bset _ _ | bclr _ _ => exact goesThrough_bind (read8_goesThrough s _) fun _ hv => write8_goesThrough_of_read8 _ hv
  | dbnz _ _ =>
    exact goesThrough_bind (read8_goesThrough s _) fun _ hv => goesThrough_bind_next (write8_goesThrough_of_read8 _ hv)
  | sthx _ => exact goesThrough_bind_next (write16_goesThrough s _ _)
  | mov o =>
    cases o with
    | imd _ _ => exact goesThrough_bind_next (write8_goesThrough s _ _)
    | dd _ _ | dixPlus _ | ixPlusD _ =>
      exact goesThrough_bind (read8_goesThrough s _) fun _ _ => goesThrough_bind_next (write8_goesThrough s _ _)
  | psha | pshh | pshx => exact push8_goesThrough _ s
  | pula | pulh | pulx => exact goesThrough_bind_pull8 fun _ => goesThrough_next _ _
  | rts => exact execRts_goesThrough s
  | rti => exact returnFromException_goesThrough s
  | bsr _ | jsr _ => exact goesThrough_bind_next (pushReturn_goesThrough s)
  | swi => exact takeException_goesThrough _ s
  | div =>
    rw [exec, execDiv]
    split <;> exact goesThrough_next _ s
  | daa =>
    rw [exec, execDaa]
    split <;> exact goesThrough_next _ s
  | clra | clrx | clrh | tax | txa | tap | tpa | tsx | txs | rsp | ais _ | aix _ | inca | incx | deca | decx | nega | negx | tsta
  | tstx | mul | coma | comx | nsa | lsla | lslx | asla | aslx | asra | asrx | lsra | lsrx | rola | rolx | rora | rorx | clc | sec
  | bra _ | brn _ | bhi _ | bls _ | bcc _ | bhs _ | bcs _ | blo _ | bne _ | beq _ | bhcc _ | bhcs _ | bpl _ | bmi _ | bmc _
  | bms _ | bil _ | bih _ | bge _ | blt _ | bgt _ | ble _ | cbeqa _ _ | cbeqx _ _ | dbnza _ | dbnzx _ | jmp _ | nop | sei
  | cli | wait | stop => exact goesThrough_next _ s

/-! ### The fetch -/

/-- The accesses of `n` bytes of code from `a` upward. -/
def codeFrom : Word → Nat → List Access
  | _, 0 => []
  | a, n + 1 => .code a :: codeFrom (a + 1) n

theorem add_one_add_ofNat (a : Word) (k : Nat) : a + 1 + BitVec.ofNat 16 k = a + BitVec.ofNat 16 (k + 1) := by
  rw [BitVec.ofNat_add, BitVec.add_assoc, BitVec.add_comm 1]
  rfl

/-- An access of code has a result exactly in RAM and ROM. -/
theorem stop_code_eq_none {s : State} {a : Word} : Access.stop s (.code a) = none ↔ s.holdsCode a = true := by
  rw [State.holdsCode_iff, Access.stop]
  cases s.kindAt a <;> simp

/-- Where the bytes before the k-th are RAM or ROM, the k-th decides. -/
theorem findSome?_codeFrom_of_stop {s : State} {o : Res State} {n k : Nat} {a : Word} (hk : k < n)
    (hbefore : ∀ j < k, s.holdsCode (a + BitVec.ofNat 16 j) = true)
    (ho : Access.stop s (.code (a + BitVec.ofNat 16 k)) = some o) : (codeFrom a n).findSome? (Access.stop s) = some o := by
  induction n generalizing a k with
  | zero => exact absurd hk (Nat.not_lt_zero k)
  | succ n ih =>
    rw [codeFrom, List.findSome?_cons]
    cases k with
    | zero =>
      rw [BitVec.add_zero] at ho
      rw [ho]
    | succ k =>
      have hfirst : Access.stop s (.code a) = none := stop_code_eq_none.2 (by simpa using hbefore 0 (Nat.succ_pos k))
      rw [hfirst]
      refine ih (Nat.lt_of_succ_lt_succ hk) (fun j hj => ?_) (by rwa [add_one_add_ofNat])
      rw [add_one_add_ofNat]
      exact hbefore (j + 1) (Nat.succ_lt_succ hj)

/-- Where all bytes are RAM or ROM, no access stops. -/
theorem findSome?_codeFrom_eq_none {s : State} {n : Nat} {a : Word}
    (h : ∀ j < n, s.holdsCode (a + BitVec.ofNat 16 j) = true) : (codeFrom a n).findSome? (Access.stop s) = none := by
  induction n generalizing a with
  | zero => rfl
  | succ n ih =>
    have hfirst : Access.stop s (.code a) = none := stop_code_eq_none.2 (by simpa using h 0 (Nat.succ_pos n))
    rw [codeFrom, List.findSome?_cons, hfirst]
    refine ih fun j hj => ?_
    rw [add_one_add_ofNat]
    exact h (j + 1) (Nat.succ_lt_succ hj)

/-- The operand bytes are fetched from `a` upward. -/
theorem fetchOperands_goesThrough (s : State) (a : Word) (c : Option OpCell) :
    GoesThrough (fetchOperands s a (operandsOf c)) s (codeFrom a (operandsOf c)) := by
  cases c with
  | none => exact goesThrough_next _ s
  | some c =>
    cases c with
    | op0 _ => exact goesThrough_next _ s
    | op1 _ => exact goesThrough_bind_next (readCode_goesThrough s a)
    | op2 _ =>
      exact goesThrough_bind (readCode_goesThrough s a) fun _ _ => goesThrough_bind_next (readCode_goesThrough s (a + 1))

/-- A cell sees the operand bytes fetched for it as the bytes of memory. -/
theorem instr_of_fetchOperands {s : State} {a : Word} {c : OpCell} {p q : Byte}
    (h : fetchOperands s a c.operands = .next (p, q)) : c.instr p q = c.instr (s.peek a) (s.peek (a + 1)) := by
  cases c with
  | op0 i => rfl
  | op1 f =>
    obtain ⟨v, hv, ⟨⟩⟩ := Res.bind_eq_next.1 h
    rw [OpCell.instr, OpCell.instr, (readCode_eq_next.1 hv).2]
  | op2 f =>
    obtain ⟨v, hv, h⟩ := Res.bind_eq_next.1 h
    obtain ⟨w, hw, ⟨⟩⟩ := Res.bind_eq_next.1 h
    rw [(readCode_eq_next.1 hv).2, (readCode_eq_next.1 hw).2]

/-- How many bytes the instruction at PC has, from the cell of its opcode (rules R81, R93). -/
theorem lengthAtPc_eq (s : State) :
    lengthAtPc s = if s.peek s.pc = preByte then operandsOf (page2 (s.peek (s.pc + 1))) + 2
      else operandsOf (page1 (s.peek s.pc)) + 1 := by
  by_cases hpre : s.peek s.pc = preByte
  · rw [lengthAtPc, decodedAtPc, decode, if_pos hpre, if_pos hpre]
    cases page2 (s.peek (s.pc + 1)) with
    | some c => exact Nat.add_comm 2 c.operands
    | none => exact if_pos hpre
  · rw [lengthAtPc, decodedAtPc, decode, if_neg hpre, if_neg hpre]
    cases page1 (s.peek s.pc) with
    | some c => exact Nat.add_comm 1 c.operands
    | none => exact if_neg hpre

/-- The fetch reads the instruction's own bytes, from PC upward, and no other (rules R81, R98). -/
theorem fetch_goesThrough (s : State) : GoesThrough (fetch s) s (codeFrom s.pc (lengthAtPc s)) := by
  have h2 : s.pc + 1 + 1 = s.pc + 2 := BitVec.add_assoc _ 1 1
  rw [lengthAtPc_eq]
  by_cases hpre : s.peek s.pc = preByte
  · rw [if_pos hpre]
    refine goesThrough_bind (readCode_goesThrough s s.pc) fun b0 hb0 => ?_
    obtain ⟨-, rfl⟩ := readCode_eq_next.1 hb0
    rw [if_pos hpre]
    refine goesThrough_bind (readCode_goesThrough s (s.pc + 1)) fun b1 hb1 => ?_
    obtain ⟨-, rfl⟩ := readCode_eq_next.1 hb1
    rw [h2]
    exact goesThrough_bind_next (fetchOperands_goesThrough s (s.pc + 2) _)
  · rw [if_neg hpre]
    refine goesThrough_bind (readCode_goesThrough s s.pc) fun b0 hb0 => ?_
    obtain ⟨-, rfl⟩ := readCode_eq_next.1 hb0
    rw [if_neg hpre]
    exact goesThrough_bind_next (fetchOperands_goesThrough s (s.pc + 1) _)

/-- What is fetched is what the four bytes from PC upward decode to: the bytes after the instruction's own do not matter. -/
theorem eq_decodedAtPc_of_fetch {s : State} {d : Decoded} (h : fetch s = .next d) : d = decodedAtPc s := by
  have h2 : s.pc + 1 + 1 = s.pc + 2 := BitVec.add_assoc _ 1 1
  have h3 : s.pc + 2 + 1 = s.pc + 3 := BitVec.add_assoc _ 2 1
  rw [decodedAtPc, ← h3, ← h2]
  obtain ⟨b0, hb0, h⟩ := Res.bind_eq_next.1 h
  obtain ⟨-, rfl⟩ := readCode_eq_next.1 hb0
  by_cases hpre : s.peek s.pc = preByte
  · rw [if_pos hpre, ← h2] at h
    obtain ⟨b1, hb1, h⟩ := Res.bind_eq_next.1 h
    obtain ⟨-, rfl⟩ := readCode_eq_next.1 hb1
    obtain ⟨⟨p, q⟩, hpq, ⟨⟩⟩ := Res.bind_eq_next.1 h
    rw [decode, decode, if_pos hpre, if_pos hpre]
    cases hcell : page2 (s.peek (s.pc + 1)) with
    | some c =>
      rw [hcell] at hpq
      simp only [instr_of_fetchOperands hpq]
    | none => rfl
  · rw [if_neg hpre] at h
    obtain ⟨⟨p, q⟩, hpq, ⟨⟩⟩ := Res.bind_eq_next.1 h
    rw [decode, decode, if_neg hpre, if_neg hpre]
    cases hcell : page1 (s.peek s.pc) with
    | some c =>
      rw [hcell] at hpq
      simp only [instr_of_fetchOperands hpq]
    | none => rfl

/-- Where the instruction's bytes are RAM or ROM, the fetch answers it. -/
theorem fetch_of_fetchable {s : State} (h : Fetchable s (lengthAtPc s)) : fetch s = .next (decodedAtPc s) := by
  obtain ⟨d, hd⟩ := stopped_eq_none.1 ((fetch_goesThrough s).trans (findSome?_codeFrom_eq_none h))
  rw [hd, eq_decodedAtPc_of_fetch hd]

/-! ### A boundary that reaches an instruction -/

theorem step_of_reachesInstruction {s : State} (h : ReachesInstruction s.sample) : step s = runInstruction s.sample := by
  obtain ⟨hreset, htaken, hrun⟩ := h
  rw [step_eq, atBoundary, hreset, htaken, hrun]
  rfl

/-- A byte of the instruction that cannot be fetched, the ones before it being fetched, stops the step. -/
theorem runInstruction_of_stop {s : State} {k : Nat} {o : Res State} (hk : k < lengthAtPc s) (hbefore : Fetchable s k)
    (ho : Access.stop s (.code (s.pc + BitVec.ofNat 16 k)) = some o) : runInstruction s = o :=
  bind_of_stopped ((fetch_goesThrough s).trans (findSome?_codeFrom_of_stop hk hbefore ho)) _

/-- Settles O8: instructions, entries, the reset event and the fetch go through their accesses in order. -/
theorem accessesOutsideMemoryStop : Obligations.AccessesOutsideMemoryStop := by
  refine ⟨fun i s => decidedBy_of_goesThrough (exec_goesThrough i s), fun n vector s hn hvector => ?_,
    fun s => decidedBy_of_goesThrough (enterReset_goesThrough s), ?_⟩
  · have hv : vector = requestVector n := BitVec.eq_of_toNat_eq (hvector.trans (requestVector_toNat hn).symm)
    rw [hv]
    exact decidedBy_of_goesThrough (interruptEntry_goesThrough n s)
  · rintro s u k o rfl hreach hk hbefore ho
    rw [step_of_reachesInstruction hreach]
    exact runInstruction_of_stop hk hbefore ho

/-! ### A store into the next instruction -/

/-- How many bytes were fetched for what the decoder answers (rule R81). -/
def encodedLength : Decoded → Nat
  | .ok _ n => n
  | .unassigned op => unassignedLength op

theorem hiByte_joinBytes (hi lo : Byte) : hiByte (joinBytes hi lo) = hi := BitVec.extractLsb'_append_eq_left

theorem hiByte_setWidth (b : Byte) : hiByte (b.setWidth 16) = 0 := by
  ext k hk
  simp [hiByte]

/-- An unassigned encoding has two bytes after the pre-byte, else one (rule R81). -/
theorem unassignedLength_of_decode {b0 b1 b2 b3 : Byte} {op : Word} (h : decode b0 b1 b2 b3 = .unassigned op) :
    unassignedLength op = if b0 = preByte then 2 else 1 := by
  by_cases hpre : b0 = preByte
  · rw [decode, if_pos hpre] at h
    rw [if_pos hpre]
    cases hcell : page2 b1 with
    | some c => simp [hcell] at h
    | none =>
      obtain rfl : joinBytes preByte b1 = op := by simpa [hcell] using h
      exact if_pos (hiByte_joinBytes preByte b1)
  · rw [decode, if_neg hpre] at h
    rw [if_neg hpre]
    cases hcell : page1 b0 with
    | some c => simp [hcell] at h
    | none =>
      obtain rfl : b0.setWidth 16 = op := by simpa [hcell] using h
      rw [unassignedLength, hiByte_setWidth]
      rfl

theorem lengthAtPc_eq_encodedLength (s : State) : lengthAtPc s = encodedLength (decodedAtPc s) := by
  rw [lengthAtPc]
  cases hd : decodedAtPc s with
  | ok i n => rfl
  | unassigned op => exact (unassignedLength_of_decode hd).symm

/-- An instruction or an unassigned encoding with a byte that the instruction before stored is refused (rules R63, R380). -/
theorem runInstruction_of_storedInto {s : State} {d : Decoded} (hd : fetch s = .next d)
    (hs : s.storedInto (encodedLength d) = true) : runInstruction s = .refused (.storeIntoNextInstruction s.pc) := by
  rw [runInstruction, hd, Res.bind_next]
  cases d with
  | ok i n => exact if_pos hs
  | unassigned op => exact if_pos hs

theorem storedInto_of_mem {s : State} {n k : Nat} (hk : k < n) (hs : s.pc + BitVec.ofNat 16 k ∈ s.stored) :
    s.storedInto n = true :=
  List.any_eq_true.2 ⟨k, List.mem_range.2 hk, List.contains_iff_mem.2 hs⟩

/-- A step at an instruction with a byte in `stored` is refused. -/
theorem step_of_storedInto {s : State} {k : Nat} (hreach : ReachesInstruction s.sample)
    (hfetch : Fetchable s.sample (lengthAtPc s.sample)) (hk : k < lengthAtPc s.sample)
    (hs : s.sample.pc + BitVec.ofNat 16 k ∈ s.sample.stored) :
    step s = .refused (.storeIntoNextInstruction s.sample.pc) := by
  rw [step_of_reachesInstruction hreach]
  refine runInstruction_of_storedInto (fetch_of_fetchable hfetch) (storedInto_of_mem ?_ hs)
  rwa [← lengthAtPc_eq_encodedLength]

/-- A step that runs a decoded instruction and goes on is its meaning from `State.begin`. -/
theorem exec_of_step {s t : State} {i : Instr} {n : Nat} (hreach : ReachesInstruction s.sample)
    (hd : decodedAtPc s.sample = .ok i n) (h : step s = .next t) : exec i (s.sample.begin n (instrCycles i)) = .next t := by
  rw [step_of_reachesInstruction hreach] at h
  rcases runInstruction_eq_next.1 h with ⟨j, m, hf, -, h⟩ | ⟨op, hf, -, -, -⟩
  · cases hd.symm.trans (eq_decodedAtPc_of_fetch hf).symm
    exact h
  · cases hd.symm.trans (eq_decodedAtPc_of_fetch hf).symm

/-- After a step that ran an instruction, `stored` has every RAM address that it stored to. -/
theorem mem_stored_of_step {s t : State} {i : Instr} {n : Nat} {a : Word} (hreach : ReachesInstruction s.sample)
    (hd : decodedAtPc s.sample = .ok i n) (h : step s = .next t) (ha : a ∈ storeAddresses i s.sample)
    (hram : s.sample.kindAt a = .ram) : a ∈ t.stored := by
  obtain ⟨-, hstored, -⟩ := memoryChangesOnlyWhereStored i _ t (exec_of_step hreach hd h)
  rw [hstored, List.mem_append, ramStores, List.mem_reverse, List.mem_filter]
  exact .inl ⟨ha, beq_iff_eq.2 hram⟩

/-- Settles O48: the byte is in `stored`, where the instruction before put it, and an interrupt entry keeps the list. -/
theorem storeIntoNextInstructionIsRefused : Obligations.StoreIntoNextInstructionIsRefused := by
  refine ⟨?_, ?_, fun n s t h => by rw [interruptEntry_frame h]⟩
  · rintro s u k rfl hreach hfetch hk hs
    exact step_of_storedInto hreach hfetch hk hs
  · rintro s u t v i n k rfl hreach hd h rfl hreach' hfetch hk ha hram
    refine step_of_storedInto hreach' hfetch hk ?_
    obtain ⟨-, -, hcfg⟩ := step_sameEnvironment h
    rw [State.kindAt_congr ((State.sample_cfg t).trans hcfg)] at hram
    rw [State.sample_stored]
    exact mem_stored_of_step hreach hd h ha hram

end Sys2Proof.Proofs

/-!
PROOFS. Decode after encode. `DecodesTo bs i` says that the bytes `bs`, whatever follows them, decode to `i`: it holds of an
opcode and its operand bytes wherever the map has the cell, so each mnemonic needs only its cells, or its row where the map has
it in several forms. The obligation O1 follows, and O5 and O6 from it.
-/

namespace Sys2Proof.Proofs

open Sys2Proof Sys2Proof.Machine Sys2Proof.Claims

/-! ### The decoder -/

theorem page1_preByte : page1 preByte = none := rfl

/-- The decoder answers an instruction exactly where the page that the first byte selects has a cell (rules R81, R84). -/
theorem decode_eq_ok {b0 b1 b2 b3 : Byte} {i : Instr} {n : Nat} :
    decode b0 b1 b2 b3 = .ok i n ↔
      (b0 = preByte ∧ ∃ c, page2 b1 = some c ∧ i = c.instr b2 b3 ∧ n = 2 + c.operands) ∨
        ∃ c, page1 b0 = some c ∧ i = c.instr b1 b2 ∧ n = 1 + c.operands := by
  by_cases hpre : b0 = preByte
  · subst hpre
    rw [decode, if_pos rfl, page1_preByte]
    cases page2 b1 <;> simp [eq_comm]
  · rw [decode, if_neg hpre]
    cases page1 b0 <;> simp [hpre, eq_comm]

/-- The decoder answers an unassigned encoding, by its name, exactly where that page has no cell (rules R81, R84). -/
theorem decode_eq_unassigned {b0 b1 b2 b3 : Byte} {op : Word} :
    decode b0 b1 b2 b3 = .unassigned op ↔
      (b0 = preByte ∧ page2 b1 = none ∧ op = joinBytes preByte b1) ∨
        (b0 ≠ preByte ∧ page1 b0 = none ∧ op = b0.setWidth 16) := by
  by_cases hpre : b0 = preByte
  · rw [decode, if_pos hpre]
    cases page2 b1 <;> simp [hpre, eq_comm]
  · rw [decode, if_neg hpre]
    cases page1 b0 <;> simp [hpre, eq_comm]

/-! ### Bytes that decode to an instruction, whatever follows them -/

/-- The bytes `bs`, whatever follows them, decode to `i` and its length. -/
def DecodesTo (bs : List Byte) (i : Instr) : Prop := ∀ rest, decodeBytes (bs ++ rest) = .ok i bs.length

theorem decodesTo_op0 {op : Byte} {i : Instr} (h : page1 op = some (.op0 i)) : DecodesTo [op] i :=
  fun _ => decode_eq_ok.2 (.inr ⟨_, h, rfl, rfl⟩)

theorem decodesTo_op1 {op : Byte} {f : Byte → Instr} (h : page1 op = some (.op1 f)) (p : Byte) : DecodesTo [op, p] (f p) :=
  fun _ => decode_eq_ok.2 (.inr ⟨_, h, rfl, rfl⟩)

theorem decodesTo_op2 {op : Byte} {f : Byte → Byte → Instr} (h : page1 op = some (.op2 f)) (p q : Byte) :
    DecodesTo [op, p, q] (f p q) :=
  fun _ => decode_eq_ok.2 (.inr ⟨_, h, rfl, rfl⟩)

theorem decodesTo_pre_op1 {op : Byte} {f : Byte → Instr} (h : page2 op = some (.op1 f)) (p : Byte) :
    DecodesTo [preByte, op, p] (f p) :=
  fun _ => decode_eq_ok.2 (.inl ⟨rfl, _, h, rfl, rfl⟩)

theorem decodesTo_pre_op2 {op : Byte} {f : Byte → Byte → Instr} (h : page2 op = some (.op2 f)) (p q : Byte) :
    DecodesTo [preByte, op, p, q] (f p q) :=
  fun _ => decode_eq_ok.2 (.inl ⟨rfl, _, h, rfl, rfl⟩)

/-- The two operand bytes of a cell that joins them are the halves of the word (rules R50, R83). -/
theorem decodesTo_word {op : Byte} {k : Word → Instr} (h : page1 op = some (.op2 fun hi lo => k (joinBytes hi lo))) (v : Word) :
    DecodesTo [op, hiByte v, loByte v] (k v) := by
  simpa only [joinBytes_hiByte_loByte] using decodesTo_op2 h (hiByte v) (loByte v)

theorem decodesTo_pre_word {op : Byte} {k : Word → Instr} (h : page2 op = some (.op2 fun hi lo => k (joinBytes hi lo)))
    (v : Word) : DecodesTo [preByte, op, hiByte v, loByte v] (k v) := by
  simpa only [joinBytes_hiByte_loByte] using decodesTo_pre_op2 h (hiByte v) (loByte v)

/-! ### The rows of the map that hold one mnemonic in several forms -/

/-- Row `low` of columns $B_ to $F_ is the mnemonic `k` in the forms of a jump (rules R83, R85). -/
structure JumpRow (low : Byte) (k : Ea → Instr) : Prop where
  dir : page1 (0xB0 + low) = some (dirCell k)
  ext : page1 (0xC0 + low) = some (extCell k)
  ix2 : page1 (0xD0 + low) = some (ix2Cell k)
  ix1 : page1 (0xE0 + low) = some (ix1Cell k)
  ix : page1 (0xF0 + low) = some (ixCell k)

/-- Row `low` of columns $B_ to $F_, 9E D_ and 9E E_ is the mnemonic `k` of the general group (rules R83, R85). -/
structure GeneralRow (low : Byte) (k : Ea → Instr) : Prop extends JumpRow low k where
  sp2 : page2 (0xD0 + low) = some (sp2Cell k)
  sp1 : page2 (0xE0 + low) = some (sp1Cell k)

/-- Row `low` of columns $3_, $6_, $7_ and 9E 6_ is the mnemonic `k` of the read-modify-write group (rules R83, R85). -/
structure RmwRow (low : Byte) (k : Ea → Instr) : Prop where
  dir : page1 (0x30 + low) = some (dirCell k)
  ix1 : page1 (0x60 + low) = some (ix1Cell k)
  ix : page1 (0x70 + low) = some (ixCell k)
  sp1 : page2 (0x60 + low) = some (sp1Cell k)

/-- The opcode of column `col` and row `low` finds the cell in that column and row (rule R85). -/
theorem lookupCell_add (columns : List (List (Option OpCell))) {col low : Nat} (hcol : col < 16) (hlow : low < 16) :
    lookupCell columns (BitVec.ofNat 8 (16 * col) + BitVec.ofNat 8 low) = (columns.getD col []).getD low none := by
  have hsum : (BitVec.ofNat 8 (16 * col) + BitVec.ofNat 8 low).toNat = 16 * col + low := by
    simp only [BitVec.toNat_add, BitVec.toNat_ofNat]
    omega
  rw [lookupCell, hsum, Nat.mul_add_div (by decide), Nat.div_eq_of_lt hlow, Nat.mul_add_mod, Nat.mod_eq_of_lt hlow]
  rfl

/-- What `generalColumn` puts in a row in every mode is in that row of its seven columns. -/
theorem generalRow {low : Nat} {k : Ea → Instr} (hlow : low < 16)
    (h : ∀ g j, (generalColumn g j).getD low none = some (g k)) : GeneralRow (BitVec.ofNat 8 low) k where
  dir := (lookupCell_add page1Columns (col := 0xB) (by decide) hlow).trans (h dirCell fun k => some (dirCell k))
  ext := (lookupCell_add page1Columns (col := 0xC) (by decide) hlow).trans (h extCell fun k => some (extCell k))
  ix2 := (lookupCell_add page1Columns (col := 0xD) (by decide) hlow).trans (h ix2Cell fun k => some (ix2Cell k))
  ix1 := (lookupCell_add page1Columns (col := 0xE) (by decide) hlow).trans (h ix1Cell fun k => some (ix1Cell k))
  ix := (lookupCell_add page1Columns (col := 0xF) (by decide) hlow).trans (h ixCell fun k => some (ixCell k))
  sp2 := (lookupCell_add page2Columns (col := 0xD) (by decide) hlow).trans (h sp2Cell fun _ => none)
  sp1 := (lookupCell_add page2Columns (col := 0xE) (by decide) hlow).trans (h sp1Cell fun _ => none)

theorem decodesTo_encodeJump {low : Byte} {k : Ea → Instr} (h : JumpRow low k) {e : Ea} (he : e.isJumpForm = true) :
    DecodesTo (encodeJump low e) (k e) := by
  cases e with
  | dir dd => exact decodesTo_op1 h.dir dd
  | ext a => exact decodesTo_word (k := fun v => k (.ext v)) h.ext a
  | ix2 a => exact decodesTo_word (k := fun v => k (.ix2 v)) h.ix2 a
  | ix1 ff => exact decodesTo_op1 h.ix1 ff
  | ix => exact decodesTo_op0 h.ix
  | sp2 | sp1 => cases he

theorem decodesTo_encodeEa {low : Byte} {k : Ea → Instr} (h : GeneralRow low k) (e : Ea) :
    DecodesTo (encodeEa low e) (k e) := by
  cases e with
  | sp2 a => exact decodesTo_pre_word (k := fun v => k (.sp2 v)) h.sp2 a
  | sp1 ff => exact decodesTo_pre_op1 h.sp1 ff
  | dir dd => exact decodesTo_encodeJump (e := .dir dd) h.toJumpRow rfl
  | ext a => exact decodesTo_encodeJump (e := .ext a) h.toJumpRow rfl
  | ix2 a => exact decodesTo_encodeJump (e := .ix2 a) h.toJumpRow rfl
  | ix1 ff => exact decodesTo_encodeJump (e := .ix1 ff) h.toJumpRow rfl
  | ix => exact decodesTo_encodeJump (e := .ix) h.toJumpRow rfl

theorem decodesTo_encodeOpnd8 {low : Byte} {k : Opnd8 → Instr} (himm : page1 (0xA0 + low) = some (immCell k))
    (h : GeneralRow low fun e => k (.mem e)) (o : Opnd8) : DecodesTo (encodeOpnd8 low o) (k o) := by
  cases o with
  | imm ii => exact decodesTo_op1 himm ii
  | mem e => exact decodesTo_encodeEa h e

theorem decodesTo_encodeRmw {low : Byte} {k : Ea → Instr} (h : RmwRow low k) {e : Ea} (he : e.isRmwForm = true) :
    DecodesTo (encodeRmw low e) (k e) := by
  cases e with
  | dir dd => exact decodesTo_op1 h.dir dd
  | ix1 ff => exact decodesTo_op1 h.ix1 ff
  | ix => exact decodesTo_op0 h.ix
  | sp1 ff => exact decodesTo_pre_op1 h.sp1 ff
  | ext | ix2 | sp2 => cases he

theorem decodesTo_encodeDbnz {e : Ea} (rr : Byte) (he : e.isRmwForm = true) : DecodesTo (encodeDbnz rr e) (.dbnz e rr) := by
  cases e with
  | dir dd => exact decodesTo_op2 (op := 0x3B) rfl dd rr
  | ix1 ff => exact decodesTo_op2 (op := 0x6B) rfl ff rr
  | ix => exact decodesTo_op1 (op := 0x7B) rfl rr
  | sp1 ff => exact decodesTo_pre_op2 (op := 0x6B) rfl ff rr
  | ext | ix2 | sp2 => cases he

theorem decodesTo_encodeCbeq (o : CbeqOpnd) (rr : Byte) : DecodesTo (encodeCbeq rr o) (.cbeq o rr) := by
  cases o with
  | dir dd => exact decodesTo_op2 (op := 0x31) rfl dd rr
  | ix1Plus ff => exact decodesTo_op2 (op := 0x61) rfl ff rr
  | ixPlus => exact decodesTo_op1 (op := 0x71) rfl rr
  | sp1 ff => exact decodesTo_pre_op2 (op := 0x61) rfl ff rr

theorem decodesTo_encodeMov (o : MovOpnd) : DecodesTo (encodeMov o) (.mov o) := by
  cases o with
  | dd src dst => exact decodesTo_op2 (op := 0x4E) rfl src dst
  | dixPlus src => exact decodesTo_op1 (op := 0x5E) rfl src
  | imd ii dst => exact decodesTo_op2 (op := 0x6E) rfl ii dst
  | ixPlusD dst => exact decodesTo_op1 (op := 0x7E) rfl dst

/-- The rows of the bit instructions (rule R86). -/
theorem page1_bitOpcode (n : BitVec 3) :
    page1 (bitOpcode 0x00 n) = some (.op2 (.brset n)) ∧ page1 (bitOpcode 0x01 n) = some (.op2 (.brclr n)) ∧
      page1 (bitOpcode 0x10 n) = some (.op1 (.bset n)) ∧ page1 (bitOpcode 0x11 n) = some (.op1 (.bclr n)) := by
  have hn : n ∈ bitNumbers := by revert n; decide
  simp only [bitNumbers, List.mem_cons, List.not_mem_nil, or_false] at hn
  rcases hn with rfl | rfl | rfl | rfl | rfl | rfl | rfl | rfl <;> exact ⟨rfl, rfl, rfl, rfl⟩

/-- Settles O1: the cell at an instruction's opcode gives it back from its operand bytes. -/
theorem decodeInvertsEncode : Obligations.DecodeInvertsEncode := by
  unfold Obligations.DecodeInvertsEncode
  intro i rest hw
  revert rest
  change DecodesTo (encode i) i.canonical
  cases i with
  | lda o => exact decodesTo_encodeOpnd8 rfl (generalRow (low := 0x6) (by decide) fun _ _ => rfl) o
  | ldx o => exact decodesTo_encodeOpnd8 rfl (generalRow (low := 0xE) (by decide) fun _ _ => rfl) o
  | adc o => exact decodesTo_encodeOpnd8 rfl (generalRow (low := 0x9) (by decide) fun _ _ => rfl) o
  | add o => exact decodesTo_encodeOpnd8 rfl (generalRow (low := 0xB) (by decide) fun _ _ => rfl) o
  | sub o => exact decodesTo_encodeOpnd8 rfl (generalRow (low := 0x0) (by decide) fun _ _ => rfl) o
  | sbc o => exact decodesTo_encodeOpnd8 rfl (generalRow (low := 0x2) (by decide) fun _ _ => rfl) o
  | cmp o => exact decodesTo_encodeOpnd8 rfl (generalRow (low := 0x1) (by decide) fun _ _ => rfl) o
  | cpx o => exact decodesTo_encodeOpnd8 rfl (generalRow (low := 0x3) (by decide) fun _ _ => rfl) o
  | and o => exact decodesTo_encodeOpnd8 rfl (generalRow (low := 0x4) (by decide) fun _ _ => rfl) o
  | ora o => exact decodesTo_encodeOpnd8 rfl (generalRow (low := 0xA) (by decide) fun _ _ => rfl) o
  | eor o => exact decodesTo_encodeOpnd8 rfl (generalRow (low := 0x8) (by decide) fun _ _ => rfl) o
  | bit o => exact decodesTo_encodeOpnd8 rfl (generalRow (low := 0x5) (by decide) fun _ _ => rfl) o
  | sta e => exact decodesTo_encodeEa (generalRow (low := 0x7) (by decide) fun _ _ => rfl) e
  | stx e => exact decodesTo_encodeEa (generalRow (low := 0xF) (by decide) fun _ _ => rfl) e
  | jmp e => exact decodesTo_encodeJump ⟨rfl, rfl, rfl, rfl, rfl⟩ hw
  | jsr e => exact decodesTo_encodeJump ⟨rfl, rfl, rfl, rfl, rfl⟩ hw
  | clr | inc | dec | neg | tst | com | lsl | asl | asr | lsr | rol | ror =>
    exact decodesTo_encodeRmw ⟨rfl, rfl, rfl, rfl⟩ hw
  | dbnz e rr => exact decodesTo_encodeDbnz rr hw
  | cbeq o rr => exact decodesTo_encodeCbeq o rr
  | mov o => exact decodesTo_encodeMov o
  | ldhx o =>
    cases o with
    | imm v => exact decodesTo_word (op := 0x45) (k := fun v => .ldhx (.imm v)) rfl v
    | dir dd => exact decodesTo_op1 (op := 0x55) rfl dd
  | cphx o =>
    cases o with
    | imm v => exact decodesTo_word (op := 0x65) (k := fun v => .cphx (.imm v)) rfl v
    | dir dd => exact decodesTo_op1 (op := 0x75) rfl dd
  | brset n dd rr =>
    obtain ⟨h, -, -, -⟩ := page1_bitOpcode n
    exact decodesTo_op2 h dd rr
  | brclr n dd rr =>
    obtain ⟨-, h, -, -⟩ := page1_bitOpcode n
    exact decodesTo_op2 h dd rr
  | bset n dd =>
    obtain ⟨-, -, h, -⟩ := page1_bitOpcode n
    exact decodesTo_op1 h dd
  | bclr n dd =>
    obtain ⟨-, -, -, h⟩ := page1_bitOpcode n
    exact decodesTo_op1 h dd
  | cbeqa ii rr | cbeqx ii rr => exact decodesTo_op2 (by rfl) ii rr
  | sthx p | ais p | aix p | bra p | brn p | bhi p | bls p | bcc p | bhs p | bcs p | blo p | bne p | beq p | bhcc p | bhcs p
  | bpl p | bmi p | bmc p | bms p | bil p | bih p | bge p | blt p | bgt p | ble p | dbnza p | dbnzx p | bsr p =>
    exact decodesTo_op1 (by rfl) p
  | clra | clrx | clrh | tax | txa | tap | tpa | tsx | txs | rsp | psha | pshh | pshx | pula | pulh | pulx | inca | incx | deca
  | decx | nega | negx | tsta | tstx | mul | div | daa | coma | comx | nsa | lsla | lslx | asla | aslx | asra | asrx | lsra
  | lsrx | rola | rolx | rora | rorx | clc | sec | rts | nop | sei | cli | swi | rti | wait | stop =>
    exact decodesTo_op0 (by rfl)

/-! ### The bit instructions -/

/-- The opcode as rule R86 writes it: the base opcode plus 2n. -/
theorem bitOpcode_eq_ofNat (base : Byte) (n : BitVec 3) : bitOpcode base n = BitVec.ofNat 8 (base.toNat + 2 * n.toNat) := by
  have hn := n.isLt
  apply BitVec.eq_of_toNat_eq
  simp only [bitOpcode, BitVec.toNat_add, BitVec.toNat_shiftLeft, BitVec.toNat_setWidth, BitVec.toNat_ofNat, Nat.shiftLeft_eq]
  omega

/-- An opcode $00 to $1F is its base opcode, by its bits 4 and 0, plus twice its bits 3-1. -/
theorem bitOpcode_of_bits {op : Byte} (h : op.toNat < 0x20) :
    bitOpcode (if op.getLsbD 4 then if op.getLsbD 0 then 0x11 else 0x10 else if op.getLsbD 0 then 0x01 else 0x00)
      (op.extractLsb' 1 3) = op := by
  revert op
  decide +kernel

/-- The bit instruction of an opcode has that opcode, then its operand bytes. -/
theorem encode_bitInstruction {op : Byte} (dd rr : Byte) (h : op.toNat < 0x20) :
    (bitInstruction op dd rr).wellFormed = true ∧ (bitInstruction op dd rr).canonical = bitInstruction op dd rr ∧
      encode (bitInstruction op dd rr) = if op.getLsbD 4 then [op, dd] else [op, dd, rr] := by
  have hop := bitOpcode_of_bits h
  unfold bitInstruction
  cases h4 : op.getLsbD 4 <;> cases h0 : op.getLsbD 0 <;> rw [h4, h0] at hop <;> exact ⟨rfl, rfl, congrArg (· :: _) hop⟩

/-- Settles O5: the first part by O1, since the bit instruction of an opcode is encoded by it. -/
theorem bitInstructionOpcodes : Obligations.BitInstructionOpcodes := by
  unfold Obligations.BitInstructionOpcodes
  refine ⟨fun op dd rr b3 h => ?_, fun n dd rr => ?_⟩
  · obtain ⟨hwf, hname, henc⟩ := encode_bitInstruction dd rr h
    have hd := fun rest => decodeInvertsEncode (bitInstruction op dd rr) rest hwf
    rw [hname, henc] at hd
    cases h4 : op.getLsbD 4 with
    | false =>
      rw [h4] at hd
      exact hd [b3]
    | true =>
      rw [h4] at hd
      exact hd [rr, b3]
  · simp only [encode, bitOpcode_eq_ofNat]
    exact ⟨rfl, rfl, rfl, rfl⟩

/-- Settles O6: the words are encodings, so O1 decodes them. -/
theorem sampleWordsDecode : Obligations.SampleWordsDecode :=
  ⟨decodeInvertsEncode (.lda (.imm 0x80)) [] rfl, decodeInvertsEncode (.lda (.mem (.sp2 0x1234))) [] rfl,
    decodeInvertsEncode (.sthx 0x60) [] rfl, decodeInvertsEncode (.mov (.dd 0x11 0x22)) [] rfl,
    decodeInvertsEncode (.add (.mem (.ext 0x1234))) [] rfl, decodeInvertsEncode (.cphx (.imm 0x1234)) [] rfl,
    decodeInvertsEncode (.inc (.sp1 0x01)) [] rfl, decodeInvertsEncode (.and (.mem .ix)) [] rfl,
    decodeInvertsEncode (.lsl (.ix1 0x05)) [] rfl, decodeInvertsEncode (.bset 3 0x20) [] rfl,
    decodeInvertsEncode (.bra 0xFE) [] rfl, decodeInvertsEncode (.brclr 7 0x40 0xFD) [] rfl,
    decodeInvertsEncode (.cbeq (.ix1Plus 0x02) 0x10) [] rfl, decodeInvertsEncode (.dbnz (.sp1 0x01) 0xFC) [] rfl,
    decodeInvertsEncode (.jsr (.ix2 0x0010)) [] rfl, decodeInvertsEncode .swi [] rfl⟩

end Sys2Proof.Proofs

/-!
PROOFS. The opcode map cell by cell. What holds of every assigned cell of both pages, with its opcode, holds of every decoded
instruction (`of_decode`); the obligations O2 and O4 are two such walks, and O3 says which cells are empty.
-/

namespace Sys2Proof.Proofs

open Sys2Proof Sys2Proof.Machine Sys2Proof.Claims

/-! ### A walk over the opcode map -/

/-- `P` holds of every assigned cell of the list, with its opcode byte: the first cell's is `op`, and so on upward. -/
def EveryCell (P : Byte → OpCell → Prop) : Byte → List (Option OpCell) → Prop
  | _, [] => True
  | op, none :: cells => EveryCell P (op + 1) cells
  | op, some c :: cells => P op c ∧ EveryCell P (op + 1) cells

/-- `P` holds of every assigned cell of the columns, the first column's opcodes beginning at `op`. -/
def EveryColumn (P : Byte → OpCell → Prop) : Byte → List (List (Option OpCell)) → Prop
  | _, [] => True
  | op, column :: columns => EveryCell P op column ∧ EveryColumn P (op + 0x10) columns

theorem of_everyCell {P : Byte → OpCell → Prop} {op : Byte} {cells : List (Option OpCell)} {row : Nat} {c : OpCell}
    (h : EveryCell P op cells) (hc : cells.getD row none = some c) : P (op + BitVec.ofNat 8 row) c := by
  induction cells generalizing op row with
  | nil => simp at hc
  | cons cell cells ih =>
    cases row with
    | zero =>
      obtain rfl : cell = some c := hc
      rw [BitVec.add_zero]
      exact h.1
    | succ row =>
      have htail : EveryCell P (op + 1) cells := by
        cases cell with
        | none => exact h
        | some _ => exact h.2
      have hrow : op + BitVec.ofNat 8 (row + 1) = op + 1 + BitVec.ofNat 8 row := by
        rw [BitVec.add_assoc, Nat.add_comm, BitVec.ofNat_add]
        rfl
      rw [hrow]
      exact ih htail hc

theorem everyCell_of_everyColumn {P : Byte → OpCell → Prop} {op : Byte} {columns : List (List (Option OpCell))}
    (h : EveryColumn P op columns) (col : Nat) : EveryCell P (op + BitVec.ofNat 8 (16 * col)) (columns.getD col []) := by
  induction columns generalizing op col with
  | nil => trivial
  | cons column columns ih =>
    cases col with
    | zero =>
      rw [Nat.mul_zero, BitVec.add_zero]
      exact h.1
    | succ col =>
      have hcol : op + BitVec.ofNat 8 (16 * (col + 1)) = op + 0x10 + BitVec.ofNat 8 (16 * col) := by
        rw [BitVec.add_assoc, Nat.mul_add, Nat.add_comm, BitVec.ofNat_add]
        rfl
      rw [hcol]
      exact ih h.2 col

/-- What holds of every assigned cell of a page holds of the cell of each opcode. -/
theorem of_everyColumn {P : Byte → OpCell → Prop} {columns : List (List (Option OpCell))} {op : Byte} {c : OpCell}
    (h : EveryColumn P 0 columns) (hc : lookupCell columns op = some c) : P op c := by
  have hop : 0 + BitVec.ofNat 8 (16 * (op.toNat / 16)) + BitVec.ofNat 8 (op.toNat % 16) = op := by
    rw [BitVec.add_assoc, ← BitVec.ofNat_add, Nat.div_add_mod, BitVec.ofNat_toNat, BitVec.setWidth_eq]
    exact BitVec.zero_add op
  have hcell := of_everyCell (everyCell_of_everyColumn h (op.toNat / 16)) hc
  rwa [hop] at hcell

/-- What holds of every assigned cell of both pages, whatever the operand bytes, holds of every decoded instruction: the case
split of the decoder's answers along the opcode map. -/
theorem of_decode {Q : Byte → Byte → Byte → Byte → Instr → Nat → Prop}
    (h1 : EveryColumn (fun op c => ∀ p q r, Q op p q r (c.instr p q) (1 + c.operands)) 0 page1Columns)
    (h2 : EveryColumn (fun op c => ∀ p q, Q preByte op p q (c.instr p q) (2 + c.operands)) 0 page2Columns)
    {b0 b1 b2 b3 : Byte} {i : Instr} {n : Nat} (h : decode b0 b1 b2 b3 = .ok i n) : Q b0 b1 b2 b3 i n := by
  rcases decode_eq_ok.1 h with ⟨rfl, c, hc, rfl, rfl⟩ | ⟨c, hc, rfl, rfl⟩
  · exact of_everyColumn h2 hc b2 b3
  · exact of_everyColumn h1 hc b1 b2 b3

/-! ### Decoded instructions encode back -/

theorem loByte_joinBytes (hi lo : Byte) : loByte (joinBytes hi lo) = lo := BitVec.extractLsb'_append_eq_right

/-- `i` is well-formed, goes by its first name and is encoded by the first `n` of the four bytes, 1 to 4 of them. -/
def EncodesBack (b0 b1 b2 b3 : Byte) (i : Instr) (n : Nat) : Prop :=
  i.wellFormed = true ∧ i.canonical = i ∧ 1 ≤ n ∧ n ≤ 4 ∧ encode i = [b0, b1, b2, b3].take n

/-- Page 1: the encoder lays out each cell's operand bytes after its opcode; of a word they are the two halves. -/
theorem page1_encodesBack :
    EveryColumn (fun op c => ∀ p q r, EncodesBack op p q r (c.instr p q) (1 + c.operands)) 0 page1Columns := by
  repeat' constructor
  all_goals
    refine fun p q _ => ⟨rfl, rfl, by decide, by decide, ?_⟩
    have hhi := hiByte_joinBytes p q
    have hlo := loByte_joinBytes p q
    simp [dirCell, extCell, ix1Cell, ix2Cell, ixCell, immCell, OpCell.instr, OpCell.operands, encode, bitOpcode, encodeOpnd8,
      encodeEa, encodeJump, encodeRmw, encodeDbnz, encodeCbeq, encodeMov, hhi, hlo]

/-- Page 2: the same after the pre-byte. -/
theorem page2_encodesBack :
    EveryColumn (fun op c => ∀ p q, EncodesBack preByte op p q (c.instr p q) (2 + c.operands)) 0 page2Columns := by
  repeat' constructor
  all_goals
    refine fun p q => ⟨rfl, rfl, by decide, by decide, ?_⟩
    have hhi := hiByte_joinBytes p q
    have hlo := loByte_joinBytes p q
    simp [sp2Cell, sp1Cell, OpCell.instr, OpCell.operands, encode, encodeOpnd8, encodeEa, encodeRmw, encodeDbnz, encodeCbeq,
      hhi, hlo]

/-- Settles O2: every cell of the map encodes back. -/
theorem decodedInstructionsEncodeBack : Obligations.DecodedInstructionsEncodeBack := by
  unfold Obligations.DecodedInstructionsEncodeBack
  intro b0 b1 b2 b3 i n h
  exact of_decode page1_encodesBack page2_encodesBack h

/-! ### Lengths and cycles -/

/-- The length is that of the opcode's range in rule R93, the cycles are those of rule R377. -/
def CountsByOpcode (b0 b1 _b2 _b3 : Byte) (i : Instr) (n : Nat) : Prop :=
  n = lengthByOpcode b0 b1 ∧ instrCycles i = cyclesByOpcode b0 b1

theorem page1_countsByOpcode :
    EveryColumn (fun op c => ∀ p q r, CountsByOpcode op p q r (c.instr p q) (1 + c.operands)) 0 page1Columns := by
  repeat' constructor
  all_goals exact fun _ _ _ => ⟨rfl, rfl⟩

theorem page2_countsByOpcode :
    EveryColumn (fun op c => ∀ p q, CountsByOpcode preByte op p q (c.instr p q) (2 + c.operands)) 0 page2Columns := by
  repeat' constructor
  all_goals exact fun _ _ => ⟨rfl, rfl⟩

/-- Settles O4: the two tables agree with every cell of the map. -/
theorem lengthsAndCycles : Obligations.LengthsAndCycles := by
  unfold Obligations.LengthsAndCycles
  intro b0 b1 b2 b3 i n h
  exact of_decode page1_countsByOpcode page2_countsByOpcode h

/-! ### The unassigned encodings -/

theorem page1_eq_none_iff {b0 : Byte} (hpre : b0 ≠ preByte) :
    page1 b0 = none ↔ b0 ∈ ([0x32, 0x3E, 0x82, 0x8D, 0x96, 0xAC] : List Byte) := by
  rw [← Option.isNone_iff_eq_none]
  revert b0
  decide +kernel

theorem page2_eq_none_iff {b1 : Byte} : page2 b1 = none ↔ b1 ∉ pageTwoOpcodes := by
  rw [← Option.isNone_iff_eq_none]
  revert b1
  decide +kernel

/-- The encodings that rule R87 lists are those of the map's empty cells. -/
theorem unassigned_iff {b0 b1 : Byte} :
    Unassigned b0 b1 ↔ (b0 = preByte ∧ page2 b1 = none) ∨ (b0 ≠ preByte ∧ page1 b0 = none) := by
  by_cases hpre : b0 = preByte
  · subst hpre
    rw [page2_eq_none_iff, Unassigned]
    simp [preByte]
  · have hpage2 : ¬(b0 = 0x9E ∧ b1 ∉ pageTwoOpcodes) := fun h => hpre h.1
    rw [page1_eq_none_iff hpre, Unassigned, or_iff_left hpage2]
    simp [hpre]

/-- Two joined bytes as a number, the high byte first (rule R50). -/
theorem joinBytes_eq_ofNat (hi lo : Byte) : joinBytes hi lo = BitVec.ofNat 16 (256 * hi.toNat + lo.toNat) := by
  have hlo := lo.isLt
  apply BitVec.eq_of_toNat_eq
  rw [joinBytes, BitVec.toNat_append, ← Nat.shiftLeft_add_eq_or_of_lt hlo, Nat.shiftLeft_eq, BitVec.toNat_ofNat]
  omega

/-- Settles O3: the decoder refuses the empty cells of the map, which are those of rule R87. -/
theorem unassignedEncodings : Obligations.UnassignedEncodings := by
  unfold Obligations.UnassignedEncodings
  refine fun b0 b1 b2 b3 => ⟨fun h => decode_eq_unassigned.2 ?_, fun h => ?_⟩
  · rcases unassigned_iff.1 h with ⟨rfl, hcell⟩ | ⟨hpre, hcell⟩
    · exact .inl ⟨rfl, hcell, (joinBytes_eq_ofNat preByte b1).symm⟩
    · exact .inr ⟨hpre, hcell, (if_neg hpre).trans (BitVec.ofNat_toNat 16 b0)⟩
  · cases hd : decode b0 b1 b2 b3 with
    | ok i n => exact ⟨i, n, rfl⟩
    | unassigned op =>
      refine absurd (unassigned_iff.2 ?_) h
      exact (decode_eq_unassigned.1 hd).imp (fun ⟨hpre, hcell, _⟩ => ⟨hpre, hcell⟩) fun ⟨hpre, hcell, _⟩ => ⟨hpre, hcell⟩

end Sys2Proof.Proofs

/-!
PROOFS. The step at the encoding at PC: where its bytes are RAM or ROM and were not stored by the instruction before, it is the
meaning of the decoded instruction, or what `illegal_opcode` says of an unassigned encoding. The obligations O46 and O47.
-/

namespace Sys2Proof.Proofs

open Sys2Proof Sys2Proof.Machine Sys2Proof.Claims

theorem storedInto_eq_false_iff {s : State} {n : Nat} : s.storedInto n = false ↔ Unstored s n := by
  simp [State.storedInto, Unstored]

/-- The fetch answers what is decoded at PC where its own bytes are RAM or ROM (rule R81). -/
theorem fetch_of_decodedAtPc {s : State} {d : Decoded} (hd : decodedAtPc s = d) (h : Fetchable s (encodedLength d)) :
    fetch s = .next d := by
  subst hd
  exact fetch_of_fetchable (by rwa [lengthAtPc_eq_encodedLength])

/-- Settles O46: the fetch answers the decoded instruction, and `State.begin` is what the statement writes out. -/
theorem stepRunsDecodedInstruction : Obligations.StepRunsDecodedInstruction := by
  unfold Obligations.StepRunsDecodedInstruction
  rintro s u i n rfl hreach hd hfetch hstored
  have hunstored : s.sample.storedInto n = false := storedInto_eq_false_iff.2 hstored
  rw [step_of_reachesInstruction hreach, runInstruction, fetch_of_decodedAtPc hd hfetch, Res.bind_next]
  exact if_neg (Bool.eq_false_iff.1 hunstored)

/-- Settles O47: the fetch answers the unassigned encoding, and the parameter `illegal_opcode` decides. -/
theorem unassignedOpcodeStep : Obligations.UnassignedOpcodeStep := by
  unfold Obligations.UnassignedOpcodeStep
  rintro s u n op rfl hreach hd hn hfetch hstored
  have hlength : unassignedLength op = n := (unassignedLength_of_decode hd).trans hn.symm
  subst hlength
  have hunstored : s.sample.storedInto (unassignedLength op) = false := storedInto_eq_false_iff.2 hstored
  rw [step_of_reachesInstruction hreach, runInstruction, fetch_of_decodedAtPc hd hfetch, Res.bind_next]
  simp only [hunstored]
  exact ⟨fun hc => by rw [hc]; rfl, fun hc => by rw [hc]; rfl⟩

end Sys2Proof.Proofs

/-!
PROOFS. Addresses as numbers, the post-increment of H:X, and MOV: the byte it moves is one store. The obligations O7 and O12.
-/

namespace Sys2Proof.Proofs

open Sys2Proof Sys2Proof.Machine Sys2Proof.Claims

/-! ### Addresses as numbers -/

/-- A byte as a word is the same number (rule R7). -/
theorem zext16_toNat (b : Byte) : (zext16 b).toNat = b.toNat := BitVec.toNat_setWidth_of_le (by decide)

/-- Two joined bytes as a number (rule R50). -/
theorem joinBytes_toNat (hi lo : Byte) : (joinBytes hi lo).toNat = 256 * hi.toNat + lo.toNat := by
  have hhi := hi.isLt
  have hlo := lo.isLt
  rw [joinBytes_eq_ofNat, BitVec.toNat_ofNat]
  omega

/-- H:X plus an offset, modulo 65536 (rules R115, R116; decision D4). -/
theorem hx_add_toNat (s : State) (off : Word) : (s.hx + off).toNat = (256 * s.h.toNat + s.x.toNat + off.toNat) % 65536 := by
  rw [BitVec.toNat_add, State.hx, joinBytes_toNat]

theorem hx_add_zext16_toNat (s : State) (ff : Byte) :
    (s.hx + zext16 ff).toNat = (256 * s.h.toNat + s.x.toNat + ff.toNat) % 65536 := by
  rw [hx_add_toNat, zext16_toNat]

theorem sp_add_zext16_toNat (s : State) (ff : Byte) : (s.sp + zext16 ff).toNat = (s.sp.toNat + ff.toNat) % 65536 := by
  rw [BitVec.toNat_add, zext16_toNat]

/-- Settles O7: the address of each mode is one of three sums, and CBEQ's are those of the modes without post-increment. -/
theorem effectiveAddresses : Obligations.EffectiveAddresses := by
  intro s dd ff w
  have hix : s.hx.toNat = 256 * s.h.toNat + s.x.toNat := joinBytes_toNat s.h s.x
  have hix1 := hx_add_zext16_toNat s ff
  have hsp1 := sp_add_zext16_toNat s ff
  exact ⟨zext16_toNat dd, rfl, rfl, hx_add_toNat s w, hix1, hix, BitVec.toNat_add s.sp w, hsp1, rfl, hix1, hix, hsp1⟩

/-! ### The post-increment -/

theorem setHx_joinBytes (s : State) (hi lo : Byte) : s.setHx (joinBytes hi lo) = { s with h := hi, x := lo } := by
  rw [State.setHx, hiByte_joinBytes, loByte_joinBytes]

/-- The post-increment adds 1 to H:X, modulo 65536 (rule R119). -/
theorem incHx_eq {s : State} {hi lo : Byte}
    (h : 256 * hi.toNat + lo.toNat = (256 * s.h.toNat + s.x.toNat + 1) % 65536) : s.incHx = { s with h := hi, x := lo } := by
  have hsum : s.hx + 1 = joinBytes hi lo :=
    BitVec.eq_of_toNat_eq ((hx_add_toNat s 1).trans (h.symm.trans (joinBytes_toNat hi lo).symm))
  rw [State.incHx, hsum, setHx_joinBytes]

/-! ### One store -/

/-- A store to the first of the addresses has a result. -/
theorem mapped_of_storable {s : State} {a : Word} {l : List Word} (h : Storable s (a :: l)) : s.mapped a = true :=
  h.2 a List.mem_cons_self

/-- What the address of a store reads as after it: RAM holds the byte, any other address is as before (rule R60). -/
theorem peek_poke_same {s : State} {a : Word} (v : Byte) (hw : s.mem.wf = true) :
    (s.poke a v).peek a = if s.kindAt a = .ram then v else s.peek a := by
  split
  next hram => exact State.peek_poke_self v hw hram
  next hram => exact peek_poke_outside_ram v hram

/-- The state with the memory, the record of stores and the devices of another one. -/
def withMemoryOf (s u : State) : State := { s with mem := u.mem, stored := u.stored, device := u.device }

/-- Storing one byte meets `Stores` for that cell, whatever else becomes of the registers and flags. -/
theorem stores_of_poke {s : State} {a : Word} {v : Byte} (after : State) (h : Storable s [a]) :
    Stores (.next (withMemoryOf after (s.poke a v))) s after [(a, v)] := by
  obtain ⟨hw, -⟩ := h
  refine ⟨_, rfl, ⟨rfl, ?_, ?_⟩, pokes_stored [(a, v)] s⟩
  · simp only [List.forall_mem_singleton]
    exact peek_poke_same v hw
  · exact fun b hb => pokes_peek_of_not_mem (cells := [(a, v)]) hb

/-! ### MOV -/

/-- The end of MOV in the modes without post-increment: one store and the flags (rule R146). -/
theorem write8_flags_stores {s : State} {a : Word} (v : Byte) (h : Storable s [a]) :
    Stores (Res.bind (write8 s a v) fun t => .next { t with ccr := logicFlags t.ccr v }) s { s with ccr := plain s.ccr v }
      [(a, v)] := by
  rw [write8_of_mapped v (mapped_of_storable h), Res.bind_next, logicFlags_eq_plain]
  exact stores_of_poke { s with ccr := plain s.ccr v } h

/-- The end of MOV in the X+ modes: one store, the flags, and then the post-increment (rules R119, R146). -/
theorem write8_flags_incHx_stores {s : State} {a : Word} {hi lo : Byte} (v : Byte) (h : Storable s [a])
    (hsum : 256 * hi.toNat + lo.toNat = (256 * s.h.toNat + s.x.toNat + 1) % 65536) :
    Stores (Res.bind (write8 s a v) fun t => .next { t.incHx with ccr := logicFlags t.ccr v }) s
      { s with h := hi, x := lo, ccr := plain s.ccr v } [(a, v)] := by
  rw [write8_of_mapped v (mapped_of_storable h), Res.bind_next, logicFlags_eq_plain, incHx_eq (s := s.poke a v) hsum]
  exact stores_of_poke { s with h := hi, x := lo, ccr := plain s.ccr v } h

/-- Settles O12: each mode is a source byte and one of the two ends of MOV. -/
theorem movInstruction : Obligations.MovInstruction := by
  intro s ii src dst hi lo
  refine ⟨fun hsrc hdst => ?dd, write8_flags_stores ii, fun hsum => ⟨fun hsrc hdst => ?dixPlus, fun hsrc hdst => ?ixPlusD⟩⟩
  case dd =>
    rw [exec, execMov, read8_of_mapped hsrc]
    exact write8_flags_stores _ hdst
  case dixPlus | ixPlusD =>
    rw [exec, execMov, read8_of_mapped hsrc]
    exact write8_flags_incHx_stores _ hdst hsum

end Sys2Proof.Proofs

/-!
PROOFS. The flags an instruction can write, by its CCR column. `exec_flags` says for all instructions that the new flags are as
the column has them; the obligation O60 reads it flag by flag.
-/

namespace Sys2Proof.Proofs

open Sys2Proof Sys2Proof.Machine Sys2Proof.Claims

/-- The value a mark leaves to a flag: the old one, the forced one, or the one the instruction gives. -/
def marked (m : Mark) (old new : Bool) : Bool :=
  match m with
  | .kept => old
  | .forced b => b
  | .byResult => new
  | .undefined => new

theorem holds_marked (m : Mark) (old new : Bool) : m.Holds old (marked m old new) := by
  cases m with
  | kept | forced _ => rfl
  | byResult | undefined => trivial

/-- The flags `new` with every flag that the column marks as kept or forced put to its value. -/
def byColumn (k : Column) (old new : Ccr) : Ccr where
  v := marked k.v old.v new.v
  h := marked k.h old.h new.h
  i := marked k.i old.i new.i
  n := marked k.n old.n new.n
  z := marked k.z old.z new.z
  c := marked k.c old.c new.c

/-- LSR shifts a zero into bit 7, so N is clear; H and I are not written (rules R126, R228). -/
theorem lsrOp_flags (f : Ccr) (v : Byte) : (lsrOp f v).2 = { (lsrOp f v).2 with h := f.h, i := f.i, n := false } := by
  have hn : (v >>> 1).msb = false := by simp [BitVec.msb_ushiftRight]
  simp only [lsrOp, shiftFlags, setNZ8, hn]

/-- The flags after an instruction are as its CCR column has them (rules R34, R130). -/
theorem exec_flags {i : Instr} {s t : State} (h : exec i s = .next t) : t.ccr = byColumn (column i) s.ccr t.ccr := by
  cases i with
  | lda _ | ldx _ | ldhx _ | adc _ | add _ | sub _ | sbc _ | cmp _ | cpx _ | cphx _ | and _ | ora _ | eor _ | bit _ | tst _ =>
    obtain ⟨m, -, ⟨⟩⟩ := Res.bind_eq_next.1 h
    rfl
  | cbeq o _ =>
    obtain ⟨m, -, ⟨⟩⟩ := Res.bind_eq_next.1 h
    cases o <;> rfl
  | brset _ _ _ | brclr _ _ _ =>
    obtain ⟨-, rfl⟩ := branchOnBit_eq_next.1 h
    rfl
  | sta _ | stx _ =>
    obtain ⟨-, rfl⟩ := storeByte_eq_next.1 h
    rfl
  | inc _ | dec _ | neg _ | com _ | lsl _ | asl _ | asr _ | rol _ | ror _ =>
    obtain ⟨-, rfl⟩ := rmwMem_eq_next.1 h
    rfl
  | lsr _ =>
    obtain ⟨-, rfl⟩ := rmwMem_eq_next.1 h
    exact lsrOp_flags _ _
  | lsra | lsrx =>
    cases h
    exact lsrOp_flags _ _
  | bset _ _ | bclr _ _ =>
    obtain ⟨-, rfl⟩ := writeBit_eq_next.1 h
    rfl
  | clr _ =>
    obtain ⟨u, hu, ⟨⟩⟩ := Res.bind_eq_next.1 h
    obtain ⟨-, rfl⟩ := write8_eq_next.1 hu
    rfl
  | dbnz _ _ =>
    obtain ⟨m, -, h⟩ := Res.bind_eq_next.1 h
    obtain ⟨u, hu, ⟨⟩⟩ := Res.bind_eq_next.1 h
    obtain ⟨-, rfl⟩ := write8_eq_next.1 hu
    rfl
  | sthx _ =>
    obtain ⟨u, hu, ⟨⟩⟩ := Res.bind_eq_next.1 h
    obtain ⟨-, -, rfl⟩ := write16_eq_next.1 hu
    rfl
  | mov o =>
    cases o with
    | imd _ _ =>
      obtain ⟨u, hu, ⟨⟩⟩ := Res.bind_eq_next.1 h
      obtain ⟨-, rfl⟩ := write8_eq_next.1 hu
      rfl
    | dd _ _ | dixPlus _ | ixPlusD _ =>
      obtain ⟨m, -, h⟩ := Res.bind_eq_next.1 h
      obtain ⟨u, hu, ⟨⟩⟩ := Res.bind_eq_next.1 h
      obtain ⟨-, rfl⟩ := write8_eq_next.1 hu
      rfl
  | psha | pshh | pshx =>
    obtain ⟨-, rfl⟩ := push8_eq_next.1 h
    rfl
  | pula | pulh | pulx =>
    obtain ⟨p, hp, ⟨⟩⟩ := Res.bind_eq_next.1 h
    obtain ⟨-, rfl⟩ := pull8_eq_next.1 hp
    rfl
  | rts =>
    obtain ⟨p, hp, h⟩ := Res.bind_eq_next.1 h
    obtain ⟨-, rfl⟩ := pull8_eq_next.1 hp
    obtain ⟨q, hq, ⟨⟩⟩ := Res.bind_eq_next.1 h
    obtain ⟨-, rfl⟩ := pull8_eq_next.1 hq
    rfl
  | rti | tap => rfl
  | bsr _ | jsr _ =>
    obtain ⟨u, hu, ⟨⟩⟩ := Res.bind_eq_next.1 h
    obtain ⟨-, -, rfl⟩ := pushReturn_eq_next.1 hu
    rfl
  | swi =>
    rw [takeException_frame h]
    rfl
  | div =>
    simp only [exec, execDiv] at h
    split at h <;> cases h <;> rfl
  | daa =>
    simp only [exec, execDaa] at h
    split at h <;> cases h <;> rfl
  | clra | clrx | clrh | tax | txa | tpa | tsx | txs | rsp | ais _ | aix _ | inca | incx | deca | decx | nega | negx | tsta
  | tstx | mul | coma | comx | nsa | lsla | lslx | asla | aslx | asra | asrx | rola | rolx | rora | rorx | clc | sec
  | bra _ | brn _ | bhi _ | bls _ | bcc _ | bhs _ | bcs _ | blo _ | bne _ | beq _ | bhcc _ | bhcs _ | bpl _ | bmi _ | bmc _
  | bms _ | bil _ | bih _ | bge _ | blt _ | bgt _ | ble _ | cbeqa _ _ | cbeqx _ _ | dbnza _ | dbnzx _ | jmp _ | nop | sei
  | cli | wait | stop =>
    cases h
    rfl

/-- Settles O60, flag by flag from `exec_flags`; the table of the columns has one undefined mark. -/
theorem flagsByColumn : Obligations.FlagsByColumn := by
  refine ⟨fun i s t h => ?_, fun i => ?_⟩
  · rw [exec_flags h]
    exact ⟨holds_marked .., holds_marked .., holds_marked .., holds_marked .., holds_marked .., holds_marked ..⟩
  · cases i with
    | daa => exact ⟨⟨fun _ => rfl, fun _ => rfl⟩, nofun, nofun, nofun, nofun, nofun⟩
    | _ => exact ⟨⟨nofun, nofun⟩, nofun, nofun, nofun, nofun, nofun⟩

end Sys2Proof.Proofs

/-!
PROOFS. Loads, stores and transfers: the operand of a load is what `load8` and `load16` answer, a list of stores to different
addresses meets `Stores`, a push is one store, and the CCR as a number is the byte of its flags. The obligations O10, O11 and O13
to O16. Sums of pointers as numbers give O20.
-/

namespace Sys2Proof.Proofs

open Sys2Proof Sys2Proof.Machine Sys2Proof.Claims

/-! ### Flags and halves of a 16-bit value -/

/-- N and Z of a 16-bit result (rule R121). -/
theorem setNZ16_eq_nz16 (f : Ccr) (r : Word) : setNZ16 f r = nz16 f r := by
  have hn : r.msb = r.getLsbD 15 := BitVec.msb_eq_getLsbD_last r
  have hz : decide (r = 0) = decide (r.toNat = 0) := decide_eq_decide.2 BitVec.toNat_inj.symm
  rw [setNZ16, nz16, hn, hz]

/-- The flags of LDHX and STHX (rule R127). -/
theorem logicFlags16_eq_nz16 (f : Ccr) (r : Word) : logicFlags16 f r = nz16 { f with v := false } r := setNZ16_eq_nz16 _ r

theorem joinBytes_of_halves {hi lo : Byte} {v : Word} (h : Halves hi lo v) : joinBytes hi lo = v :=
  BitVec.eq_of_toNat_eq ((joinBytes_toNat hi lo).trans h)

/-- H gets the more significant half, X the other (rules R8, R22). -/
theorem setHx_of_halves {hi lo : Byte} {v : Word} (s : State) (h : Halves hi lo v) : s.setHx v = { s with h := hi, x := lo } := by
  rw [← joinBytes_of_halves h, setHx_joinBytes]

/-! ### Loads and tests -/

/-- A readable 8-bit operand is what the operand helper answers (rule R129). -/
theorem load8_of_operand8 {o : Opnd8} {s : State} {m : Byte} (h : Operand8 o s m) : load8 o s = .next m := by
  cases o with
  | imm ii =>
    obtain rfl : m = ii := h
    exact load8_imm m s
  | mem e => exact load8_mem_eq_next.2 h

/-- A readable 16-bit operand is what the operand helper answers, high byte first (rules R50, R129). -/
theorem load16_of_operand16 {o : Opnd16} {s : State} {v : Word} (h : Operand16 o s v) : load16 o s = .next v := by
  cases o with
  | imm w =>
    obtain rfl : v = w := h
    exact load16_imm v s
  | dir dd =>
    obtain ⟨hhi, hlo, hv⟩ := h
    exact load16_dir_eq_next.2 ⟨hhi, hlo, (joinBytes_of_halves hv.symm).symm⟩

/-- LDX with a readable operand (rule R141). -/
theorem exec_ldx_of_load8 {o : Opnd8} {s : State} {m : Byte} (h : load8 o s = .next m) :
    exec (.ldx o) s = .next { s with x := m, ccr := plain s.ccr m } := by
  rw [exec, execLdx, h, Res.bind_next, logicFlags_eq_plain]

/-- LDHX with a readable operand (rule R142). -/
theorem exec_ldhx_of_load16 {o : Opnd16} {s : State} {v : Word} {hi lo : Byte} (h : load16 o s = .next v) (hv : Halves hi lo v) :
    exec (.ldhx o) s = .next { s with h := hi, x := lo, ccr := nz16 { s.ccr with v := false } v } := by
  rw [exec, execLdhx, h, Res.bind_next, setHx_of_halves s hv, logicFlags16_eq_nz16]

/-- TST of a byte in memory (rule R192). -/
theorem exec_tst_of_mapped {e : Ea} {s : State} (h : s.mapped (effectiveAddress e s) = true) :
    exec (.tst e) s = .next { s with ccr := plain s.ccr (s.data (effectiveAddress e s)) } := by
  rw [exec, execTst, read8_of_mapped h, Res.bind_next, logicFlags_eq_plain]

theorem exec_tsta (s : State) : exec .tsta s = .next { s with ccr := plain s.ccr s.a } := by
  rw [exec, execTsta, logicFlags_eq_plain]

theorem exec_tstx (s : State) : exec .tstx s = .next { s with ccr := plain s.ccr s.x } := by
  rw [exec, execTstx, logicFlags_eq_plain]

/-- Settles O10: each load does with its operand what the operand helper answers. -/
theorem loadsAndTests : Obligations.LoadsAndTests := by
  refine ⟨fun o s m hm => ?_, fun o s v hi lo hv => ?_, fun e s => exec_tst_of_mapped, fun s => ⟨exec_tsta s, exec_tstx s⟩⟩
  · have hload := load8_of_operand8 hm
    exact ⟨exec_lda_of_load8 hload, exec_ldx_of_load8 hload⟩
  · exact exec_ldhx_of_load16 (load16_of_operand16 hv)

/-! ### Stores -/

/-- After stores to different addresses each RAM address holds its byte; any other address is as before (rule R60). -/
theorem pokes_peek_of_mem {cells : List (Word × Byte)} {s : State} (hw : s.mem.wf = true) (hd : (cells.map Prod.fst).Nodup)
    {c : Word × Byte} (hc : c ∈ cells) : (pokes s cells).peek c.1 = if s.kindAt c.1 = .ram then c.2 else s.peek c.1 := by
  induction cells generalizing s with
  | nil => cases hc
  | cons first rest ih =>
    rw [List.map_cons, List.nodup_cons] at hd
    obtain ⟨hfirst, hrest⟩ := hd
    rcases List.mem_cons.1 hc with rfl | hc
    · exact (pokes_peek_of_not_mem hfirst).trans (peek_poke_same c.2 hw)
    · have hne : c.1 ≠ first.1 := fun e => hfirst (e ▸ List.mem_map_of_mem hc)
      have hlater := ih (s := s.poke first.1 first.2) (State.wf_poke _ _ hw) hrest hc
      rwa [State.kindAt_poke, State.peek_poke_of_ne _ _ hne] at hlater

/-- A list of stores leaves the devices in the state their write function gives (decision D10). -/
theorem pokes_device (cells : List (Word × Byte)) (s : State) : (pokes s cells).device = devicesAfter s cells := by
  induction cells generalizing s with
  | nil => rfl
  | cons c cells ih => exact ih (s.poke c.1 c.2)

/-- Stores to different addresses meet `Stores` for their cells, whatever else becomes of the registers and flags. -/
theorem stores_of_pokes {cells : List (Word × Byte)} {s : State} (after : State) (hw : s.mem.wf = true)
    (hd : (cells.map Prod.fst).Nodup) : Stores (.next (withMemoryOf after (pokes s cells))) s after cells := by
  refine ⟨_, rfl, ⟨?_, fun c hc => pokes_peek_of_mem hw hd hc, fun b hb => pokes_peek_of_not_mem hb⟩, pokes_stored cells s⟩
  rw [← pokes_device]
  rfl

/-- STX to an address with a result (rule R144). -/
theorem exec_stx_of_mapped {e : Ea} {s : State} (h : s.mapped (effectiveAddress e s) = true) :
    exec (.stx e) s = .next { s.poke (effectiveAddress e s) s.x with ccr := plain s.ccr s.x } := by
  rw [exec, execStx, storeByte_eq_next.2 ⟨h, rfl⟩, logicFlags_eq_plain]

/-- STHX: H is stored at the direct address and X at the next (rules R50, R145). -/
theorem exec_sthx_of_mapped {dd : Byte} {s : State} (hhi : s.mapped (directAddress dd) = true)
    (hlo : s.mapped (directAddress dd + 1) = true) :
    exec (.sthx dd) s = .next { (s.poke (directAddress dd) s.h).poke (directAddress dd + 1) s.x with
      ccr := nz16 { s.ccr with v := false } s.hx } := by
  have hh : hiByte s.hx = s.h := hiByte_joinBytes s.h s.x
  have hx : loByte s.hx = s.x := loByte_joinBytes s.h s.x
  rw [exec, execSthx, write16_eq_next.2 ⟨hhi, hlo, rfl⟩, Res.bind_next, logicFlags16_eq_nz16, hh, hx]
  rfl

/-- Settles O11: STA and STX are one store, STHX is two stores to different addresses. -/
theorem storeInstructions : Obligations.StoreInstructions := by
  refine ⟨fun e s h => ?bytes, fun dd s h => ?word⟩
  case bytes =>
    have hm := mapped_of_storable h
    rw [exec_sta_of_mapped hm, exec_stx_of_mapped hm]
    exact ⟨stores_of_poke { s with ccr := plain s.ccr s.a } h, stores_of_poke { s with ccr := plain s.ccr s.x } h⟩
  case word =>
    obtain ⟨hw, hm⟩ := h
    rw [exec_sthx_of_mapped (hm _ (by simp)) (hm _ (by simp))]
    exact stores_of_pokes (cells := [(directAddress dd, s.h), (directAddress dd + 1, s.x)])
      { s with ccr := nz16 { s.ccr with v := false } s.hx } hw (by simp)

/-! ### Clears -/

/-- CLR of a byte in memory is one store (rule R147). -/
theorem exec_clr_of_mapped {e : Ea} {s : State} (h : s.mapped (effectiveAddress e s) = true) :
    exec (.clr e) s = .next { s.poke (effectiveAddress e s) 0x00 with ccr := clearFlags s.ccr } := by
  rw [exec, execClr, write8_of_mapped _ h, Res.bind_next, State.poke_ccr]

/-- Settles O13: `clearFlags` are the flags of the statement, and the form in memory is one store. -/
theorem clearInstructions : Obligations.ClearInstructions := by
  rintro s f rfl
  refine ⟨fun e h => ?_, rfl, rfl, rfl⟩
  rw [exec_clr_of_mapped (mapped_of_storable h)]
  exact stores_of_poke { s with ccr := clearFlags s.ccr } h

/-! ### Register transfers -/

/-- The low byte $FF under the high byte of a word (rule R154). -/
theorem joinBytes_hiByte_ff {v p : Word} (h : p.toNat = v.toNat / 256 * 256 + 0xFF) : joinBytes (hiByte v) 0xFF = p := by
  have hv : v.toNat = 256 * (hiByte v).toNat + (loByte v).toNat := by
    rw [← joinBytes_toNat, joinBytes_hiByte_loByte]
  have hlo := (loByte v).isLt
  have hff : (0xFF : Byte).toNat = 255 := rfl
  apply joinBytes_of_halves
  rw [Halves]
  omega

/-- Settles O14; RSP's new SP is the one the statement gives as a number. -/
theorem registerTransfers : Obligations.RegisterTransfers := by
  refine ⟨⟨rfl, rfl, rfl⟩, ⟨rfl, rfl, rfl⟩, fun s => ⟨rfl, rfl, fun p hp => ?_⟩⟩
  rw [exec, execRsp, joinBytes_hiByte_ff hp]

/-! ### The CCR as a number -/

theorem ofBool_toNat (b : Bool) : (BitVec.ofBool b).toNat = bit b := by
  cases b <;> rfl

/-- The more significant part of a concatenation counts in units of the other (rule R7). -/
theorem append_toNat {n m : Nat} (x : BitVec n) (y : BitVec m) : (x ++ y).toNat = 2 ^ m * x.toNat + y.toNat := by
  rw [BitVec.toNat_append, ← Nat.shiftLeft_add_eq_or_of_lt y.isLt, Nat.shiftLeft_eq, mul_comm]

/-- The byte read from the CCR is the one its flags and `ccr65` make (rules R26, R27). -/
theorem statusByte_ccrByte (s : State) : StatusByte s (ccrByte s.cfg s.ccr) := by
  rw [StatusByte, ccrByte]
  simp only [append_toNat, ofBool_toNat]
  omega

/-- The flags are determined by the byte they are the bits of (rule R27). -/
theorem eq_ccrOfByte_of_flagsOf {f : Ccr} {b : Byte} (h : FlagsOf f b) : f = ccrOfByte b := by
  obtain ⟨hv, hh, hi, hn, hz, hc⟩ := h
  rw [ccrOfByte, ← hv, ← hh, ← hi, ← hn, ← hz, ← hc]

/-- TAP: the flags from A, and the shadow of an I that goes from 1 to 0 (rules R150, R348). -/
theorem exec_tap (s : State) :
    exec .tap s = .next { s with
      ccr := ccrOfByte s.a
      cliShadow := decide (s.cfg.cliDelay = .one ∧ s.ccr.i = true ∧ s.a.getLsbD 3 = false) } := by
  have hshadow : (decide (s.cfg.cliDelay = .one) && s.ccr.i && !(ccrOfByte s.a).i) =
      decide (s.cfg.cliDelay = .one ∧ s.ccr.i = true ∧ s.a.getLsbD 3 = false) := by
    simp [ccrOfByte, Bool.and_assoc]
  rw [exec, execTap, State.setCcrShadowing, hshadow]

/-- Settles O15: the flags and the byte of the statement are the ones the model computes. -/
theorem ccrTransfers : Obligations.CcrTransfers := by
  refine fun s => ⟨fun f hf => ?_, fun b hb => ?_⟩
  · rw [eq_ccrOfByte_of_flagsOf hf, exec_tap]
  · have hbyte : b = ccrByte s.cfg s.ccr := BitVec.eq_of_toNat_eq (hb.trans (statusByte_ccrByte s).symm)
    rw [hbyte, exec, execTpa]

/-! ### Sums of pointers as numbers -/

theorem add_one_eq {w p : Word} (h : p.toNat = (w.toNat + 1) % 65536) : w + 1 = p :=
  BitVec.eq_of_toNat_eq ((BitVec.toNat_add w 1).trans h.symm)

theorem sub_one_eq {w p : Word} (h : (p.toNat + 1) % 65536 = w.toNat) : w - 1 = p := by
  rw [← add_one_eq h.symm]
  exact BitVec.add_sub_cancel p 1

/-- A signed byte added to a word, modulo 65536 (rules R7, R187; decision D4). -/
theorem add_sext16_toNat (w : Word) (ii : Byte) : ((w + sext16 ii).toNat : Int) = ((w.toNat : Int) + ii.toInt) % 65536 := by
  have hii : (sext16 ii).toNat = (ii.toInt % 65536).toNat := BitVec.toNat_ofInt ii.toInt
  rw [BitVec.toNat_add, hii]
  omega

/-! ### The stack -/

/-- A push is one store at the address in SP, then SP is one less (rules R8, R24). -/
theorem push8_stores {s : State} {p : Word} (v : Byte) (hp : (p.toNat + 1) % 65536 = s.sp.toNat) (h : Storable s [s.sp]) :
    Stores (push8 v s) s { s with sp := p } [(s.sp, v)] := by
  rw [push8_eq_next.2 ⟨mapped_of_storable h, rfl⟩, sub_one_eq hp]
  exact stores_of_poke { s with sp := p } h

/-- A pull is the byte above SP, and SP is one more (rules R8, R24). -/
theorem pull8_of_mapped {s : State} {p : Word} (hp : p.toNat = (s.sp.toNat + 1) % 65536) (h : s.mapped p = true) :
    pull8 s = .next (s.data p, { s with sp := p }) := by
  obtain rfl := add_one_eq hp
  exact pull8_eq_next.2 ⟨h, rfl⟩

/-- Settles O16: three pushes of one store each, and three pulls of one byte. -/
theorem pushesAndPulls : Obligations.PushesAndPulls := by
  refine ⟨⟨rfl, rfl, rfl, rfl, rfl, rfl⟩, by simp [instrCycles], fun s p => ⟨fun hp h => ?push, fun hp h => ?pull⟩⟩
  case push => exact ⟨push8_stores s.a hp h, push8_stores s.h hp h, push8_stores s.x hp h⟩
  case pull =>
    have hpull := pull8_of_mapped hp h
    refine ⟨?_, ?_, ?_⟩
    · rw [exec, execPula, hpull, Res.bind_next]
    · rw [exec, execPulh, hpull, Res.bind_next]
    · rw [exec, execPulx, hpull, Res.bind_next]

/-! ### Pointer arithmetic -/

/-- Settles O20: each result is the sum the model computes, the 16-bit ones by their halves. -/
theorem pointerArithmetic : Obligations.PointerArithmetic := by
  intro ii s
  have hx : s.hx.toNat = 256 * s.h.toNat + s.x.toNat := joinBytes_toNat s.h s.x
  refine ⟨fun hi lo h => ?tsx, fun p h => ?txs, fun p h => ?ais, fun hi lo h => ?aix⟩
  case tsx =>
    have hsum : Halves hi lo (s.sp + 1) := h.trans (BitVec.toNat_add s.sp 1).symm
    rw [exec, execTsx, setHx_of_halves s hsum]
  case txs => rw [exec, execTxs, sub_one_eq (h.trans hx.symm)]
  case ais =>
    have hsum : s.sp + sext16 ii = p := BitVec.eq_of_toNat_eq (Nat.cast_injective ((add_sext16_toNat s.sp ii).trans h.symm))
    rw [exec, execAis, hsum]
  case aix =>
    have hsum : Halves hi lo (s.hx + sext16 ii) := by
      rw [← hx, ← add_sext16_toNat] at h
      exact Nat.cast_injective h
    rw [exec, execAix, setHx_of_halves s hsum]

end Sys2Proof.Proofs

/-!
PROOFS. Sums, differences and their flags: `isSum_iff` and `isDifference_iff` say once that the model's `add8` and `sub8` with their
flags are the sums and differences of the statements. O17 to O19 read them; `readModifyWrite_of_unaryOp` carries a one-operand
operation to its three forms for O21 and O22.
-/

namespace Sys2Proof.Proofs

open Sys2Proof Sys2Proof.Machine Sys2Proof.Claims

/-! ### Signed bytes -/

theorem bit_eq_toNat (b : Bool) : bit b = b.toNat := by
  cases b <;> rfl

theorem bit_le_one (b : Bool) : bit b ≤ 1 := bit_eq_toNat b ▸ Bool.toNat_le b

/-- The sign bit of a byte, from the byte as an unsigned number (rule R7). -/
theorem msb_eq_decide_byte (b : Byte) : b.msb = decide (128 ≤ b.toNat) := BitVec.msb_eq_decide b

/-- A byte as a two's-complement number, from the byte as an unsigned one (rule R7). -/
theorem toInt_byte (b : Byte) : b.toInt = if 128 ≤ b.toNat then (b.toNat : Int) - 256 else b.toNat := by
  rw [BitVec.toInt_eq_toNat_cond]
  split <;> split <;> omega

/-! ### Additions -/

theorem add8_r_toNat (a m : Byte) (c : Bool) : (add8 a m c).r.toNat = (a.toNat + m.toNat + bit c) % 256 := by
  rw [bit_eq_toNat]
  exact BitVec.toNat_ofNat (a.toNat + m.toNat + c.toNat) 8

/-- The signed sum leaves the byte exactly where both operands have one sign and the result the other (rule R122). -/
theorem add8_v (a m : Byte) (c : Bool) : (add8 a m c).v = outside8 (a.toInt + m.toInt + bit c) := by
  have hr := add8_r_toNat a m c
  have hc := bit_le_one c
  have hsigns : (add8 a m c).v = ((a.msb == m.msb) && ((add8 a m c).r.msb != a.msb)) := rfl
  rw [hsigns, outside8, toInt_byte, toInt_byte, msb_eq_decide_byte, msb_eq_decide_byte, msb_eq_decide_byte, Bool.eq_iff_iff]
  simp only [Bool.and_eq_true, Bool.or_eq_true, beq_iff_eq, bne_iff_ne, decide_eq_true_eq, decide_eq_decide, ne_eq]
  omega

/-- The model's sum and flags are those of the statements (rules R121, R122). -/
theorem isSum_iff {old f : Ccr} {a m r : Byte} {c : Bool} :
    IsSum old a m (bit c) r f ↔ r = (add8 a m c).r ∧ f = sumFlags old (add8 a m c) := by
  have hflags : sumFlags old (add8 a m c) = nz8 { old with
      v := outside8 (a.toInt + m.toInt + bit c)
      h := decide (15 < a.toNat % 16 + m.toNat % 16 + bit c)
      c := decide (255 < a.toNat + m.toNat + bit c) } (add8 a m c).r := by
    rw [sumFlags, setNZ8_eq_nz8, add8_v, bit_eq_toNat]
    rfl
  rw [IsSum, ← add8_r_toNat, BitVec.toNat_inj, hflags]
  exact and_congr_right fun hr => by rw [hr]

/-! ### Subtractions -/

theorem sub8_r_toNat (a m : Byte) (c : Bool) : ((sub8 a m c).r.toNat : Int) = ((a.toNat : Int) - m.toNat - bit c) % 256 := by
  have hr : (sub8 a m c).r.toNat = (((a.toNat : Int) - m.toNat - c.toNat) % 256).toNat := BitVec.toNat_ofInt _
  rw [hr, bit_eq_toNat]
  omega

/-- The signed difference leaves the byte exactly where the operands differ in sign and so do the first one and the result
(rule R123). -/
theorem sub8_v (a m : Byte) (c : Bool) : (sub8 a m c).v = outside8 (a.toInt - m.toInt - bit c) := by
  have hr := sub8_r_toNat a m c
  have hc := bit_le_one c
  have hsigns : (sub8 a m c).v = ((a.msb != m.msb) && ((sub8 a m c).r.msb != a.msb)) := rfl
  rw [hsigns, outside8, toInt_byte, toInt_byte, msb_eq_decide_byte, msb_eq_decide_byte, msb_eq_decide_byte, Bool.eq_iff_iff]
  simp only [Bool.and_eq_true, Bool.or_eq_true, bne_iff_ne, decide_eq_true_eq, decide_eq_decide, ne_eq]
  omega

/-- C is the borrow (rule R123). -/
theorem sub8_c (a m : Byte) (c : Bool) : (sub8 a m c).c = decide (a.toNat < m.toNat + bit c) := by
  rw [sub8, bit_eq_toNat, decide_eq_decide]
  omega

/-- The model's difference and flags are those of the statements (rules R121, R123). -/
theorem isDifference_iff {old f : Ccr} {a m r : Byte} {c : Bool} :
    IsDifference old a m (bit c) r f ↔ r = (sub8 a m c).r ∧ f = diffFlags old (sub8 a m c) := by
  have hflags : diffFlags old (sub8 a m c) = nz8 { old with
      v := outside8 (a.toInt - m.toInt - bit c)
      c := decide (a.toNat < m.toNat + bit c) } (sub8 a m c).r := by
    rw [diffFlags, setNZ8_eq_nz8, sub8_v, sub8_c]
  rw [IsDifference, ← sub8_r_toNat, Nat.cast_inj, BitVec.toNat_inj, hflags]
  exact and_congr_right fun hr => by rw [hr]

/-! ### Instructions with two operands -/

/-- ADD with a readable operand (rule R181). -/
theorem exec_add_of_operand8 {o : Opnd8} {s : State} {m r : Byte} {f : Ccr} (hm : Operand8 o s m)
    (h : IsSum s.ccr s.a m 0 r f) : exec (.add o) s = .next { s with a := r, ccr := f } := by
  obtain ⟨rfl, rfl⟩ := isSum_iff (c := false).1 h
  rw [exec, execAdd, load8_of_operand8 hm, Res.bind_next]

/-- ADC with a readable operand (rule R180). -/
theorem exec_adc_of_operand8 {o : Opnd8} {s : State} {m r : Byte} {f : Ccr} (hm : Operand8 o s m)
    (h : IsSum s.ccr s.a m (bit s.ccr.c) r f) : exec (.adc o) s = .next { s with a := r, ccr := f } := by
  obtain ⟨rfl, rfl⟩ := isSum_iff.1 h
  rw [exec, execAdc, load8_of_operand8 hm, Res.bind_next]

/-- Settles O17: the operand is what `load8` answers, and `isSum_iff` says what the instruction computes from it. -/
theorem additions : Obligations.Additions :=
  ⟨fun _ _ _ _ _ => exec_add_of_operand8, fun _ _ _ _ _ => exec_adc_of_operand8⟩

/-- CMP writes only the flags of the difference (rule R184). -/
theorem exec_cmp_of_operand8 {o : Opnd8} {s : State} {m d : Byte} {f : Ccr} (hm : Operand8 o s m)
    (h : IsDifference s.ccr s.a m 0 d f) : exec (.cmp o) s = .next { s with ccr := f } := by
  obtain ⟨-, rfl⟩ := isDifference_iff (c := false).1 h
  rw [exec, execCmp, load8_of_operand8 hm, Res.bind_next]

/-- Settles O18: each instruction loads its operand, and `isDifference_iff` says what it computes from it. -/
theorem subtractions : Obligations.Subtractions := by
  refine ⟨fun o s m r f hm h => ?sub, fun o s m r f hm h => ?sbc, fun o s m r f hm h => ?cmp, fun o s m r f hm h => ?cpx⟩
  case sub =>
    obtain ⟨rfl, rfl⟩ := isDifference_iff (c := false).1 h
    rw [exec, execSub, load8_of_operand8 hm, Res.bind_next]
  case sbc =>
    obtain ⟨rfl, rfl⟩ := isDifference_iff.1 h
    rw [exec, execSbc, load8_of_operand8 hm, Res.bind_next]
  case cmp =>
    obtain ⟨rfl, d, hd⟩ := h
    exact exec_cmp_of_operand8 hm hd
  case cpx =>
    obtain ⟨rfl, d, hd⟩ := h
    obtain ⟨-, rfl⟩ := isDifference_iff (c := false).1 hd
    rw [exec, execCpx, load8_of_operand8 hm, Res.bind_next]

/-! ### CPHX -/

theorem sub16_r_eq (a m : Word) : (sub16 a m).r = a - m := by
  apply BitVec.eq_of_toNat_eq
  have hr : (sub16 a m).r.toNat = (((a.toNat : Int) - m.toNat) % 65536).toNat := BitVec.toNat_ofInt _
  rw [hr, BitVec.toNat_sub]
  omega

/-- The signed difference leaves the word exactly where the operands differ in sign and so do the first one and the result
(rule R124). -/
theorem sub16_v (a m : Word) : (sub16 a m).v = outside16 (a.toInt - m.toInt) := by
  have hsigns : (sub16 a m).v = ((a.msb != m.msb) && ((a - m).msb != a.msb)) := by
    rw [← sub16_r_eq]
    rfl
  have hlibrary : outside16 (a.toInt - m.toInt) = BitVec.ssubOverflow a m := by
    rw [outside16, BitVec.ssubOverflow, Bool.or_comm]
    congr 1
  rw [hsigns, hlibrary, BitVec.ssubOverflow_eq]
  cases a.msb <;> cases m.msb <;> cases (a - m).msb <;> rfl

/-- C is the borrow (rule R124). -/
theorem sub16_c (a m : Word) : (sub16 a m).c = decide (a.toNat < m.toNat) := by
  rw [sub16, decide_eq_decide]
  omega

/-- The flags of a 16-bit comparison in the words of the statement (rules R121, R124). -/
theorem diffFlags16_sub16 (f : Ccr) (a m : Word) :
    diffFlags16 f (sub16 a m) =
      nz16 { f with v := outside16 (a.toInt - m.toInt), c := decide (a.toNat < m.toNat) } (a - m) := by
  rw [diffFlags16, setNZ16_eq_nz16, sub16_v, sub16_c, sub16_r_eq]

/-- Settles O19: the operand is what `load16` answers, and the difference is that of the 16-bit number H:X. -/
theorem compareIndexRegister : Obligations.CompareIndexRegister := by
  intro o s m r hm hr
  have hx : s.hx.toNat = 256 * s.h.toNat + s.x.toNat := joinBytes_toNat s.h s.x
  have hdiff : s.hx - m = r := by
    apply BitVec.eq_of_toNat_eq
    rw [BitVec.toNat_sub]
    omega
  rw [exec, execCphx, load16_of_operand16 hm, Res.bind_next, diffFlags16_sub16, hdiff, hx]

/-! ### Read-modify-write -/

/-- An operation that gives the result and the flags of `Result` gives them in its three forms: in memory one byte is read and
the same byte stored (rule R129). -/
theorem readModifyWrite_of_unaryOp {op : UnaryOp} {inMemory : Ea → Instr} {onA onX : Instr}
    {Result : Ccr → Byte → Byte → Ccr → Prop} (hmem : ∀ e s, exec (inMemory e) s = rmwMem op e s)
    (ha : ∀ s, exec onA s = .next (rmwA op s)) (hx : ∀ s, exec onX s = .next (rmwX op s))
    (hop : ∀ {old v r f}, Result old v r f → op old v = (r, f)) : ReadModifyWrite inMemory onA onX Result := by
  intro s r f
  refine ⟨fun e hs h => ?_, fun h => ?_, fun h => ?_⟩
  · rw [hmem, rmwMem_eq_next.2 ⟨mapped_of_storable hs, rfl⟩, hop h]
    exact stores_of_poke { s with ccr := f } hs
  · rw [ha, rmwA, hop h]
  · rw [hx, rmwX, hop h]

/-- Subtracting 1 leaves the signed bytes exactly at $80 (rule R125). -/
theorem outside8_sub_one (v : Byte) : outside8 (v.toInt - 1) = decide (v = 0x80) := by
  have hedge : v = 0x80 ↔ v.toInt = -128 := BitVec.toInt_inj.symm
  have hlow : -128 ≤ v.toInt := BitVec.le_toInt v
  have hhigh : v.toInt < 128 := BitVec.toInt_lt
  rw [outside8, ← Bool.decide_or, decide_eq_decide, hedge]
  omega

/-- DEC's result and flags, from the result as a number (rules R125, R190). -/
theorem decOp_eq {f : Ccr} {v r : Byte} (hr : (r.toNat + 1) % 256 = v.toNat) :
    decOp f v = (r, nz8 { f with v := outside8 (v.toInt - 1) } r) := by
  have hdiff : v - 1 = r := BitVec.sub_eq_iff_eq_add.2 (BitVec.eq_of_toNat_eq (by rw [← hr, BitVec.toNat_add]; rfl))
  rw [decOp, hdiff, setNZ8_eq_nz8, outside8_sub_one]

/-- Settles O21: `incOp` and `decOp` in their three forms. -/
theorem incrementsAndDecrements : Obligations.IncrementsAndDecrements := by
  constructor
  · refine readModifyWrite_of_unaryOp (op := incOp) (fun _ _ => rfl) (fun _ => rfl) (fun _ => rfl) ?_
    rintro old v r f ⟨hr, rfl⟩
    exact incOp_eq hr
  · refine readModifyWrite_of_unaryOp (op := decOp) (fun _ _ => rfl) (fun _ => rfl) (fun _ => rfl) ?_
    rintro old v r f ⟨hr, rfl⟩
    exact decOp_eq hr

/-- NEG is a subtraction from zero (rule R125). -/
theorem negOp_eq {f : Ccr} {v r : Byte} (hr : (r.toNat + v.toNat) % 256 = 0) :
    negOp f v = (r, nz8 { f with v := outside8 (-v.toInt), c := decide (v.toNat ≠ 0) } r) := by
  have hdiff : IsDifference f 0 v (bit false) r (nz8 { f with v := outside8 (-v.toInt), c := decide (v.toNat ≠ 0) } r) := by
    have hzero : (0 : Byte).toNat = 0 := rfl
    have hbit : bit false = 0 := rfl
    have hsigned : (0 : Byte).toInt - v.toInt - bit false = -v.toInt := by simp [hbit]
    have hborrow : (0 : Byte).toNat < v.toNat + bit false ↔ v.toNat ≠ 0 := by omega
    refine ⟨by omega, ?_⟩
    rw [hsigned, decide_eq_decide.2 hborrow]
  obtain ⟨hresult, hflags⟩ := isDifference_iff.1 hdiff
  rw [negOp, ← hresult, ← hflags]

/-- COM's result and flags, from the result as a number (rules R127, R224). -/
theorem comOp_eq {f : Ccr} {v r : Byte} (hr : r.toNat = 255 - v.toNat) :
    comOp f v = (r, nz8 { f with v := false, c := true } r) := by
  have hnot : ~~~v = r := BitVec.eq_of_toNat_eq (BitVec.toNat_not.trans hr.symm)
  rw [comOp, hnot, logicFlags_eq_plain]
  rfl

/-- Settles O22: `negOp` and `comOp` in their three forms. -/
theorem negationsAndComplements : Obligations.NegationsAndComplements := by
  constructor
  · refine readModifyWrite_of_unaryOp (op := negOp) (fun _ _ => rfl) (fun _ => rfl) (fun _ => rfl) ?_
    rintro old v r f ⟨hr, rfl⟩
    exact negOp_eq hr
  · refine readModifyWrite_of_unaryOp (op := comOp) (fun _ _ => rfl) (fun _ => rfl) (fun _ => rfl) ?_
    rintro old v r f ⟨hr, rfl⟩
    exact comOp_eq hr

end Sys2Proof.Proofs

/-!
PROOFS. MUL, DIV and DAA: O23, O24 and O25. For O26, rule R195's table corrects each digit of a sum of packed-BCD bytes, and a byte
so corrected is the decimal sum.
-/

namespace Sys2Proof.Proofs

open Sys2Proof Sys2Proof.Machine Sys2Proof.Claims

/-! ### MUL and DIV -/

/-- Settles O23: the product of two bytes fits the word whose halves go to X and A. -/
theorem multiply : Obligations.Multiply := by
  refine ⟨rfl, rfl, fun s hi lo h => ?_⟩
  have hprod : BitVec.ofNat 16 (s.x.toNat * s.a.toNat) = joinBytes hi lo := by rw [← h, ← joinBytes_eq_ofNat]
  simp only [exec, execMul, hprod, hiByte_joinBytes, loByte_joinBytes]

/-- Settles O24: quotient and remainder are unique, and where X is at most H the quotient needs more than 8 bits. -/
theorem divide : Obligations.Divide := by
  intro s
  have hpos : s.x ≠ 0 ↔ 0 < s.x.toNat := BitVec.toNat_inj.symm.not.trans Nat.pos_iff_ne_zero.symm
  refine ⟨fun q r hdiv hr => ?quotient, fun hle => ?overflow⟩
  case quotient =>
    have hx : 0 < s.x.toNat := Nat.zero_lt_of_lt hr
    have hn : r.toNat + s.x.toNat * q.toNat = s.h.toNat * 256 + s.a.toNat := by
      rw [Nat.mul_comm s.x.toNat, Nat.mul_comm s.h.toNat, hdiv, Nat.add_comm]
    obtain ⟨hq, hrem⟩ := (Nat.div_mod_unique hx).2 ⟨hn, hr⟩
    have hfits : q.toNat ≤ 255 := Nat.le_of_lt_succ q.isLt
    simp only [exec, execDiv, hq, hrem, BitVec.ofNat_toNat, BitVec.setWidth_eq]
    exact if_pos ⟨hpos.2 hx, hfits⟩
  case overflow =>
    have hopen : ¬(s.x ≠ 0 ∧ (s.h.toNat * 256 + s.a.toNat) / s.x.toNat ≤ 255) := by
      rintro ⟨hx, hfits⟩
      have hbig : 256 ≤ (s.h.toNat * 256 + s.a.toNat) / s.x.toNat := (Nat.le_div_iff_mul_le (hpos.1 hx)).2 (by omega)
      omega
    exact ⟨_, if_neg hopen, rfl⟩

/-! ### DAA -/

/-- The model's test of a row is the statement's (rule R195). -/
theorem rowMatches_iff {s : State} {row : DaaRow} : RowMatches s row ↔ daaMatches s.ccr.c s.ccr.h s.a row = true :=
  daaMatches_iff.symm

/-- DAA with a row for its input (rule R195). -/
theorem exec_daa_of_row {s : State} {row : DaaRow} (h : daaAdjust s.cfg.daaFn s.ccr.c s.ccr.h s.a = some row) :
    exec .daa s = .next { s.drawn 1 with
      a := s.a + row.add
      ccr := nz8 { s.ccr with v := Config.draw1 s.draws, c := row.newC } (s.a + row.add) } := by
  rw [← setNZ8_eq_nz8, exec, execDaa, h]

/-- Settles O25: the row of the statement is the one `daaAdjust` finds. -/
theorem decimalAdjust : Obligations.DecimalAdjust := by
  refine ⟨rfl, fun s => ⟨fun before row after he hb hrow r hr => ?row, fun hnone => ?free⟩⟩
  case row =>
    have hfind : daaAdjust s.cfg.daaFn s.ccr.c s.ccr.h s.a = some row :=
      daaAdjust_of_first he (fun q hq => rowMatches_iff.not.1 (hb q hq)) (rowMatches_iff.1 hrow)
    have hsum : s.a + row.add = r := BitVec.eq_of_toNat_eq ((BitVec.toNat_add s.a row.add).trans hr.symm)
    exact ⟨_, exec_daa_of_row hfind, by rw [hsum]; rfl⟩
  case free =>
    have hfind : daaAdjust s.cfg.daaFn s.ccr.c s.ccr.h s.a = none :=
      daaAdjust_eq_none.2 fun q hq => rowMatches_iff.not.1 (hnone q hq)
    exact ⟨_, by rw [exec, execDaa, hfind], rfl⟩

/-! ### Decimal addition -/

/-- A condition counted as a number. -/
theorem bit_decide (p : Prop) [Decidable p] : p ∧ bit (decide p) = 1 ∨ ¬p ∧ bit (decide p) = 0 := by
  by_cases hp : p <;> simp [hp, bit]

/-- What `row` does to a sum with `hi` in its high digits and `lo` in its low ones: $06 is added where the low digit exceeds 9, $60
where the high digit with the decimal carry from the low one does, and the latter is the new C. -/
def CorrectsDigits (hi lo : Nat) (row : DaaRow) : Prop :=
  row.newC = decide (9 < hi + bit (decide (9 < lo))) ∧ row.add.toNat = 6 * bit (decide (9 < lo)) + 96 * bit row.newC

/-- For two decimal digits added in each nibble, with the flags C and H of the addition, rule R195's table has a first row, and it
corrects each digit. -/
theorem daaAdjust_digitSums : ∀ hi < 19, ∀ lo < 20,
    ∃ row ∈ daaAdjust daaRows (decide (255 < 16 * hi + lo)) (decide (15 < lo)) (BitVec.ofNat 8 (16 * hi + lo)),
      CorrectsDigits hi lo row := by
  unfold CorrectsDigits
  decide

/-- A byte made of two decimal digits. -/
theorem bcd_of_digits {r : Byte} {high low : Nat} (hr : r.toNat = 16 * high + low) (hhigh : high ≤ 9) (hlow : low ≤ 9) :
    Bcd r ∧ decimal r = 10 * high + low := by
  rw [Bcd, decimal]
  omega

/-- A sum corrected digit by digit is the packed-BCD sum modulo 100, and the new C is the decimal carry. -/
theorem bcd_of_correctsDigits {hi lo : Nat} {r : Byte} {row : DaaRow} (hhi : hi < 19) (hlo : lo < 20)
    (hrow : CorrectsDigits hi lo row) (hr : r.toNat = (16 * hi + lo + row.add.toNat) % 256) :
    Bcd r ∧ decimal r = (10 * hi + lo) % 100 ∧ row.newC = decide (99 < 10 * hi + lo) := by
  obtain ⟨hnewC, hadd⟩ := hrow
  have hlowCarry := bit_decide (9 < lo)
  have hhighCarry := bit_decide (9 < hi + bit (decide (9 < lo)))
  rw [hnewC] at hadd
  obtain ⟨low, hlow⟩ : ∃ low, lo = 10 * bit (decide (9 < lo)) + low := Nat.exists_eq_add_of_le (by omega)
  obtain ⟨high, hhigh⟩ : ∃ high, hi + bit (decide (9 < lo)) = 10 * bit (decide (9 < hi + bit (decide (9 < lo)))) + high :=
    Nat.exists_eq_add_of_le (by omega)
  have hdigits : r.toNat = 16 * high + low := by omega
  obtain ⟨hbcd, hdecimal⟩ := bcd_of_digits hdigits (by omega) (by omega)
  refine ⟨hbcd, by omega, ?_⟩
  rw [hnewC, decide_eq_decide]
  omega

/-- DAA after an addition of packed-BCD bytes makes the sum decimal (rules R122, R195). -/
theorem exec_daa_of_isSum {s : State} {old : Ccr} {x y : Byte} {c : Bool} (hfn : s.cfg.daaFn = daaRows) (hx : Bcd x) (hy : Bcd y)
    (hsum : IsSum old x y (bit c) s.a s.ccr) :
    ∃ u, exec .daa s = .next u ∧ Bcd u.a ∧ decimal u.a = (decimal x + decimal y + bit c) % 100 ∧
      u.ccr.c = decide (99 < decimal x + decimal y + bit c) := by
  obtain ⟨ha, hflags⟩ := hsum
  obtain ⟨hxhi, hxlo⟩ := hx
  obtain ⟨hyhi, hylo⟩ := hy
  have hbit := bit_le_one c
  obtain ⟨hi, hhi⟩ : ∃ hi, hi = x.toNat / 16 + y.toNat / 16 := ⟨_, rfl⟩
  obtain ⟨lo, hlo⟩ : ∃ lo, lo = x.toNat % 16 + y.toNat % 16 + bit c := ⟨_, rfl⟩
  have htotal : x.toNat + y.toNat + bit c = 16 * hi + lo := by omega
  have hdecimal : decimal x + decimal y + bit c = 10 * hi + lo := by
    rw [decimal, decimal]
    omega
  have hhi19 : hi < 19 := by omega
  have hlo20 : lo < 20 := by omega
  rw [htotal] at ha
  obtain ⟨row, hrow, hdigits⟩ := daaAdjust_digitSums hi hhi19 lo hlo20
  have hfind : daaAdjust s.cfg.daaFn s.ccr.c s.ccr.h s.a = some row := by
    have hsa : s.a = BitVec.ofNat 8 (16 * hi + lo) :=
      BitVec.eq_of_toNat_eq (ha.trans (BitVec.toNat_ofNat (16 * hi + lo) 8).symm)
    rw [hfn, hflags, htotal, ← hlo, hsa]
    exact hrow
  have hr : (s.a + row.add).toNat = (16 * hi + lo + row.add.toNat) % 256 := by
    rw [BitVec.toNat_add, ha, Nat.mod_add_mod]
  rw [hdecimal]
  exact ⟨_, exec_daa_of_row hfind, bcd_of_correctsDigits hhi19 hlo20 hdigits hr⟩

/-- An instruction that gives A the sum of A and `m` with the flags of the addition, then DAA: the decimal sum (rule R195). -/
theorem decimal_sum_of_exec {i : Instr} {s : State} {m : Byte} {c : Bool} (hfn : s.cfg.daaFn = daaRows) (ha : Bcd s.a) (hm : Bcd m)
    (hexec : ∀ {r f}, IsSum s.ccr s.a m (bit c) r f → exec i s = .next { s with a := r, ccr := f }) :
    ∃ t u, exec i s = .next t ∧ exec .daa t = .next u ∧ Bcd u.a ∧ decimal u.a = (decimal s.a + decimal m + bit c) % 100 ∧
      u.ccr.c = decide (99 < decimal s.a + decimal m + bit c) := by
  have hsum : IsSum s.ccr s.a m (bit c) (add8 s.a m c).r (sumFlags s.ccr (add8 s.a m c)) := isSum_iff.2 ⟨rfl, rfl⟩
  obtain ⟨u, hu⟩ := exec_daa_of_isSum (s := { s with a := (add8 s.a m c).r, ccr := sumFlags s.ccr (add8 s.a m c) }) hfn ha hm hsum
  exact ⟨_, u, hexec hsum, hu⟩

/-- Settles O26: ADD adds with a clear carry, ADC with the flag C. -/
theorem decimalAddition : Obligations.DecimalAddition := by
  intro o s m hfn hm ha hbcd
  exact ⟨decimal_sum_of_exec (c := false) hfn ha hbcd (exec_add_of_operand8 hm),
    decimal_sum_of_exec (c := s.ccr.c) hfn ha hbcd (exec_adc_of_operand8 hm)⟩

end Sys2Proof.Proofs

/-!
PROOFS. The comparisons that the flags of a subtraction decide, and O45: each branch condition is a combination of them.
-/

namespace Sys2Proof.Proofs

open Sys2Proof Sys2Proof.Machine Sys2Proof.Claims

/-- C, Z and N xor V after a comparison are the unsigned, the equality and the signed comparison (rule R123). -/
theorem comparison_of_isDifference {old f : Ccr} {a m d : Byte} (h : IsDifference old a m 0 d f) :
    f.c = decide (a.toNat < m.toNat) ∧ f.z = decide (a = m) ∧ (f.n ^^ f.v) = decide (a.toInt < m.toInt) := by
  obtain ⟨hd, rfl⟩ := h
  have hc : decide (a.toNat < m.toNat + 0) = decide (a.toNat < m.toNat) := rfl
  have hz : decide (d.toNat = 0) = decide (a = m) := by
    rw [decide_eq_decide, ← BitVec.toNat_inj]
    omega
  have hn : d.getLsbD 7 = decide (128 ≤ d.toNat) := (BitVec.msb_eq_getLsbD_last d).symm.trans (msb_eq_decide_byte d)
  refine ⟨hc, hz, ?_⟩
  change (d.getLsbD 7 ^^ outside8 (a.toInt - m.toInt - 0)) = decide (a.toInt < m.toInt)
  rw [hn, outside8, toInt_byte, toInt_byte, ← Bool.decide_or, Bool.eq_iff_iff]
  simp only [Bool.xor_iff_ne, ne_eq, decide_eq_decide, decide_eq_true_eq]
  omega

/-- A branch goes to its target where its condition holds, and only PC changes (rules R120, R260). -/
theorem branchIf_of_target {s : State} {rr : Byte} {p : Word} (h : BranchTarget s rr p) {cond : Bool} {P : Prop} [Decidable P]
    (hcond : cond = decide P) : (.next (s.branchIf cond rr) : Res State) = .next { s with pc := if P then p else s.pc } := by
  have hp : s.pc + sext16 rr = p :=
    BitVec.eq_of_toNat_eq (Nat.cast_injective ((add_sext16_toNat s.pc rr).trans h.symm))
  rw [State.branchIf, hp, hcond]
  simp only [decide_eq_true_eq]

/-- Settles O45: each condition is a Boolean combination of the three comparisons. -/
theorem branchesAfterCompare : Obligations.BranchesAfterCompare := by
  intro o s t m rr p hm hcmp hp
  have hdiff : IsDifference s.ccr s.a m (bit false) _ _ := isDifference_iff.2 ⟨rfl, rfl⟩
  have ht : t.ccr = diffFlags s.ccr (sub8 s.a m false) := by
    rw [exec_cmp_of_operand8 hm hdiff] at hcmp
    cases hcmp
    rfl
  rw [← ht] at hdiff
  have hunsigned : s.a = m ↔ s.a.toNat = m.toNat := BitVec.toNat_inj.symm
  have hsigned : s.a = m ↔ s.a.toInt = m.toInt := BitVec.toInt_inj.symm
  obtain ⟨hc, hz, hnv⟩ := comparison_of_isDifference hdiff
  refine ⟨branchIf_of_target hp ?bhi, branchIf_of_target hp ?bls, branchIf_of_target hp ?bcc, branchIf_of_target hp ?bhs,
    branchIf_of_target hp hc, branchIf_of_target hp hc, branchIf_of_target hp ?bne, branchIf_of_target hp hz,
    branchIf_of_target hp ?bge, branchIf_of_target hp hnv, branchIf_of_target hp ?bgt, branchIf_of_target hp ?ble⟩
  case bhi =>
    rw [hc, hz, ← Bool.decide_or, ← decide_not, decide_eq_decide, hunsigned]
    omega
  case bls =>
    rw [hc, hz, ← Bool.decide_or, decide_eq_decide, hunsigned]
    omega
  case bcc | bhs =>
    rw [hc, ← decide_not, decide_eq_decide]
    omega
  case bne => rw [hz, ← decide_not]
  case bge =>
    rw [hnv, ← decide_not, decide_eq_decide]
    omega
  case bgt =>
    rw [hnv, hz, ← Bool.decide_or, ← decide_not, decide_eq_decide, hsigned]
    omega
  case ble =>
    rw [hnv, hz, ← Bool.decide_or, decide_eq_decide, hsigned]
    omega

end Sys2Proof.Proofs

/-!
PROOFS. Logic, shifts, rotates and single bits (O27 to O32). `accumulatorOp_of_bitwise` reads an operation off its bits, the
`…Op_eq` lemmas give each shift and rotate as arithmetic on numbers, and `readModifyWrite_of_unaryOp` carries it to its three forms.
-/

namespace Sys2Proof.Proofs

open Sys2Proof Sys2Proof.Machine Sys2Proof.Claims

/-! ### Logic -/

/-- An operation that replaces A by a byte whose bits come from the bits of A and the operand, with the flags of logic
(rules R127, R220 to R222). -/
theorem accumulatorOp_of_bitwise {op : Opnd8 → Instr} {combine : Byte → Byte → Byte} {onBits : Bool → Bool → Bool}
    (hexec : ∀ {o s m}, load8 o s = .next m →
      exec (op o) s = .next { s with a := combine s.a m, ccr := logicFlags s.ccr (combine s.a m) })
    (hbits : ∀ {x y : Byte} {k : Nat}, (combine x y).getLsbD k = onBits (x.getLsbD k) (y.getLsbD k)) :
    AccumulatorOp op fun s m r f =>
      (∀ k < 8, r.getLsbD k = onBits (s.a.getLsbD k) (m.getLsbD k)) ∧ f = plain s.ccr r := by
  rintro o s m r f hm ⟨hr, rfl⟩
  obtain rfl : r = combine s.a m := BitVec.eq_of_getLsbD_eq fun k hk => (hr k hk).trans hbits.symm
  rw [hexec (load8_of_operand8 hm), logicFlags_eq_plain]

theorem exec_and_of_load8 {o : Opnd8} {s : State} {m : Byte} (h : load8 o s = .next m) :
    exec (.and o) s = .next { s with a := s.a &&& m, ccr := logicFlags s.ccr (s.a &&& m) } := by
  rw [exec, execAnd, h, Res.bind_next]

theorem exec_ora_of_load8 {o : Opnd8} {s : State} {m : Byte} (h : load8 o s = .next m) :
    exec (.ora o) s = .next { s with a := s.a ||| m, ccr := logicFlags s.ccr (s.a ||| m) } := by
  rw [exec, execOra, h, Res.bind_next]

theorem exec_eor_of_load8 {o : Opnd8} {s : State} {m : Byte} (h : load8 o s = .next m) :
    exec (.eor o) s = .next { s with a := s.a ^^^ m, ccr := logicFlags s.ccr (s.a ^^^ m) } := by
  rw [exec, execEor, h, Res.bind_next]

/-- BIT writes only the flags of the conjunction (rule R223). -/
theorem exec_bit_of_load8 {o : Opnd8} {s : State} {m : Byte} (h : load8 o s = .next m) :
    exec (.bit o) s = .next { s with ccr := plain s.ccr (s.a &&& m) } := by
  rw [exec, execBit, h, Res.bind_next, logicFlags_eq_plain]

/-- Settles O27: AND, ORA and EOR by their bits, and BIT is AND's flags without its result. -/
theorem logicalOperations : Obligations.LogicalOperations := by
  refine ⟨accumulatorOp_of_bitwise exec_and_of_load8 BitVec.getLsbD_and,
    accumulatorOp_of_bitwise exec_ora_of_load8 BitVec.getLsbD_or,
    accumulatorOp_of_bitwise exec_eor_of_load8 BitVec.getLsbD_xor, ?bit⟩
  case bit =>
    rintro o s m r f hm ⟨rfl, d, hd, rfl⟩
    obtain rfl : d = s.a &&& m := BitVec.eq_of_getLsbD_eq fun k hk => (hd k hk).trans BitVec.getLsbD_and.symm
    rw [exec_bit_of_load8 (load8_of_operand8 hm)]

/-! ### The two end bits of a byte and the flags of a shift -/

theorem getLsbD_seven_eq (b : Byte) : b.getLsbD 7 = decide (128 ≤ b.toNat) :=
  (BitVec.msb_eq_getLsbD_last b).symm.trans (msb_eq_decide_byte b)

theorem getLsbD_zero_eq (b : Byte) : b.getLsbD 0 = decide (b.toNat % 2 = 1) := Nat.testBit_zero b.toNat

/-- The flags of a shift or rotate are N and Z of its result, the bit shifted out, and V = N xor C (rule R126). -/
theorem shiftFlags_eq_nz8 (f : Ccr) (r : Byte) (c : Bool) :
    shiftFlags f r c = nz8 { f with v := r.getLsbD 7 ^^ c, c := c } r := by
  rw [shiftFlags, setNZ8_eq_nz8, BitVec.msb_eq_getLsbD_last]

/-! ### Left shifts -/

/-- The signed double leaves the byte exactly where doubling changes the sign bit (rule R126). -/
theorem outside8_double {v r : Byte} (hr : r.toNat = 2 * v.toNat % 256) :
    outside8 (2 * v.toInt) = (r.getLsbD 7 ^^ decide (128 ≤ v.toNat)) := by
  have hv := v.isLt
  rw [outside8, toInt_byte, getLsbD_seven_eq, ← Bool.decide_or, Bool.eq_iff_iff]
  simp only [Bool.xor_iff_ne, ne_eq, decide_eq_decide, decide_eq_true_eq]
  omega

/-- LSL's result and flags, from the result as a number (rules R126, R226). -/
theorem lslOp_eq {f : Ccr} {v r : Byte} (hr : r.toNat = 2 * v.toNat % 256) :
    lslOp f v = (r, nz8 { f with v := outside8 (2 * v.toInt), c := decide (128 ≤ v.toNat) } r) := by
  have hshift : v <<< 1 = r := BitVec.eq_of_toNat_eq (by rw [hr, BitVec.toNat_shiftLeft, Nat.shiftLeft_eq, Nat.mul_comm])
  rw [lslOp, hshift, shiftFlags_eq_nz8, getLsbD_seven_eq v, outside8_double hr]

/-- Settles O28: both names run `lslOp` in their three forms. -/
theorem leftShifts : Obligations.LeftShifts := by
  constructor <;>
    exact readModifyWrite_of_unaryOp (op := lslOp) (fun _ _ => rfl) (fun _ => rfl) (fun _ => rfl)
      fun ⟨hr, hf⟩ => hf ▸ lslOp_eq hr

/-! ### Right shifts -/

/-- ASR's result and flags, from the result as a signed number (rules R126, R227). -/
theorem asrOp_eq {f : Ccr} {v r : Byte} (hr : r.toInt = v.toInt / 2) :
    asrOp f v = (r, nz8 { f with v := r.getLsbD 7 ^^ decide (v.toNat % 2 = 1), c := decide (v.toNat % 2 = 1) } r) := by
  have hshift : v.sshiftRight 1 = r :=
    BitVec.eq_of_toInt_eq (by rw [hr, BitVec.toInt_sshiftRight, Int.shiftRight_eq_div_pow]; rfl)
  rw [asrOp, hshift, shiftFlags_eq_nz8, getLsbD_zero_eq]

/-- LSR's result and flags, from the result as a number: N is 0, so V is C (rules R126, R228). -/
theorem lsrOp_eq {f : Ccr} {v r : Byte} (hr : r.toNat = v.toNat / 2) :
    lsrOp f v = (r, { f with
      v := decide (v.toNat % 2 = 1), n := false, z := decide (r.toNat = 0), c := decide (v.toNat % 2 = 1) }) := by
  have hshift : v >>> 1 = r := BitVec.eq_of_toNat_eq (by rw [hr, BitVec.toNat_ushiftRight, Nat.shiftRight_one])
  have hn : r.getLsbD 7 = false := by
    have hv := v.isLt
    rw [getLsbD_seven_eq, decide_eq_false_iff_not]
    omega
  rw [lsrOp, hshift, shiftFlags_eq_nz8, getLsbD_zero_eq, nz8, hn, Bool.false_xor]

/-- Settles O29: `asrOp` and `lsrOp` in their three forms. -/
theorem rightShifts : Obligations.RightShifts := by
  constructor
  · exact readModifyWrite_of_unaryOp (op := asrOp) (fun _ _ => rfl) (fun _ => rfl) (fun _ => rfl)
      fun ⟨hr, hf⟩ => hf ▸ asrOp_eq hr
  · exact readModifyWrite_of_unaryOp (op := lsrOp) (fun _ _ => rfl) (fun _ => rfl) (fun _ => rfl)
      fun ⟨hr, hf⟩ => hf ▸ lsrOp_eq hr

/-! ### Rotates -/

theorem rotateLeft_toNat (v : Byte) (c : Bool) : (rotateLeft v c).toNat = (2 * v.toNat + bit c) % 256 := by
  have hc := bit_le_one c
  rw [rotateLeft, append_toNat, ofBool_toNat, BitVec.extractLsb'_toNat]
  omega

theorem rotateRight_toNat (v : Byte) (c : Bool) : (rotateRight v c).toNat = v.toNat / 2 + 128 * bit c := by
  have hv := v.isLt
  rw [rotateRight, append_toNat, ofBool_toNat, BitVec.extractLsb'_toNat, Nat.shiftRight_one]
  omega

/-- ROL's result and flags, from the result as a number (rules R126, R229). -/
theorem rolOp_eq {f : Ccr} {v r : Byte} (hr : r.toNat = (2 * v.toNat + bit f.c) % 256) :
    rolOp f v = (r, nz8 { f with v := r.getLsbD 7 ^^ decide (128 ≤ v.toNat), c := decide (128 ≤ v.toNat) } r) := by
  have hrot : rotateLeft v f.c = r := BitVec.eq_of_toNat_eq ((rotateLeft_toNat v f.c).trans hr.symm)
  rw [rolOp, hrot, shiftFlags_eq_nz8, getLsbD_seven_eq v]

/-- ROR's result and flags, from the result as a number (rules R126, R230). -/
theorem rorOp_eq {f : Ccr} {v r : Byte} (hr : r.toNat = v.toNat / 2 + 128 * bit f.c) :
    rorOp f v = (r, nz8 { f with v := r.getLsbD 7 ^^ decide (v.toNat % 2 = 1), c := decide (v.toNat % 2 = 1) } r) := by
  have hrot : rotateRight v f.c = r := BitVec.eq_of_toNat_eq ((rotateRight_toNat v f.c).trans hr.symm)
  rw [rorOp, hrot, shiftFlags_eq_nz8, getLsbD_zero_eq]

/-- Settles O30: `rolOp` and `rorOp` in their three forms. -/
theorem rotates : Obligations.Rotates := by
  constructor
  · exact readModifyWrite_of_unaryOp (op := rolOp) (fun _ _ => rfl) (fun _ => rfl) (fun _ => rfl)
      fun ⟨hr, hf⟩ => hf ▸ rolOp_eq hr
  · exact readModifyWrite_of_unaryOp (op := rorOp) (fun _ _ => rfl) (fun _ => rfl) (fun _ => rfl)
      fun ⟨hr, hf⟩ => hf ▸ rorOp_eq hr

/-! ### BSET and BCLR -/

/-- `withBit` replaces the one bit and keeps the others (rules R231, R232). -/
theorem getLsbD_withBit (v : Byte) (n : BitVec 3) (b : Bool) {k : Nat} (hk : k < 8) :
    (withBit v n b).getLsbD k = if k = n.toNat then b else v.getLsbD k := by
  have hmask : ((1 : Byte) <<< n.toNat).getLsbD k = decide (k = n.toNat) := by
    have hn : n.toNat < 8 := n.isLt
    change (BitVec.twoPow 8 n.toNat).getLsbD k = _
    rw [BitVec.getLsbD_twoPow, decide_eq_true hn, Bool.true_and, decide_eq_decide, eq_comm]
  cases b with
  | true =>
    rw [withBit, if_pos rfl, BitVec.getLsbD_or, hmask]
    split <;> simp [*]
  | false =>
    rw [withBit, if_neg Bool.false_ne_true, BitVec.getLsbD_and, BitVec.getLsbD_not, hmask]
    split <;> simp [*]

/-- BSET and BCLR store the byte that has the one bit written and the others as read (rules R59, R231, R232). -/
theorem writeBit_stores {n : BitVec 3} {b : Bool} {dd r : Byte} {s : State} (h : Storable s [directAddress dd])
    (hr : ∀ k < 8, r.getLsbD k = if k = n.toNat then b else (s.data (directAddress dd)).getLsbD k) :
    Stores (writeBit n b dd s) s s [(directAddress dd, r)] := by
  obtain rfl : r = withBit (s.data (directAddress dd)) n b :=
    BitVec.eq_of_getLsbD_eq fun k hk => (hr k hk).trans (getLsbD_withBit _ n b hk).symm
  rw [writeBit_eq_next.2 ⟨mapped_of_storable h, rfl⟩]
  exact stores_of_poke s h

/-- Settles O31: both instructions are `writeBit`. -/
theorem bitSetAndClear : Obligations.BitSetAndClear :=
  fun _ _ _ _ h => ⟨writeBit_stores h, writeBit_stores h⟩

/-! ### Inherent operations -/

/-- The swapped nibbles as a number (rule R225). -/
theorem swappedNibbles_toNat (b : Byte) :
    (b.extractLsb' 0 4 ++ b.extractLsb' 4 4).toNat = 16 * (b.toNat % 16) + b.toNat / 16 := by
  have hb := b.isLt
  rw [append_toNat, BitVec.extractLsb'_toNat, BitVec.extractLsb'_toNat, Nat.shiftRight_eq_div_pow]
  omega

/-- NSA, from the new A as a number (rule R225). -/
theorem exec_nsa_of_toNat {s : State} {r : Byte} (hr : r.toNat = 16 * (s.a.toNat % 16) + s.a.toNat / 16) :
    exec .nsa s = .next { s with a := r } := by
  have hswap := BitVec.eq_of_toNat_eq ((swappedNibbles_toNat s.a).trans hr.symm)
  rw [exec, execNsa, hswap]

/-- Settles O32: NSA swaps the nibbles as numbers; the other four, the encodings and the cycles are as the model writes them. -/
theorem inherentOperations : Obligations.InherentOperations :=
  ⟨⟨rfl, rfl, rfl, rfl, rfl⟩, ⟨rfl, rfl, rfl, rfl, rfl⟩, fun _ => ⟨fun _ => exec_nsa_of_toNat, rfl, rfl, rfl, rfl⟩⟩

end Sys2Proof.Proofs

/-!
PROOFS. Control transfer (O33 to O38). Every conditional branch is `State.branchIf` on its condition, which `branchIf_of_target` reads
as the statements do; a call is two stores and a new PC, whatever its target.
-/

namespace Sys2Proof.Proofs

open Sys2Proof Sys2Proof.Machine Sys2Proof.Claims

/-! ### Branches on flags -/

theorem flagBranches_encode_cycles {row : (Byte → Instr) × Byte × (Ccr → Bool)} (hrow : row ∈ flagBranches) (rr : Byte) :
    encode (row.1 rr) = [row.2.1, rr] ∧ instrCycles (row.1 rr) = 3 := by
  revert row
  simp [flagBranches, encode, instrCycles]

/-- An instruction that branches on one condition branches on any equal one. -/
theorem branchIf_congr {s : State} {rr : Byte} {c d : Bool} (h : c = d) :
    (.next (s.branchIf c rr) : Res State) = .next (s.branchIf d rr) := by
  rw [h]

/-- Each row's condition is the one that its instruction branches on (rules R261 to R274, R277 to R280). -/
theorem exec_flagBranch {row : (Byte → Instr) × Byte × (Ccr → Bool)} (hrow : row ∈ flagBranches) (rr : Byte) (s : State) :
    exec (row.1 rr) s = .next (s.branchIf (row.2.2 s.ccr) rr) := by
  have hset (b : Bool) : b = decide (b = true) := Bool.decide_eq_true.symm
  have hclear (b : Bool) : (!b) = decide (b = false) := Bool.decide_eq_false.symm
  have hhigher : ∀ c z : Bool, (!(c || z)) = decide (c = false ∧ z = false) := by decide
  have hlowerOrSame : ∀ c z : Bool, (c || z) = decide (c = true ∨ z = true) := by decide
  have hgreaterOrEqual : ∀ n v : Bool, (!(n ^^ v)) = decide (n = v) := by decide
  have hless : ∀ n v : Bool, (n ^^ v) = decide (n ≠ v) := by decide
  have hgreater : ∀ z n v : Bool, (!(z || (n ^^ v))) = decide (z = false ∧ n = v) := by decide
  have hlessOrEqual : ∀ z n v : Bool, (z || (n ^^ v)) = decide (z = true ∨ n ≠ v) := by decide
  revert row
  simp only [flagBranches, List.forall_mem_cons]
  exact ⟨rfl, rfl,
    branchIf_congr (hhigher _ _), branchIf_congr (hlowerOrSame _ _),
    branchIf_congr (hclear _), branchIf_congr (hclear _), branchIf_congr (hset _), branchIf_congr (hset _),
    branchIf_congr (hclear _), branchIf_congr (hset _), branchIf_congr (hclear _), branchIf_congr (hset _),
    branchIf_congr (hclear _), branchIf_congr (hset _), branchIf_congr (hclear _), branchIf_congr (hset _),
    branchIf_congr (hgreaterOrEqual _ _), branchIf_congr (hless _ _),
    branchIf_congr (hgreater _ _ _), branchIf_congr (hlessOrEqual _ _ _), nofun⟩

/-- Settles O33: the rows' encodings and cycles by the tables, their effect by the one branch operation. -/
theorem flagBranches : Obligations.FlagBranches := by
  intro row hrow rr
  obtain ⟨hencode, hcycles⟩ := flagBranches_encode_cycles hrow rr
  refine ⟨hencode, hcycles, fun s p hp => ?_⟩
  rw [exec_flagBranch hrow]
  exact branchIf_of_target hp Bool.decide_eq_true.symm

/-! ### Branches on the IRQ pin and on a bit of memory -/

/-- BRSET and BRCLR: C gets the bit, and the branch is taken where the bit is the one wanted (rules R281, R282). -/
theorem branchOnBit_of_target {n : BitVec 3} {want : Bool} {dd rr : Byte} {s : State} {p : Word} {b : Bool}
    (hp : BranchTarget s rr p) (hm : s.mapped (directAddress dd) = true) (hb : b = (s.data (directAddress dd)).getLsbD n.toNat) :
    branchOnBit n want dd rr s = .next { s with ccr := { s.ccr with c := b }, pc := if b = want then p else s.pc } := by
  rw [branchOnBit_eq_next.2 ⟨hm, rfl⟩, ← hb]
  exact branchIf_of_target (s := { s with ccr := { s.ccr with c := b } }) hp (beq_eq_decide b want)

/-- Settles O34: the pin is a condition like a flag, and both bit tests are `branchOnBit`. -/
theorem pinAndBitBranches : Obligations.PinAndBitBranches := by
  intro s rr dd p n hp
  refine ⟨branchIf_of_target hp Bool.decide_eq_false.symm, branchIf_of_target hp Bool.decide_eq_true.symm, fun hm b hb => ?_⟩
  exact ⟨branchOnBit_of_target hp hm hb, branchOnBit_of_target hp hm hb⟩

/-! ### CBEQ -/

/-- CBEQ with a readable operand: the post-increment of its mode, then the branch on equality (rules R119, R283). -/
theorem exec_cbeq_of_mapped {o : CbeqOpnd} {s : State} (rr : Byte) (h : s.mapped (cbeqAddress o s) = true) :
    exec (.cbeq o rr) s = .next ((cbeqAfter o s).branchIf (s.a == s.data (cbeqAddress o s)) rr) := by
  rw [exec, execCbeq, read8_of_mapped h, Res.bind_next]

/-- Settles O35: the modes differ in the state that the branch starts from. -/
theorem compareAndBranch : Obligations.CompareAndBranch := by
  intro s rr ii dd ff p hp
  refine ⟨branchIf_of_target hp (beq_eq_decide ..), branchIf_of_target hp (beq_eq_decide ..), fun o ho hm => ?plain,
    fun o ho hm hi lo hsum => ?postIncrement⟩
  case plain =>
    have hafter : cbeqAfter o s = s := by rcases ho with rfl | rfl <;> rfl
    rw [exec_cbeq_of_mapped rr hm, hafter]
    exact branchIf_of_target hp (beq_eq_decide ..)
  case postIncrement =>
    have hafter : cbeqAfter o s = { s with h := hi, x := lo } := by rcases ho with rfl | rfl <;> exact incHx_eq hsum
    rw [exec_cbeq_of_mapped rr hm, hafter]
    exact branchIf_of_target (s := { s with h := hi, x := lo }) hp (beq_eq_decide ..)

/-! ### DBNZ -/

theorem byte_sub_one_eq {v r : Byte} (h : (r.toNat + 1) % 256 = v.toNat) : v - 1 = r :=
  BitVec.sub_eq_iff_eq_add.2 (BitVec.eq_of_toNat_eq (h.symm.trans (BitVec.toNat_add r 1).symm))

/-- The branch on a decremented byte: past the instruction where it is zero, else to the target (rule R284). -/
theorem branchIf_ne_zero_of_target {s : State} {rr r : Byte} {p : Word} (hp : BranchTarget s rr p) :
    (.next (s.branchIf (r != 0) rr) : Res State) = .next { s with pc := if r.toNat = 0 then s.pc else p } := by
  have hzero : (r != 0) = decide ¬r.toNat = 0 := by
    rw [bne, beq_eq_decide, ← decide_not, decide_eq_decide, ← BitVec.toNat_inj]
    rfl
  rw [branchIf_of_target hp hzero, ite_not]

/-- Settles O36: each form decrements its byte and branches on the result; in memory that is one store. -/
theorem decrementAndBranch : Obligations.DecrementAndBranch := by
  rintro s rr r p q hp rfl
  refine ⟨fun e hs hr => ?memory, fun hr => ?onA, fun hr => ?onX⟩
  case memory =>
    have hm := mapped_of_storable hs
    rw [exec, execDbnz, read8_of_mapped hm, Res.bind_next, byte_sub_one_eq hr, write8_of_mapped r hm, Res.bind_next,
      branchIf_ne_zero_of_target (s := s.poke (effectiveAddress e s) r) hp]
    exact stores_of_poke { s with pc := if r.toNat = 0 then s.pc else p } hs
  case onA =>
    rw [exec, execDbnza, byte_sub_one_eq hr]
    exact branchIf_ne_zero_of_target (s := { s with a := r }) hp
  case onX =>
    rw [exec, execDbnzx, byte_sub_one_eq hr]
    exact branchIf_ne_zero_of_target (s := { s with x := r }) hp

/-! ### Calls, jumps and returns -/

/-- The model's sum is the target of the branch (rule R120). -/
theorem pc_add_sext16_of_target {s : State} {rr : Byte} {p : Word} (h : BranchTarget s rr p) : s.pc + sext16 rr = p :=
  BitVec.eq_of_toNat_eq (Nat.cast_injective ((add_sext16_toNat s.pc rr).trans h.symm))

/-- The end of BSR and JSR: the return address is stored low byte first, and PC is the target (rules R53, R285, R287). -/
theorem pushReturn_stores {s : State} {hi lo : Byte} (target : Word) (hs : Storable s [s.sp, s.sp - 1])
    (hpc : Halves hi lo s.pc) :
    Stores (Res.bind (pushReturn s) fun t => .next { t with pc := target }) s { s with sp := s.sp - 2, pc := target }
      [(s.sp, lo), (s.sp - 1, hi)] := by
  obtain ⟨hw, hm⟩ := hs
  have hjoin : joinBytes hi lo = s.pc := joinBytes_of_halves hpc
  have hlo : loByte s.pc = lo := by rw [← hjoin, loByte_joinBytes]
  have hhi : hiByte s.pc = hi := by rw [← hjoin, hiByte_joinBytes]
  have hsp : s.sp - 1 - 1 = s.sp - 2 := BitVec.sub_sub _ 1 1
  have hne : s.sp ≠ s.sp - 1 := by bv_omega
  rw [pushReturn_eq_next.2 ⟨hm _ (by simp), hm _ (by simp), rfl⟩, Res.bind_next, hlo, hhi, hsp]
  exact stores_of_pokes (cells := [(s.sp, lo), (s.sp - 1, hi)]) { s with sp := s.sp - 2, pc := target } hw (by simpa using hne)

/-- Settles O37: both instructions push the return address and go on at their target. -/
theorem calls : Obligations.Calls := by
  intro s hi lo hs hpc
  refine ⟨fun rr p hp => ?_, fun e => pushReturn_stores (effectiveAddress e s) hs hpc⟩
  rw [exec, execBsr, pc_add_sext16_of_target hp]
  exact pushReturn_stores p hs hpc

/-- RTS with a readable return address, high byte first (rules R53, R288). -/
theorem exec_rts_of_mapped {s : State} (hhi : s.mapped (s.sp + 1) = true) (hlo : s.mapped (s.sp + 2) = true) :
    exec .rts s = .next { s with sp := s.sp + 2, pc := joinBytes (s.data (s.sp + 1)) (s.data (s.sp + 2)) } := by
  have hsp : s.sp + 1 + 1 = s.sp + 2 := BitVec.add_assoc _ 1 1
  have hsecond : pull8 { s with sp := s.sp + 1 } = .next (s.data (s.sp + 2), { s with sp := s.sp + 2 }) := by
    rw [← hsp] at hlo ⊢
    exact pull8_eq_next.2 ⟨hlo, rfl⟩
  exact Res.bind_eq_next.2 ⟨_, pull8_eq_next.2 ⟨hhi, rfl⟩, Res.bind_eq_next.2 ⟨_, hsecond, rfl⟩⟩

/-- Settles O38: JMP is its equation, and RTS joins the two bytes that it pulls. -/
theorem jumpAndReturn : Obligations.JumpAndReturn := by
  refine fun s => ⟨fun _ => rfl, fun hhi hlo p hp => ?_⟩
  rw [exec_rts_of_mapped hhi hlo, joinBytes_of_halves hp]

end Sys2Proof.Proofs

/-!
PROOFS. System instructions (O39, O40, O42). The pushes of an exception are one list of stores, `entryCells`, so that taking an
exception through any vector meets `Enters`; the return from one is the five bytes above SP.
-/

namespace Sys2Proof.Proofs

open Sys2Proof Sys2Proof.Machine Sys2Proof.Claims

/-! ### Instructions that clear I -/

/-- CLI: I is clear, with the shadow of an I that was set (rules R312, R348). -/
theorem exec_cli (s : State) :
    exec .cli s =
      .next { s with ccr := { s.ccr with i := false }, cliShadow := decide (s.cfg.cliDelay = .one ∧ s.ccr.i = true) } := by
  have hshadow : (decide (s.cfg.cliDelay = .one) && s.ccr.i && !false) = decide (s.cfg.cliDelay = .one ∧ s.ccr.i = true) := by simp
  rw [exec, execCli, State.setCcrShadowing, hshadow]

/-- Settles O39: WAIT and STOP are their equations, CLI is the one write of the CCR with a shadow. -/
theorem interruptMaskClears : Obligations.InterruptMaskClears := fun s => ⟨exec_cli s, rfl, rfl⟩

/-! ### Taking an exception -/

/-- The stores of an exception: PCL, PCH, X, A and the CCR byte with the old I, from SP downward (rules R313, R337). -/
def entryCells (s : State) : List (Word × Byte) :=
  [(s.sp, loByte s.pc), (s.sp - 1, hiByte s.pc), (s.sp - 2, s.x), (s.sp - 3, s.a), (s.sp - 4, ccrByte s.cfg s.ccr)]

/-- They are the cells that the pushes of `takeException` go through. -/
theorem pushCells_eq_entryCells (s : State) :
    pushCells s.sp [loByte s.pc, hiByte s.pc, s.x, s.a, ccrByte s.cfg s.ccr] = entryCells s := by
  have h2 : s.sp - 1 - 1 = s.sp - 2 := BitVec.sub_sub _ 1 1
  have h3 : s.sp - 2 - 1 = s.sp - 3 := BitVec.sub_sub _ 2 1
  have h4 : s.sp - 3 - 1 = s.sp - 4 := BitVec.sub_sub _ 3 1
  simp only [pushCells, entryCells, h2, h3, h4]

theorem entryCells_nodup (s : State) : ((entryCells s).map Prod.fst).Nodup := by
  have hbelow : ∀ k : Word, k ≠ 0 → s.sp ≠ s.sp - k := fun k hk h => hk (sub_eq_self.1 h.symm)
  simp [entryCells, hbelow]

theorem entryCells_of_bytes {s : State} {pch pcl status : Byte} (hpc : Halves pch pcl s.pc) (hstatus : StatusByte s status) :
    entryCells s = [(s.sp, pcl), (s.sp - 1, pch), (s.sp - 2, s.x), (s.sp - 3, s.a), (s.sp - 4, status)] := by
  have hjoin : joinBytes pch pcl = s.pc := joinBytes_of_halves hpc
  have hbyte : ccrByte s.cfg s.ccr = status := BitVec.eq_of_toNat_eq ((statusByte_ccrByte s).trans hstatus.symm)
  rw [entryCells, hbyte, ← hjoin, loByte_joinBytes, hiByte_joinBytes]

/-- Memory after an exception is memory after its stores. -/
theorem takeException_sameMemory {s t : State} {vector : Word} (h : takeException vector s = .next t) :
    SameMemory (pokes s (entryCells s)) t := by
  obtain ⟨u, hu, -, -, rfl⟩ := takeException_eq_next.1 h
  have hmem := pushBytes_pokes hu
  rwa [pushCells_eq_entryCells] at hmem

/-- PC is the word at the vector as memory holds it after the pushes (rules R54, R337). -/
theorem takeException_pc {s t : State} {vector : Word} (h : takeException vector s = .next t) :
    Halves (t.peek vector) (t.peek (vector + 1)) t.pc := by
  obtain ⟨u, -, -, -, rfl⟩ := takeException_eq_next.1 h
  exact (joinBytes_toNat (u.peek vector) (u.peek (vector + 1))).symm

/-- Taking an exception completes where the stack is mapped and the vector lies in RAM or ROM. -/
theorem takeException_completes {s : State} {vector : Word}
    (hm : ∀ a ∈ [s.sp, s.sp - 1, s.sp - 2, s.sp - 3, s.sp - 4], s.mapped a = true) (hhi : s.holdsCode vector = true)
    (hlo : s.holdsCode (vector + 1) = true) : ∃ t, takeException vector s = .next t := by
  have hpushes : ∀ a ∈ [s.sp, s.sp - 1, s.sp - 2, s.sp - 3, s.sp - 4], Access.stop s (.data a) = none := fun a ha =>
    if_neg (State.mapped_iff.1 (hm a ha))
  obtain ⟨-, hcompletes⟩ := decidedBy_of_goesThrough (takeException_goesThrough vector s)
  apply hcompletes
  simpa [entryAccesses, stop_code_eq_none, hhi, and_assoc] using And.intro hpushes hlo

/-- Taking an exception while running meets `Enters`; its pushes are recorded as stores (rules R313, R337, R339). -/
theorem takeException_enters {s : State} (vector : Word) (hr : s.runState = .running) :
    Enters (takeException vector s) s vector (ramStores s [s.sp, s.sp - 1, s.sp - 2, s.sp - 3, s.sp - 4] ++ s.stored) := by
  intro pch pcl status hpc hstatus hs hhi hlo
  obtain ⟨hw, hm⟩ := hs
  obtain ⟨t, ht⟩ := takeException_completes hm hhi hlo
  obtain ⟨hmem, hstored, hdevice⟩ := takeException_sameMemory ht
  rw [← entryCells_of_bytes hpc hstatus]
  refine ⟨t, ht, takeException_pc ht, hstored.trans (pokes_stored _ s), ?frame, fun c hc => ?cell, fun b hb => ?other⟩
  case frame =>
    rw [← pokes_device, ← hdevice, ← hr]
    exact takeException_frame ht
  case cell => exact (State.peek_congr hmem c.1).trans (pokes_peek_of_mem hw (entryCells_nodup s) hc)
  case other => exact (State.peek_congr hmem b).trans (pokes_peek_of_not_mem hb)

/-- Settles O40: SWI is the exception sequence at its own vector. -/
theorem softwareInterrupt : Obligations.SoftwareInterrupt := fun _ hr => takeException_enters swiVector hr

/-! ### Returning from an exception -/

/-- RTI with a readable stack: the CCR byte, A, X and PC, high byte first, from the five bytes above SP (rules R314, R341). -/
theorem exec_rti_of_mapped {s : State} (hm : ∀ k ∈ ([1, 2, 3, 4, 5] : List Word), s.mapped (s.sp + k) = true) :
    exec .rti s = .next { s with
      ccr := ccrOfByte (s.data (s.sp + 1))
      a := s.data (s.sp + 2)
      x := s.data (s.sp + 3)
      pc := joinBytes (s.data (s.sp + 4)) (s.data (s.sp + 5))
      sp := s.sp + 5 } := by
  have h2 : s.sp + 1 + 1 = s.sp + 2 := BitVec.add_assoc _ 1 1
  have h3 : s.sp + 2 + 1 = s.sp + 3 := BitVec.add_assoc _ 2 1
  have h4 : s.sp + 3 + 1 = s.sp + 4 := BitVec.add_assoc _ 3 1
  have h5 : s.sp + 4 + 1 = s.sp + 5 := BitVec.add_assoc _ 4 1
  apply returnFromException_eq_next.2
  rw [h2, h3, h4, h5]
  exact ⟨by simpa using hm, rfl⟩

/-- Settles O42: the pulled CCR byte gives the flags, and its bits 6 and 5 are not among them. -/
theorem returnFromInterrupt : Obligations.ReturnFromInterrupt := by
  intro s f p hm hf hp
  rw [exec_rti_of_mapped hm, eq_ccrOfByte_of_flagsOf hf, joinBytes_of_halves hp]

end Sys2Proof.Proofs

/-!
PROOFS. Exceptions and boundaries (O41, O43, O49, O51). Interrupt entry is the exception sequence of a running CPU with the old
record of stores; either entry leaves its frame where RTI looks for it. A boundary is decided by reset and `countingRequests`.
-/

namespace Sys2Proof.Proofs

open Sys2Proof Sys2Proof.Machine Sys2Proof.Claims

/-! ### Interrupt entry -/

/-- The vectors of the 126 requests lie at $FFFA - 2n, without a borrow (rule R331). -/
theorem requestVector_eq {n : Nat} {vector : Word} (hn : n < 126) (hv : vector.toNat = 0xFFFA - 2 * n) :
    requestVector n = vector := by
  apply BitVec.eq_of_toNat_eq
  rw [hv, requestVector, BitVec.toNat_sub, BitVec.toNat_ofNat]
  simp only [BitVec.reduceToNat]
  omega

/-- `Enters` names `stored` apart: an outcome that enters still does with another record of stores. -/
theorem enters_withStored {r : Res State} {s : State} {vector : Word} {recorded : List Word} (kept : List Word)
    (h : Enters r s vector recorded) : Enters (Res.bind r fun t => .next { t with stored := kept }) s vector kept := by
  intro pch pcl status hpc hstatus hs hhi hlo
  obtain ⟨t, rfl, hvector, -, hframe, hcells, hothers⟩ := h pch pcl status hpc hstatus hs hhi hlo
  exact ⟨{ t with stored := kept }, rfl, hvector, rfl, congrArg (fun u : State => { u with stored := kept }) hframe, hcells, hothers⟩

/-- Settles O41: the sequence of `takeException_enters`, from the state that runs, with the record of stores put back. (The
obligation's own name is that of the model's operation.) -/
theorem interruptEntry_enters : Obligations.InterruptEntry := by
  intro s n vector hn hv
  have henters : Enters (takeException vector { s with runState := .running }) s vector _ :=
    takeException_enters (s := { s with runState := .running }) vector rfl
  rw [interruptEntry, requestVector_eq hn hv]
  exact enters_withStored s.stored henters

/-! ### Return from a handler -/

/-- State `u` stands on the frame that an exception taken in `s` pushed: SP is below it and memory holds it. -/
def OnFrameOf (s u : State) : Prop :=
  u.sp = s.sp - 5 ∧ u.mem = (pokes s (entryCells s)).mem ∧ u.cfg = s.cfg

theorem onFrameOf_congr {s t u : State} (h : OnFrameOf s t) (hsp : u.sp = t.sp) (hmem : u.mem = t.mem) (hcfg : u.cfg = t.cfg) :
    OnFrameOf s u := by
  rwa [OnFrameOf, hsp, hmem, hcfg]

theorem takeException_onFrameOf {s t : State} {vector : Word} (h : takeException vector s = .next t) : OnFrameOf s t := by
  obtain ⟨hmem, -, -⟩ := takeException_sameMemory h
  rw [takeException_frame h]
  exact ⟨rfl, hmem, rfl⟩

/-- Making the CPU run and restoring the record of stores leave the frame as it is. -/
theorem interruptEntry_onFrameOf {n : Nat} {s t : State} (h : interruptEntry n s = .next t) : OnFrameOf s t := by
  obtain ⟨u, hu, rfl⟩ := interruptEntry_eq_next.1 h
  have hframe : OnFrameOf { s with runState := .running } u := takeException_onFrameOf hu
  exact hframe

/-- On a frame in RAM a data access gives the byte that was pushed there. -/
theorem data_of_onFrameOf {s u : State} (hw : s.mem.wf = true) (h : OnFrameOf s u) {a : Word} {v : Byte}
    (hc : (a, v) ∈ entryCells s) (hram : s.kindAt a = .ram) : u.mapped a = true ∧ u.data a = v := by
  obtain ⟨-, hmem, hcfg⟩ := h
  have hkind : u.kindAt a = .ram := (State.kindAt_congr hcfg a).trans hram
  have hpushed : (pokes s (entryCells s)).peek a = v :=
    (pokes_peek_of_mem hw (entryCells_nodup s) hc).trans (if_pos hram)
  refine ⟨State.mapped_iff.2 (by rw [hkind]; nofun), ?_⟩
  rw [State.data_of_ram hkind, State.peek_congr hmem, hpushed]

/-- RTI on a frame in RAM gives back what the exception pushed and the SP it started from (rules R341, R342). -/
theorem exec_rti_of_onFrameOf {s u : State} (hw : s.mem.wf = true)
    (hram : ∀ k ∈ ([0, 1, 2, 3, 4] : List Word), s.kindAt (s.sp - k) = .ram) (h : OnFrameOf s u) :
    exec .rti u = .next { u with a := s.a, x := s.x, pc := s.pc, sp := s.sp, ccr := s.ccr } := by
  have hsp : u.sp = s.sp - 5 := h.1
  have h1 : u.sp + 1 = s.sp - 4 := by bv_omega
  have h2 : u.sp + 2 = s.sp - 3 := by bv_omega
  have h3 : u.sp + 3 = s.sp - 2 := by bv_omega
  have h4 : u.sp + 4 = s.sp - 1 := by bv_omega
  have h5 : u.sp + 5 = s.sp := by bv_omega
  simp only [List.forall_mem_cons, sub_zero] at hram
  obtain ⟨hram0, hram1, hram2, hram3, hram4, -⟩ := hram
  obtain ⟨hm0, hpcl⟩ := data_of_onFrameOf (v := loByte s.pc) hw h (by simp [entryCells]) hram0
  obtain ⟨hm1, hpch⟩ := data_of_onFrameOf (v := hiByte s.pc) hw h (by simp [entryCells]) hram1
  obtain ⟨hm2, hx⟩ := data_of_onFrameOf (v := s.x) hw h (by simp [entryCells]) hram2
  obtain ⟨hm3, ha⟩ := data_of_onFrameOf (v := s.a) hw h (by simp [entryCells]) hram3
  obtain ⟨hm4, hccr⟩ := data_of_onFrameOf (v := ccrByte s.cfg s.ccr) hw h (by simp [entryCells]) hram4
  have hmapped : ∀ k ∈ ([1, 2, 3, 4, 5] : List Word), u.mapped (u.sp + k) = true := by
    simp only [List.forall_mem_cons, h1, h2, h3, h4, h5]
    exact ⟨hm4, hm3, hm2, hm1, hm0, nofun⟩
  rw [exec_rti_of_mapped hmapped, h1, h2, h3, h4, h5, hpcl, hpch, hx, ha, hccr, ccrOfByte_ccrByte, joinBytes_hiByte_loByte]

/-- Settles O43: both entries leave the frame that RTI takes down. -/
theorem handlerReturnRestores : Obligations.HandlerReturnRestores := by
  intro s t u hw hram hentry hsp hmem hcfg
  have hframe : OnFrameOf s t := by
    rcases hentry with hswi | ⟨n, hrequest⟩
    · exact takeException_onFrameOf hswi
    · exact interruptEntry_onFrameOf hrequest
  exact exec_rti_of_onFrameOf hw hram (onFrameOf_congr hframe hsp hmem hcfg)

/-! ### Reset -/

/-- A boundary with reset asserted is the Reset event, whatever is pending (rule R345). -/
theorem atBoundary_of_reset {s : State} (h : s.lines.reset = true) : atBoundary s = enterReset s := if_pos h

/-- Settles O49: the Reset event completes where its vector lies in RAM or ROM, with the register values of `resetRegisters`. -/
theorem resetEvent : Obligations.ResetEvent := by
  rintro s u rfl hreset hhi hlo
  have hentered := enterReset_eq_next.2 ⟨hhi, hlo, rfl⟩
  rw [step_eq, atBoundary_of_reset hreset]
  exact ⟨_, hentered, (joinBytes_toNat _ _).symm, rfl, rfl, rfl, rfl, rfl, rfl, rfl, rfl, rfl⟩

/-! ### Requests -/

/-- The asserted requests that count at a boundary: all of them, but for a stopped CPU those that wake it (rules R335, R346, R347). -/
def countingRequests (u : State) : BitVec 126 :=
  if u.runState = .stopped then u.lines.pending &&& u.cfg.stopWake else u.lines.pending

/-- They are the requests of the statements. -/
theorem asserted_iff {u : State} {n : Nat} : Asserted u n ↔ n < 126 ∧ (countingRequests u).getLsbD n = true := by
  by_cases hstopped : u.runState = .stopped <;> simp [Asserted, countingRequests, hstopped]

/-- A CPU that may take a request takes the lowest that counts; a halted one always may (rules R335, R336, R346, R347). -/
theorem taken_eq_lowestRequest {u : State} (h : u.runState = .running → u.ccr.i = false ∧ u.cliShadow = false) :
    u.taken = lowestRequest (countingRequests u) := by
  cases hr : u.runState with
  | running =>
    obtain ⟨hi, hshadow⟩ := h hr
    simp [State.taken, countingRequests, hr, hi, hshadow]
  | waiting | stopped => simp [State.taken, countingRequests, hr]

theorem lowestRequest_of_asserted {u : State} {n : Nat} (hn : Asserted u n) (hlow : ∀ m < n, ¬Asserted u m) :
    lowestRequest (countingRequests u) = some n := by
  obtain ⟨hlt, hbit⟩ := asserted_iff.1 hn
  refine lowestRequest_eq_some.2 ⟨hlt, hbit, fun m hm => ?_⟩
  exact Bool.eq_false_iff.2 fun hset => hlow m hm (asserted_iff.2 ⟨hm.trans hlt, hset⟩)

theorem lowestRequest_of_none_asserted {u : State} (h : ∀ n, ¬Asserted u n) : lowestRequest (countingRequests u) = none :=
  lowestRequest_eq_none.2 fun n hn => Bool.eq_false_iff.2 fun hset => h n (asserted_iff.2 ⟨hn, hset⟩)

/-- A boundary without reset at which a request is taken is its entry (rule R335). -/
theorem atBoundary_of_taken {s : State} {n : Nat} (hr : s.lines.reset = false) (hn : s.taken = some n) :
    atBoundary s = interruptEntry n s := by
  simp [atBoundary, hr, hn]

/-- Settles O51: `State.taken` is the lowest request that counts, and decides the boundary. -/
theorem requestsAtABoundary : Obligations.RequestsAtABoundary := by
  rintro s u rfl hreset
  rw [step_eq]
  refine ⟨fun n hn hlow hmay => ?_, fun hhalted hnone => ?_⟩
  · exact atBoundary_of_taken hreset ((taken_eq_lowestRequest hmay).trans (lowestRequest_of_asserted hn hlow))
  · have htaken : s.sample.taken = none :=
      (taken_eq_lowestRequest fun hrunning => absurd hrunning hhalted).trans (lowestRequest_of_none_asserted hnone)
    exact atBoundary_eq_next.2 (.inr ⟨hreset, .inr (.inr ⟨htaken, hhalted, rfl⟩)⟩)

end Sys2Proof.Proofs

/-!
PROOFS. The state after reset (O50, O54). PC is the word at the reset vector of its memory; a running CPU without `cli_shadow`
meets `BoundaryInv` by its memory and its stored addresses alone.
-/

namespace Sys2Proof.Proofs

open Sys2Proof Sys2Proof.Machine Sys2Proof.Claims

/-- A word in memory is its high byte at the address and its low byte at the next (rule R50). -/
theorem halves_readWord (m : Memory) (a : Word) : Halves (m.read a.toNat) (m.read (a + 1).toNat) (m.readWord a) :=
  (joinBytes_toNat _ _).symm

/-- Settles O50: PC is the word that `State.reset` reads at the reset vector; the other values are its own fields. -/
theorem resetState : Obligations.ResetState := by
  have hpc : Halves (State.reset.peek 0xFFFE) (State.reset.peek 0xFFFF) State.reset.pc := halves_readWord [] 0xFFFE
  exact ⟨rfl, rfl, rfl, hpc, rfl, rfl, rfl, rfl⟩

/-- While running without `cli_shadow`, the invariant asks nothing of I or of `cli_delay`. -/
theorem boundaryInv_of_running {s : State} (hw : s.mem.wf = true) (hrun : s.runState = .running) (hshadow : s.cliShadow = false)
    (hstored : s.stored.length ≤ 5) : BoundaryInv s :=
  ⟨hw, fun _ => hshadow, fun hset => by simp [hshadow] at hset, fun hhalted => absurd hrun hhalted, hstored⟩

/-- Settles O54: reset leaves the CPU running without `cli_shadow`, its memory and its list of stored addresses empty. -/
theorem resetMeetsInvariant : Obligations.ResetMeetsInvariant :=
  boundaryInv_of_running Memory.wf_nil rfl rfl (Nat.zero_le 5)

end Sys2Proof.Proofs
